-- ==== Sys2Proof/Word.lean ====
section
/-! DEFINITION. The machine words of the scanline decoder core (SLD): register words, bytes and colour codes. -/

namespace Sys2Proof

/-- A register, command or run word (10_state.md R22, 30_encoding.md R90, R110). -/
abbrev Word := BitVec 32

/-- A graphics byte (20_memory.md R60). -/
abbrev Byte := BitVec 8

/-- An opaque colour code (00_scope.md R6, COLOR_W). -/
abbrev Colour := BitVec 12

end Sys2Proof
end

