-- ==== Sys2Proof/Config.lean ====
section
/-! DEFINITION. What an implementation fixes: the parameters of 00_scope.md R6, and the free values, which no proof can see. -/

namespace Sys2Proof

/-- MID_STRIDE, the middle line-address stride: 120 and 128 are its only legal values (40_line_address.md R131). -/
inductive MidStride where
  | s120
  | s128
  deriving DecidableEq, Repr

/-- The stride in bytes. -/
def MidStride.bytes : MidStride → BitVec 13
  | .s120 => 120
  | .s128 => 128

/-- DR_INTERLEAVE: GROUP is normative (43_double_res.md R181); BIT is the alternative R-ALT1 of
93_implementation_defined.md. -/
inductive Interleave where
  | group
  | bit
  deriving DecidableEq, Repr

/-- The parameters a model takes as arguments (00_scope.md R6, 92_eei_decisions.md "Open parameters").
They stand in `State`, and no step writes them (assumption 4). -/
structure Params where
  /-- MID_STRIDE (40_line_address.md R131). -/
  midStride : MidStride
  /-- SR_LOOKBACK, 0 to 4 (42_single_res.md R166). -/
  srLookback : Fin 5
  /-- DR_INTERLEAVE (43_double_res.md R181). -/
  drInterleave : Interleave
  /-- VSKIP, the count of SKIP_LINES (44_frame_control.md R217). -/
  vskip : Nat
  /-- SL_CAP, the capacity in words of the buffers DRV lends (41_run_words.md R149). -/
  slCap : Nat
  deriving DecidableEq, Repr

/-- The defaults of 00_scope.md R6. MID_STRIDE 128 and VSKIP 48 are general knowledge by the spec's own mark;
SL_CAP has no default in the spec, and its least legal value 284 is a DESIGN CHOICE (assumption 4). -/
def Params.default : Params :=
  { midStride := .s128, srLookback := 3, drInterleave := .group, vskip := 48, slCap := 284 }

/-- The least capacity the spec allows (41_run_words.md R149). -/
def minCapacity : Nat := 284

/-- NCOLS, bytes per line per plane (00_scope.md R6). -/
def ncols : Nat := 40

/-- NLINES (00_scope.md R6). -/
def nlines : Nat := 192

/-- MIXED_GFX_LINES (00_scope.md R6). -/
def mixedGfxLines : Nat := 160

/-- The first and the last of MIXED_TEXT_ROWS (00_scope.md R6). -/
def firstTextRow : Nat := 20

/-- The last of MIXED_TEXT_ROWS (00_scope.md R6). -/
def lastTextRow : Nat := 23

/-- What a TDATA read of a never-written entry returns, cut to the entry's width (10_state.md R31,
93_implementation_defined.md U3(b)): a free value, drawn with `State.draws` (assumption 9). -/
opaque Config.unwrittenRead : Nat → Word

/-- Which of the values a racing graphics byte has had a read of it returns (20_memory.md R72, U2): a free
value, drawn with `State.draws` and the byte's address (assumption 10). -/
opaque Config.raceDraw : Nat → Nat → Nat

/-- Whether DRV is ready after a reset that abandons a command (70_reset_and_hazards.md R262, U6): a free value
(assumption 12). -/
opaque Config.driverAfterReset : Nat → Bool

/-- The `length` a lent buffer holds before the SLD writes it (10_state.md R55): a free value (assumption 13). -/
opaque Config.lentLength : Nat → Nat

/-- The `repeat_count` a lent buffer holds before the SLD writes it (10_state.md R55): a free value (assumption 13). -/
opaque Config.lentRepeat : Nat → Nat

end Sys2Proof
end

