-- ==== Sys2Proof/Syntax.lean ====
section
/-! DEFINITION. The instructions: one constructor for each row of spec/opcode_table.json. -/

namespace Sys2Proof

/-- The ten command words of format C (30_encoding.md R91), run by the sequencer from CMD, and the sixteen bus
operations of format BUS (44_frame_control.md R210, R225 to R230), run by the host. -/
inductive Instr where
  /-- NOP, 44_frame_control.md R212. -/
  | nop
  /-- FSTART, 44_frame_control.md R215. -/
  | fstart
  /-- LADDR L, 40_line_address.md R132. -/
  | laddr (l : BitVec 8)
  /-- DSR L, 42_single_res.md R160. -/
  | dsr (l : BitVec 8)
  /-- DDR.140 L, 43_double_res.md R182. -/
  | ddr140 (l : BitVec 8)
  /-- DDR.560 L, 43_double_res.md R184. -/
  | ddr560 (l : BitVec 8)
  /-- DDR.160 L, 43_double_res.md R186. -/
  | ddr160 (l : BitVec 8)
  /-- DDR.MIX L, 43_double_res.md R188. -/
  | ddrMix (l : BitVec 8)
  /-- FFULL, 44_frame_control.md R217. -/
  | ffull
  /-- FMIXED, 44_frame_control.md R218. -/
  | fmixed
  /-- WR CMD, v: 44_frame_control.md R210. -/
  | wrCmd (v : Word)
  /-- WR STATUS, v: 44_frame_control.md R228. -/
  | wrStatus (v : Word)
  /-- WR CFG, v: 44_frame_control.md R225. -/
  | wrCfg (v : Word)
  /-- WR TSEL, v: 44_frame_control.md R226. -/
  | wrTsel (v : Word)
  /-- WR TDATA, v: 44_frame_control.md R227. -/
  | wrTdata (v : Word)
  /-- RD TDATA: 44_frame_control.md R227. -/
  | rdTdata
  /-- RD CMD: 44_frame_control.md R229. -/
  | rdCmd
  /-- RD STATUS: 44_frame_control.md R229. -/
  | rdStatus
  /-- RD CFG: 44_frame_control.md R229. -/
  | rdCfg
  /-- RD FCFG: 44_frame_control.md R229. -/
  | rdFcfg
  /-- RD RESULT: 44_frame_control.md R229. -/
  | rdResult
  /-- RD TSEL: 44_frame_control.md R229. -/
  | rdTsel
  /-- WR FCFG, v: ignored, 44_frame_control.md R230. -/
  | wrFcfg (v : Word)
  /-- WR RESULT, v: ignored, 44_frame_control.md R230. -/
  | wrResult (v : Word)
  /-- RD of an unmapped offset: 44_frame_control.md R229, 10_state.md R22. -/
  | rdUnmapped (off : BitVec 8)
  /-- WR of v to an unmapped offset: 44_frame_control.md R230. -/
  | wrUnmapped (off : BitVec 8) (v : Word)
  deriving DecidableEq, Repr

end Sys2Proof
end

