-- ==== Sys2Proof/WellFormed.lean ====
section
/-! DEFINITION. Which instructions are well formed: the operand ranges the spec states. -/

namespace Sys2Proof

/-- The legal range of a line operand (30_encoding.md R92). -/
def lineInRange (l : BitVec 8) : Bool := l.toNat < 192

/-- The unmapped, aligned offsets 0x1C to 0xFC (10_state.md R22, 20_memory.md R66). -/
def unmappedOffset (off : BitVec 8) : Bool := off.toNat % 4 == 0 && 0x1C ≤ off.toNat

/-- A well-formed instruction: line operands in [0, 192), unmapped offsets unmapped and aligned. -/
def Instr.wellFormed : Instr → Bool
  | .laddr l => lineInRange l
  | .dsr l => lineInRange l
  | .ddr140 l => lineInRange l
  | .ddr560 l => lineInRange l
  | .ddr160 l => lineInRange l
  | .ddrMix l => lineInRange l
  | .rdUnmapped off => unmappedOffset off
  | .wrUnmapped off _ => unmappedOffset off
  | .nop => true
  | .fstart => true
  | .ffull => true
  | .fmixed => true
  | .wrCmd _ => true
  | .wrStatus _ => true
  | .wrCfg _ => true
  | .wrTsel _ => true
  | .wrTdata _ => true
  | .rdTdata => true
  | .rdCmd => true
  | .rdStatus => true
  | .rdCfg => true
  | .rdFcfg => true
  | .rdResult => true
  | .rdTsel => true
  | .wrFcfg _ => true
  | .wrResult _ => true

end Sys2Proof
end

