-- ==== Sys2Proof/Decode.lean ====
section
/-! DEFINITION. The decoder, total on command words, bus accesses and bytes, rejecting by name; and the encoder. -/

namespace Sys2Proof

/-- Why a command word is rejected (30_encoding.md R94): the names are those of 60_exceptions.md R241. -/
inductive CommandError where
  | illegalOp
  | reservedField
  | lineRange
  deriving DecidableEq, Repr

/-- Why a bus access is outside the defined interface (20_memory.md R66). -/
inductive AccessError where
  | width
  | misaligned
  deriving DecidableEq, Repr

/-- Every way the decoder rejects. -/
inductive DecodeError where
  | command (e : CommandError)
  | access (e : AccessError)
  /-- A list of bytes that is no command word and no bus frame. -/
  | length
  deriving DecidableEq, Repr

/-- A host bus access (20_memory.md R66): its direction, its byte offset in the 256-byte register block
(R63), its width in bytes, and the data of a write. -/
structure BusAccess where
  write : Bool
  offset : BitVec 8
  bytes : Nat
  data : Word
  deriving DecidableEq, Repr

/-- What an instruction is decoded from: the command word in CMD, or a bus access. -/
inductive Fetch where
  | command (w : Word)
  | access (a : BusAccess)
  deriving DecidableEq, Repr

/-! ### Command words -/

/-- The operation an accepted OP and S name (30_encoding.md R91, R93). -/
def commandOf (op : BitVec 4) (s : BitVec 2) (l : BitVec 8) : Instr :=
  if op = 0x0 then .nop
  else if op = 0x1 then .fstart
  else if op = 0x2 then .laddr l
  else if op = 0x3 then .dsr l
  else if op = 0x4 then
    if s = 0b00 then .ddr140 l
    else if s = 0b01 then .ddr560 l
    else if s = 0b10 then .ddr160 l
    else .ddrMix l
  else if op = 0x5 then .ffull
  else .fmixed

/-- The operations with a line operand (30_encoding.md R92). -/
def takesLine (op : BitVec 4) : Bool := op == 0x2 || op == 0x3 || op == 0x4

/-- The decode of a command word, in the order of 30_encoding.md R94; the busy test, its first line, is made by
WR CMD, which knows STATUS.BUSY. -/
def decodeCommand (v : Word) : Except CommandError Instr :=
  let op := v.extractLsb' 28 4
  let s := v.extractLsb' 10 2
  let l := v.extractLsb' 0 8
  if 0x6 < op then .error .illegalOp
  else if v.extractLsb' 12 16 ≠ 0 ∨ v.extractLsb' 8 2 ≠ 0 then .error .reservedField
  else if op ≠ 0x4 ∧ s ≠ 0 then .error .reservedField
  else if takesLine op = false ∧ l ≠ 0 then .error .reservedField
  else if takesLine op = true ∧ 192 ≤ l then .error .lineRange
  else .ok (commandOf op s l)

/-! ### Bus accesses -/

/-- The operation of an aligned 32-bit write (10_state.md R22). -/
def writeOf (off : BitVec 8) (v : Word) : Instr :=
  if off = 0x00 then .wrCmd v
  else if off = 0x04 then .wrStatus v
  else if off = 0x08 then .wrCfg v
  else if off = 0x0C then .wrFcfg v
  else if off = 0x10 then .wrResult v
  else if off = 0x14 then .wrTsel v
  else if off = 0x18 then .wrTdata v
  else .wrUnmapped off v

/-- The operation of an aligned 32-bit read (10_state.md R22). -/
def readOf (off : BitVec 8) : Instr :=
  if off = 0x00 then .rdCmd
  else if off = 0x04 then .rdStatus
  else if off = 0x08 then .rdCfg
  else if off = 0x0C then .rdFcfg
  else if off = 0x10 then .rdResult
  else if off = 0x14 then .rdTsel
  else if off = 0x18 then .rdTdata
  else .rdUnmapped off

/-- The decode of a bus access; an access of another width or a misaligned one is rejected (20_memory.md R66). -/
def decodeAccess (a : BusAccess) : Except AccessError Instr :=
  if a.bytes ≠ 4 then .error .width
  else if a.offset.extractLsb' 0 2 ≠ 0 then .error .misaligned
  else if a.write then .ok (writeOf a.offset a.data)
  else .ok (readOf a.offset)

/-- The decoder. -/
def decode : Fetch → Except DecodeError Instr
  | .command w =>
    match decodeCommand w with
    | .ok i => .ok i
    | .error e => .error (.command e)
  | .access a =>
    match decodeAccess a with
    | .ok i => .ok i
    | .error e => .error (.access e)

/-! ### The encoder -/

/-- Format C: OP, RSV1 = 0, S, RSV0 = 0, L (30_encoding.md R90). -/
def commandWord (op : BitVec 4) (s : BitVec 2) (l : BitVec 8) : Word :=
  op ++ (0 : BitVec 16) ++ s ++ (0 : BitVec 2) ++ l

/-- An aligned 32-bit write. -/
def writeAccess (off : BitVec 8) (v : Word) : Fetch :=
  .access { write := true, offset := off, bytes := 4, data := v }

/-- An aligned 32-bit read. -/
def readAccess (off : BitVec 8) : Fetch :=
  .access { write := false, offset := off, bytes := 4, data := 0 }

/-- The command word or bus access of an instruction (30_encoding.md R97, 10_state.md R22). -/
def encode : Instr → Fetch
  | .nop => .command (commandWord 0x0 0 0)
  | .fstart => .command (commandWord 0x1 0 0)
  | .laddr l => .command (commandWord 0x2 0 l)
  | .dsr l => .command (commandWord 0x3 0 l)
  | .ddr140 l => .command (commandWord 0x4 0b00 l)
  | .ddr560 l => .command (commandWord 0x4 0b01 l)
  | .ddr160 l => .command (commandWord 0x4 0b10 l)
  | .ddrMix l => .command (commandWord 0x4 0b11 l)
  | .ffull => .command (commandWord 0x5 0 0)
  | .fmixed => .command (commandWord 0x6 0 0)
  | .wrCmd v => writeAccess 0x00 v
  | .wrStatus v => writeAccess 0x04 v
  | .wrCfg v => writeAccess 0x08 v
  | .wrFcfg v => writeAccess 0x0C v
  | .wrResult v => writeAccess 0x10 v
  | .wrTsel v => writeAccess 0x14 v
  | .wrTdata v => writeAccess 0x18 v
  | .wrUnmapped off v => writeAccess off v
  | .rdCmd => readAccess 0x00
  | .rdStatus => readAccess 0x04
  | .rdCfg => readAccess 0x08
  | .rdFcfg => readAccess 0x0C
  | .rdResult => readAccess 0x10
  | .rdTsel => readAccess 0x14
  | .rdTdata => readAccess 0x18
  | .rdUnmapped off => readAccess off

/-! ### Bytes -/

/-- The two formats of spec/opcode_table.json. -/
inductive Format where
  | c
  | bus
  deriving DecidableEq, Repr

/-- A word from its bytes, the low byte first (20_memory.md R65). -/
def wordOfBytes (b0 b1 b2 b3 : Byte) : Word := b3 ++ b2 ++ b1 ++ b0

/-- The bytes of a word, the low byte first (20_memory.md R65). -/
def bytesOfWord (w : Word) : List Byte :=
  [w.extractLsb' 0 8, w.extractLsb' 8 8, w.extractLsb' 16 8, w.extractLsb' 24 8]

/-- The width a bus frame's control byte names: 0 is the interface's own width 4 (assumption 16). -/
def frameWidth (ctl : Byte) : Nat :=
  if ctl.extractLsb' 1 7 = 0 then 4 else (ctl.extractLsb' 1 7).toNat

/-- What a list of bytes holds. A command word is its four bytes, the low byte first. A bus frame is the model's
own layout (assumption 16): the offset, a control byte (bit 0 is 1 for a read; bits 7:1 are the width in bytes, 0
for 4), and the four data bytes. -/
def Fetch.ofBytes : Format → List Byte → Option Fetch
  | .c, [b0, b1, b2, b3] => some (.command (wordOfBytes b0 b1 b2 b3))
  | .bus, [off, ctl, d0, d1, d2, d3] =>
    some (.access
      { write := !ctl.getLsbD 0, offset := off, bytes := frameWidth ctl, data := wordOfBytes d0 d1 d2 d3 })
  | _, _ => none

/-- The format of an instruction's encoding. -/
def Fetch.format : Fetch → Format
  | .command _ => .c
  | .access _ => .bus

/-- The control byte of a bus frame. -/
def controlByte (a : BusAccess) : Byte :=
  BitVec.ofNat 7 (if a.bytes = 4 then 0 else a.bytes) ++ BitVec.ofBool (!a.write)

/-- The bytes of a command word or bus access. -/
def Fetch.toBytes : Fetch → List Byte
  | .command w => bytesOfWord w
  | .access a => a.offset :: controlByte a :: bytesOfWord a.data

/-- The decoder on bytes: total, rejecting by name. -/
def decodeBytes (f : Format) (bs : List Byte) : Except DecodeError Instr :=
  match Fetch.ofBytes f bs with
  | some x => decode x
  | none => .error .length

/-- The bytes of a table word: `nbits` bits of `w`, and zeros above, up to the format's length. -/
def tableBytes (nbits w len : Nat) : List Byte :=
  (List.range len).map fun k => BitVec.ofNat 8 ((w % 2 ^ nbits) / 2 ^ (8 * k))

/-- The format of a row of the opcode table by its number of bits: a command word has 32, a bus row the 8 of its
offset (assumption 16). -/
def tableFormat (nbits : Nat) : Format := if nbits = 32 then .c else .bus

/-- What a table word stands for. -/
def Fetch.ofTableWord (nbits w : Nat) : Option Fetch :=
  match tableFormat nbits with
  | .c => Fetch.ofBytes .c (tableBytes nbits w 4)
  | .bus => Fetch.ofBytes .bus (tableBytes nbits w 6)

/-- The instruction the decoder reads from a word numbered as spec/opcode_table.json numbers it. -/
def decodeTableWord (nbits w : Nat) : Option Instr :=
  match Fetch.ofTableWord nbits w with
  | some x =>
    match decode x with
    | .ok i => some i
    | .error _ => none
  | none => none

end Sys2Proof
end

