-- ==== Sys2Proof/Machine/State.lean ====
section
/-! DEFINITION. The state of the SLD as plain data, the reasons a step can stop, and the state after reset. -/

namespace Sys2Proof.Machine

/-- The two memory planes (00_scope.md R10). -/
inductive Plane where
  | main
  | aux
  deriving DecidableEq, Repr

/-- The two display pages (10_state.md R54). -/
inductive Page where
  | one
  | two
  deriving DecidableEq, Repr

/-- The double-resolution sub-modes (30_encoding.md R93). -/
inductive Sub where
  | s140
  | s560
  | s160
  | mix
  deriving DecidableEq, Repr

/-- The Mode Selector (10_state.md R27): its five values, the three codes never produced left out. -/
inductive Mode where
  | base
  | dr (sub : Sub)
  deriving DecidableEq, Repr

/-- STATUS.ERRCODE (60_exceptions.md R241): the six values ever written. -/
inductive ErrCode where
  | none
  | illegalOp
  | reservedField
  | lineRange
  | busy
  | tableRange
  deriving DecidableEq, Repr

/-- SEQ_STATE (10_state.md R51). -/
inductive SeqState where
  | idle
  | busy
  deriving DecidableEq, Repr

/-- The table ids 0 to 5 (10_state.md R40). -/
inductive TableId where
  | dot
  | art
  | pal16
  | mono4
  | monobw
  | lores16
  deriving DecidableEq, Repr

/-- A table RAM of `w`-bit entries: the written entries by index, the indexes strictly rising. An entry has the
attribute *written* exactly when it is listed (10_state.md R41). -/
abbrev Ram (w : Nat) := List (Nat × BitVec w)

/-- The six table RAMs (10_state.md R40). -/
structure Tables where
  dot : Ram 14
  art : Ram 24
  pal16 : Ram 12
  mono4 : Ram 24
  monobw : Ram 12
  lores16 : Ram 12
  deriving DecidableEq, Repr

/-- The graphics page views as (address, byte) pairs, the addresses strictly rising; an unlisted byte is 0x00
(assumption 5), and no 0x00 is listed. -/
abbrev Memory := List Host.Cell

/-- The engines' line-local registers (10_state.md R50, R53). -/
structure Datapath where
  acc : BitVec 32
  phase : Bool
  facc : BitVec 32
  navail : Nat
  deriving DecidableEq, Repr

/-- A scanline buffer (10_state.md R55): the words written so far, in order, and the two counts. Words the SLD has
not written are the driver's and are not represented (U9, assumption 13). -/
structure Buffer where
  data : List Word
  length : Nat
  repeatCount : Nat
  deriving DecidableEq, Repr

/-- The requests to the external agents (60_exceptions.md R252). -/
inductive Request where
  | prepareFrame
  | skipLines (n : Nat)
  | prepareScanline
  | submitScanline (b : Buffer)
  | renderTextLine (row : Nat)
  deriving DecidableEq, Repr

/-- Where in its rule the running command stands, the control part of SEQ_POS (10_state.md R21, R52). -/
inductive Point where
  /-- Accepted, nothing of it done. -/
  | start
  /-- PREPARE_FRAME issued, waiting for DRV. -/
  | frameAck
  /-- SKIP_LINES issued, waiting for DRV. -/
  | skipAck
  /-- PREPARE_SCANLINE issued, waiting for a buffer. -/
  | lineAck
  /-- A buffer is held; the padding and the engine's line start come next. -/
  | pad
  /-- Inside the columns of a line. -/
  | content
  /-- All columns done; the finalisation comes next. -/
  | finalize
  /-- Finalised; SUBMIT_SCANLINE comes next. -/
  | submit
  /-- SUBMIT_SCANLINE issued, waiting for DRV. -/
  | submitAck
  /-- RENDER_TEXT_LINE issued, waiting for TXT. -/
  | textAck
  /-- Every effect done but the completion. -/
  | complete
  deriving DecidableEq, Repr

/-- What can reach the block from outside (00_scope.md R11). -/
inductive Input where
  /-- A host bus access. -/
  | host (a : BusAccess)
  /-- GMW writes a graphics byte (20_memory.md R72). -/
  | gmw (plane : Plane) (page : Page) (off : BitVec 13) (v : Byte)
  /-- DRV begins (true) or ceases (false) to answer requests (60_exceptions.md R252). -/
  | drv (ready : Bool)
  /-- TXT begins or ceases to answer requests. -/
  | txt (ready : Bool)
  /-- The reset input (70_reset_and_hazards.md R262). -/
  | reset
  deriving DecidableEq, Repr

/-- An input and how many more SEQ steps come before it (70_reset_and_hazards.md R282, assumption 1). -/
structure TimedInput where
  after : Nat
  input : Input
  deriving DecidableEq, Repr

structure State where
  /-- The hardware's parameters (00_scope.md R6); no step writes them. -/
  params : Params
  /-- CMD (10_state.md R23). -/
  cmd : Word
  /-- SEQ_STATE, that is STATUS.BUSY (10_state.md R51). -/
  seqState : SeqState
  /-- STATUS.DONE (10_state.md R24). -/
  done : Bool
  /-- STATUS.ERR (10_state.md R24). -/
  err : Bool
  /-- STATUS.ERRCODE (10_state.md R24). -/
  errcode : ErrCode
  /-- STATUS.MODE (10_state.md R27). -/
  mode : Mode
  /-- CFG[6:0] (10_state.md R25). -/
  cfg : BitVec 7
  /-- CFG as the CMD write of the running command found it, which its snapshot takes (20_memory.md R71, R75,
  assumption 3). -/
  issueCfg : BitVec 7
  /-- FCFG[6:0] (10_state.md R26). -/
  fcfg : BitVec 7
  /-- RESULT.OFFSET (10_state.md R29). -/
  result : BitVec 13
  /-- TSEL.TABLE (10_state.md R30). -/
  tselTable : BitVec 3
  /-- TSEL.INDEX (10_state.md R30). -/
  tselIndex : BitVec 9
  /-- The table RAMs (10_state.md R40). -/
  tables : Tables
  /-- ACC, PHASE, FACC and NAVAIL (10_state.md R50, R53). -/
  dp : Datapath
  /-- SEQ_POS: the place in the command's rule (10_state.md R52). -/
  point : Point
  /-- SEQ_POS: LCTR (10_state.md R52). -/
  lctr : Nat
  /-- SEQ_POS: the text-row counter (10_state.md R52). -/
  trow : Nat
  /-- SEQ_POS: COL (10_state.md R52). -/
  col : Nat
  /-- SEQ_POS: WIDX (10_state.md R52). -/
  widx : Nat
  /-- SLBUF, the buffer on loan, if one is held (10_state.md R55). -/
  held : Option Buffer
  /-- OUT (10_state.md R56). -/
  out : List Request
  /-- The graphics page views (10_state.md R54). -/
  mem : Memory
  /-- The values graphics bytes had, since the running command was accepted, before GMW wrote them
  (20_memory.md R72, assumption 10). -/
  stale : List Host.Cell
  /-- The addresses GMW has written while a line decode of the running command was in progress: the bytes whose reads
  are draws (20_memory.md R72, assumption 10). -/
  raced : List Nat
  /-- DRV answers requests (60_exceptions.md R252, assumption 11). -/
  drvReady : Bool
  /-- TXT answers requests (60_exceptions.md R252, assumption 11). -/
  txtReady : Bool
  /-- The model's own: the inputs still to arrive (assumption 1). -/
  inputs : List TimedInput
  /-- The model's own: the word the last host read returned (assumption 17). -/
  rdata : Word
  /-- The model's own: the counter free values are drawn with (assumptions 9, 10, 12, 13). -/
  draws : Nat
  deriving DecidableEq, Repr

/-- Why the machine stops with a fault. -/
inductive Fault where
  /-- A command read a table entry never written since reset: the run words it feeds are unspecified, and the spec
  tells a model to fault (10_state.md R41, U3(a)). Raised by the line decodes. Safe (assumption 8). -/
  | unwrittenEntry (t : TableId) (i : Nat)
  deriving DecidableEq, Repr

/-- Why a step is refused. -/
inductive Refusal where
  /-- An instruction that has no meaning yet. Safe. -/
  | notModelled (mnemonic : String)
  /-- A bus access that is not 32 bits wide or is misaligned; the spec tells a model to refuse it (20_memory.md
  R66, U1). Raised by `step`. Safe (assumption 15). -/
  | undefinedAccess (e : AccessError)
  /-- DRV lends buffers of fewer than 284 words; the spec tells a model to refuse the configuration
  (41_run_words.md R149, U4). Raised when a buffer is taken. Safe (assumption 14). -/
  | smallBuffer
  /-- SEQ is BUSY and CMD holds no command word; no run from reset comes here, since only an accepted word is
  ever put into CMD (44_frame_control.md R210). Raised by `step`. Safe (assumption 23). -/
  | notACommand (e : CommandError)
  deriving DecidableEq, Repr

/-- No entry written (10_state.md R41). -/
def Tables.empty : Tables :=
  { dot := [], art := [], pal16 := [], mono4 := [], monobw := [], lores16 := [] }

/-- The state after reset (70_reset_and_hazards.md R260). The parameters are their defaults (assumption 4); the
hidden registers, which R260 leaves unspecified, are zero (assumption 7); the page views, which are no part of the
block, are all 0x00 (assumption 5); and the agents are ready (assumption 11). -/
def State.reset : State :=
  { params := Params.default
    cmd := 0
    seqState := .idle
    done := false
    err := false
    errcode := .none
    mode := .base
    cfg := 0
    issueCfg := 0
    fcfg := 0
    result := 0
    tselTable := 0
    tselIndex := 0
    tables := Tables.empty
    dp := { acc := 0, phase := false, facc := 0, navail := 0 }
    point := .start
    lctr := 0
    trow := 0
    col := 0
    widx := 0
    held := none
    out := []
    mem := []
    stale := []
    raced := []
    drvReady := true
    txtReady := true
    inputs := []
    rdata := 0
    draws := 0 }

end Sys2Proof.Machine
end

