-- ==== Sys2Proof/Machine/Operands.lean ====
section
/-! DEFINITION. The operand forms: configuration fields, the line address, the packing of run words, and the dots
of a column. -/

namespace Sys2Proof.Machine

/-! ### Configuration fields (10_state.md R25) -/

/-- PAGE2 selects the page (20_memory.md R61). -/
def pageOf (c : BitVec 7) : Page := if c.getLsbD 0 then .two else .one

def col80Of (c : BitVec 7) : Bool := c.getLsbD 1

def dhiresOf (c : BitVec 7) : Bool := c.getLsbD 2

def monoOf (c : BitVec 7) : Bool := c.getLsbD 3

def drsubOf (c : BitVec 7) : BitVec 2 := c.extractLsb' 4 2

def dupOf (c : BitVec 7) : Bool := c.getLsbD 6

/-- The sub-mode codes (30_encoding.md R93). -/
def Sub.ofCode (s : BitVec 2) : Sub :=
  if s = 0b00 then .s140 else if s = 0b01 then .s560 else if s = 0b10 then .s160 else .mix

def Sub.code : Sub → BitVec 2
  | .s140 => 0b00
  | .s560 => 0b01
  | .s160 => 0b10
  | .mix => 0b11

/-! ### The line address mapper -/

/-- line_offset(L), a 13-bit unsigned value (40_line_address.md R130). -/
def lineOffset (p : Params) (l : BitVec 8) : BitVec 13 :=
  (l.extractLsb' 0 3).setWidth 13 * 1024 + (l.extractLsb' 3 3).setWidth 13 * p.midStride.bytes
    + (l.extractLsb' 6 2).setWidth 13 * 40

/-- The place of a graphics byte in the model's one list of cells (assumption 6). -/
def pageAddr (pl : Plane) (pg : Page) (off : BitVec 13) : Nat :=
  (match pl with | .main => 0 | .aux => 16384) + (match pg with | .one => 0 | .two => 8192) + off.toNat

/-! ### Run words (30_encoding.md R110 to R114) -/

/-- item(c, n): hold flag 0, extend count n, colour c. -/
def item (c : Colour) (n : BitVec 3) : BitVec 16 := (0 : BitVec 1) ++ n ++ c

/-- W2: item 0 in bits 15:0, item 1 in bits 31:16. -/
def w2 (c0 : Colour) (n0 : BitVec 3) (c1 : Colour) (n1 : BitVec 3) : Word := item c1 n1 ++ item c0 n0

/-- PAIR: two adjacent colours, 2 slots. -/
def pair (c0 c1 : Colour) : Word := w2 c0 0 c1 0

/-- XPAIR: two colours each extended by 3 slots, 8 slots. -/
def xpair (c0 c1 : Colour) : Word := w2 c0 3 c1 3

/-- The line-hold marker (30_encoding.md R112). -/
def holdWord : Word := 0x00008000

/-- BLANK (30_encoding.md R114). -/
def blank : Colour := 0

/-- pad_left: 16 + 16 + 8 slots of BLANK (41_run_words.md R143). -/
def padWords : List Word := [w2 blank 7 blank 7, w2 blank 7 blank 7, w2 blank 3 blank 3]

/-- The left colour c0 of an ART or MONO4 entry (10_state.md R40). -/
def leftColour (e : BitVec 24) : Colour := e.extractLsb' 0 12

/-- The right colour c1 of an ART or MONO4 entry (10_state.md R40). -/
def rightColour (e : BitVec 24) : Colour := e.extractLsb' 12 12

/-- PAIR of an entry's two colours. -/
def entryPair (e : BitVec 24) : Word := pair (leftColour e) (rightColour e)

/-! ### The dots of a double-resolution column (43_double_res.md R181, R191) -/

/-- The 14 dots of a column, the earliest in bit 0: GROUP takes the 7 dots of the AUX byte and then the 7 of the
MAIN byte (R181); BIT takes one of each in turn (R-ALT1). -/
def colDots (il : Interleave) (a m : Byte) : BitVec 14 :=
  match il with
  | .group => m.extractLsb' 0 7 ++ a.extractLsb' 0 7
  | .bit => BitVec.ofFnLE fun i : Fin 14 => if i.val % 2 = 0 then a.getLsbD (i.val / 2) else m.getLsbD (i.val / 2)

/-- Seven copies of a byte's bit 7, in the place of its seven dots. -/
def rep7 (b : Byte) : Byte := if b.getLsbD 7 then 0x7F else 0

/-- The 14 flags of a column, in parallel with its dots (R181). -/
def colFlags (il : Interleave) (a m : Byte) : BitVec 14 := colDots il (rep7 a) (rep7 m)

end Sys2Proof.Machine
end

