-- ==== Sys2Proof/Machine/Ops.lean ====
section
/-! DEFINITION. The named operations over memory, tables, buffers and requests; the rejection (the SLD's only
exception) and its clearing; acceptance and completion of a command. -/

namespace Sys2Proof.Machine

/-- One thing after another: a stop stops both. -/
def andThen (o : Host.Outcome State Fault Refusal) (f : State → Host.Outcome State Fault Refusal) :
    Host.Outcome State Fault Refusal :=
  match o with
  | .next t => f t
  | .fault e => .fault e
  | .refused r => .refused r

/-! ### Graphics memory -/

/-- The size of the four page views together. -/
def memorySize : Nat := 32768

/-- One byte; an unlisted address reads 0x00 (assumption 5). -/
def Memory.read : Memory → Nat → Byte
  | [], _ => 0
  | (b, v) :: r, a => if b = a then v else Memory.read r a

/-- Writes one byte and keeps the canonical form. -/
def Memory.write : Memory → Nat → Byte → Memory
  | [], a, v => if v = 0 then [] else [(a, v)]
  | (b, x) :: r, a, v =>
    if a < b then (if v = 0 then (b, x) :: r else (a, v) :: (b, x) :: r)
    else if a = b then (if v = 0 then r else (a, v) :: r)
    else (b, x) :: Memory.write r a v

/-- Addresses strictly rising from `lo`, inside the views, and no 0x00 listed. -/
def Memory.wfFrom : Nat → Memory → Bool
  | _, [] => true
  | lo, (a, v) :: r => decide (lo ≤ a) && decide (a < memorySize) && !(v == 0) && Memory.wfFrom (a + 1) r

/-- The canonical form. -/
def Memory.wf (m : Memory) : Bool := Memory.wfFrom 0 m

/-- Where a line decode is in progress: from begin_line's request to DRV's acceptance of end_line's (41_run_words.md
R141). -/
def Point.ofLine : Point → Bool
  | .lineAck => true
  | .pad => true
  | .content => true
  | .finalize => true
  | .submit => true
  | .submitAck => true
  | .start => false
  | .frameAck => false
  | .skipAck => false
  | .textAck => false
  | .complete => false

/-- A line decode is in progress (20_memory.md R72). -/
def State.decoding (s : State) : Bool := s.seqState == .busy && s.point.ofLine

/-- The values the byte at `a` had since the running command was accepted, but for its present one (20_memory.md
R72). -/
def State.staleAt (s : State) (a : Nat) : List Byte := (s.stale.filter fun c => c.1 == a).map (·.2)

/-- GRead (20_memory.md R60): the byte, or, where GMW has written it while a line decode of the running command was
in progress, a draw from the values it has had since the command was accepted (R72, assumption 10). -/
def State.gread (s : State) (pl : Plane) (pg : Page) (off : BitVec 13) : Byte :=
  let a := pageAddr pl pg off
  let now := s.mem.read a
  if a ∈ s.raced then
    (now :: s.staleAt a).getD (Config.raceDraw s.draws a % ((s.staleAt a).length + 1)) now
  else now

/-- GMW writes a byte (10_state.md R54). While a command runs, the value it replaces is kept; while a line decode is
in progress, the byte becomes one whose reads are draws (20_memory.md R72). -/
def State.gmwWrite (s : State) (pl : Plane) (pg : Page) (off : BitVec 13) (v : Byte) : State :=
  let a := pageAddr pl pg off
  { s with
    mem := s.mem.write a v
    stale := if s.seqState = .busy then (a, s.mem.read a) :: s.stale else s.stale
    raced := if s.decoding = true then a :: s.raced else s.raced }

/-! ### Table RAMs (10_state.md R40, R41) -/

/-- The entry at an index, if it has been written. -/
def Ram.get {w : Nat} : Ram w → Nat → Option (BitVec w)
  | [], _ => none
  | (j, v) :: r, i => if j = i then some v else Ram.get r i

/-- Writes an entry and makes it written. -/
def Ram.set {w : Nat} : Ram w → Nat → BitVec w → Ram w
  | [], i, v => [(i, v)]
  | (j, x) :: r, i, v =>
    if i < j then (i, v) :: (j, x) :: r
    else if i = j then (i, v) :: r
    else (j, x) :: Ram.set r i v

/-- Indexes strictly rising from `lo` and below `size`. -/
def Ram.wfFrom {w : Nat} (size : Nat) : Nat → Ram w → Bool
  | _, [] => true
  | lo, (i, _) :: r => decide (lo ≤ i) && decide (i < size) && Ram.wfFrom size (i + 1) r

/-- TRead (20_memory.md R62) by a command; an unwritten entry is a model fault (10_state.md R41). -/
def Ram.fetch {w : Nat} (r : Ram w) (t : TableId) (i : Nat) : Except Fault (BitVec w) :=
  match r.get i with
  | some v => .ok v
  | none => .error (.unwrittenEntry t i)

/-- The table a TSEL.TABLE code selects; 6 and 7 are reserved (10_state.md R40). -/
def TableId.ofCode (c : BitVec 3) : Option TableId :=
  if c = 0 then some .dot
  else if c = 1 then some .art
  else if c = 2 then some .pal16
  else if c = 3 then some .mono4
  else if c = 4 then some .monobw
  else if c = 5 then some .lores16
  else none

/-- size(t) (10_state.md R40). -/
def TableId.size : TableId → Nat
  | .dot => 256
  | .art => 512
  | .pal16 => 16
  | .mono4 => 4
  | .monobw => 2
  | .lores16 => 16

/-- width(t) (10_state.md R40). -/
def TableId.width : TableId → Nat
  | .dot => 14
  | .art => 24
  | .pal16 => 12
  | .mono4 => 24
  | .monobw => 12
  | .lores16 => 12

/-- An entry, zero-extended to a register word, if it has been written. -/
def Tables.get (tb : Tables) : TableId → Nat → Option Word
  | .dot, i => (tb.dot.get i).map (·.setWidth 32)
  | .art, i => (tb.art.get i).map (·.setWidth 32)
  | .pal16, i => (tb.pal16.get i).map (·.setWidth 32)
  | .mono4, i => (tb.mono4.get i).map (·.setWidth 32)
  | .monobw, i => (tb.monobw.get i).map (·.setWidth 32)
  | .lores16, i => (tb.lores16.get i).map (·.setWidth 32)

/-- TABLE[t][i] <- v[width(t)-1:0] (10_state.md R31). -/
def Tables.set (tb : Tables) (t : TableId) (i : Nat) (v : Word) : Tables :=
  match t with
  | .dot => { tb with dot := tb.dot.set i (v.setWidth 14) }
  | .art => { tb with art := tb.art.set i (v.setWidth 24) }
  | .pal16 => { tb with pal16 := tb.pal16.set i (v.setWidth 12) }
  | .mono4 => { tb with mono4 := tb.mono4.set i (v.setWidth 24) }
  | .monobw => { tb with monobw := tb.monobw.set i (v.setWidth 12) }
  | .lores16 => { tb with lores16 := tb.lores16.set i (v.setWidth 12) }

/-- Every table's indexes strictly rising and in range. -/
def Tables.wf (tb : Tables) : Bool :=
  Ram.wfFrom (TableId.size .dot) 0 tb.dot && Ram.wfFrom (TableId.size .art) 0 tb.art
    && Ram.wfFrom (TableId.size .pal16) 0 tb.pal16 && Ram.wfFrom (TableId.size .mono4) 0 tb.mono4
    && Ram.wfFrom (TableId.size .monobw) 0 tb.monobw && Ram.wfFrom (TableId.size .lores16) 0 tb.lores16

/-- The entry a TDATA access reaches, if TSEL is in range (10_state.md R31). -/
def State.selected (s : State) : Option (TableId × Nat) :=
  match TableId.ofCode s.tselTable with
  | none => none
  | some t => if s.tselIndex.toNat < t.size then some (t, s.tselIndex.toNat) else none

/-! ### The rejection (60_exceptions.md R240) and its clearing -/

/-- raise Err(code): the first code since ERR was clear is kept, ERR is set, and nothing else changes. -/
def State.raise (s : State) (e : ErrCode) : State :=
  { s with errcode := if s.err then s.errcode else e, err := true }

/-- ERR <- 0 and ERRCODE <- 0, by which software leaves the error (60_exceptions.md R246). -/
def State.clearErr (s : State) : State := { s with err := false, errcode := .none }

/-! ### Acceptance, snapshot and completion -/

/-- Acceptance of a command word (44_frame_control.md R210). The configuration a snapshot of this command takes is
CFG's at this moment (20_memory.md R71), the record of GMW writes begins here (R72), and SEQ stands at the command's
start. -/
def State.accept (s : State) (v : Word) : State :=
  { s with
    cmd := v, done := false, seqState := .busy, point := .start, issueCfg := s.cfg, stale := [], raced := [] }

/-- complete() (44_frame_control.md R211). -/
def State.finish (s : State) : State := { s with seqState := .idle, done := true }

/-- derive_mode (10_state.md R28). -/
def deriveMode (c : BitVec 7) : Mode :=
  if (col80Of c && dhiresOf c) = false then .base
  else if monoOf c then .dr .s560
  else .dr (Sub.ofCode (drsubOf c))

/-- snapshot() (44_frame_control.md R215): of CFG as the command's CMD write found it, whatever is written to CFG while
the command runs (20_memory.md R71, R75). -/
def State.snapshot (s : State) : State := { s with fcfg := s.issueCfg, mode := deriveMode s.issueCfg }

/-! ### Requests and the scanline buffer -/

/-- Issues a request to an external agent (10_state.md R56), and goes to the point that waits for its answer. -/
def State.request (s : State) (r : Request) (p : Point) : State := { s with out := s.out ++ [r], point := p }

/-- The buffer DRV lends: no word of it written by the SLD, its counts unspecified (10_state.md R55). -/
def State.lent (s : State) : Buffer :=
  { data := [], length := Config.lentLength s.draws, repeatCount := Config.lentRepeat s.draws }

/-- The second half of begin_line: a buffer is held, and WIDX <- 0 (41_run_words.md R141). -/
def State.takeBuffer (s : State) : State :=
  { s with held := some s.lent, widx := 0, draws := s.draws + 1, point := .pad }

/-- Appends words to a buffer. -/
def Buffer.append (b : Buffer) (ws : List Word) : Buffer := { b with data := b.data ++ ws }

/-- Emit of each word in turn: data[WIDX] <- w; WIDX <- WIDX + 1 (41_run_words.md R140). -/
def State.emits (s : State) (ws : List Word) : State :=
  { s with held := s.held.map (·.append ws), widx := s.widx + ws.length }

/-- The repeat_count of finalize (41_run_words.md R146). -/
def repeatOf (c : BitVec 7) : Nat := if dupOf c then 1 else 0

/-- The words finalize emits (41_run_words.md R146). -/
def tailWords (c : BitVec 7) : List Word := if dupOf c then [] else [holdWord]

/-- finalize() (41_run_words.md R146). -/
def State.finalizeLine (s : State) : State :=
  let t := s.emits (tailWords s.fcfg)
  { t with
    held := t.held.map fun b => { b with length := t.widx, repeatCount := repeatOf s.fcfg }
    point := .submit }

/-- The held buffer, with none of its words written. -/
def State.rewind (s : State) : State :=
  { s with held := s.held.map fun b => { b with data := [] }, widx := 0 }

/-- SUBMIT_SCANLINE of the held buffer, which goes back to DRV (60_exceptions.md R252). -/
def State.submitLine (s : State) : State :=
  { s with out := s.out ++ s.held.toList.map .submitScanline, held := none, point := .submitAck }

end Sys2Proof.Machine
end

