-- ==== Sys2Proof/Machine/Flags.lean ====
section
/-! DEFINITION. The registers as the host reads them: STATUS and its codes, CFG, FCFG, RESULT and TSEL. -/

namespace Sys2Proof.Machine

/-- STATUS.MODE's codes (10_state.md R27). -/
def Mode.code : Mode → BitVec 3
  | .base => 0b000
  | .dr s => (0b1 : BitVec 1) ++ s.code

/-- STATUS.ERRCODE's codes (60_exceptions.md R241). -/
def ErrCode.code : ErrCode → BitVec 4
  | .none => 0x0
  | .illegalOp => 0x1
  | .reservedField => 0x2
  | .lineRange => 0x3
  | .busy => 0x4
  | .tableRange => 0x5

/-- STATUS.BUSY (10_state.md R51). -/
def State.busy (s : State) : Bool := s.seqState == .busy

/-- ERRCODE as read: 0 while ERR = 0 (10_state.md R24). -/
def State.errcodeRead (s : State) : BitVec 4 := if s.err then s.errcode.code else 0

/-- STATUS (10_state.md R24). -/
def State.statusWord (s : State) : Word :=
  (0 : BitVec 21) ++ s.mode.code ++ s.errcodeRead ++ (0 : BitVec 1) ++ BitVec.ofBool s.err
    ++ BitVec.ofBool s.done ++ BitVec.ofBool s.busy

/-- CFG (10_state.md R25): bits 31:7 read 0. -/
def State.cfgWord (s : State) : Word := s.cfg.setWidth 32

/-- FCFG (10_state.md R26): bits 31:7 read 0. -/
def State.fcfgWord (s : State) : Word := s.fcfg.setWidth 32

/-- RESULT (10_state.md R29): bits 31:13 read 0. -/
def State.resultWord (s : State) : Word := s.result.setWidth 32

/-- TSEL (10_state.md R30). -/
def State.tselWord (s : State) : Word :=
  (0 : BitVec 13) ++ s.tselTable ++ (0 : BitVec 7) ++ s.tselIndex

/-- The error code of a rejected command word (60_exceptions.md R241). -/
def ErrCode.ofCommand : CommandError → ErrCode
  | .illegalOp => .illegalOp
  | .reservedField => .reservedField
  | .lineRange => .lineRange

/-- A host read returns a word and changes nothing else (44_frame_control.md R229). -/
def State.returns (s : State) (v : Word) : State := { s with rdata := v }

end Sys2Proof.Machine
end

