-- ==== Sys2Proof/Machine/Bus.lean ====
section
/-! DEFINITION. The meanings of the sixteen bus operations (44_frame_control.md R210, R225 to R230). -/

namespace Sys2Proof.Machine

/-! ### Writes -/

/-- WR CMD: decode(v, BUSY), then acceptance or raise Err (44_frame_control.md R210, 30_encoding.md R94). -/
def execWrCmd (v : Word) (s : State) : Host.Outcome State Fault Refusal :=
  if s.busy then .next (s.raise .busy)
  else
    match decodeCommand v with
    | .ok _ => .next (s.accept v)
    | .error e => .next (s.raise (ErrCode.ofCommand e))

/-- WR STATUS: DONE and ERR are cleared by writing 1; clearing ERR clears ERRCODE (44_frame_control.md R228). -/
def execWrStatus (v : Word) (s : State) : Host.Outcome State Fault Refusal :=
  let t := if v.getLsbD 1 then { s with done := false } else s
  .next (if v.getLsbD 2 then t.clearErr else t)

/-- WR CFG: CFG[6:0] <- v[6:0], also while BUSY (44_frame_control.md R225). -/
def execWrCfg (v : Word) (s : State) : Host.Outcome State Fault Refusal := .next { s with cfg := v.extractLsb' 0 7 }

/-- WR TSEL (44_frame_control.md R226, 10_state.md R30). -/
def execWrTsel (v : Word) (s : State) : Host.Outcome State Fault Refusal :=
  if s.busy then .next (s.raise .busy)
  else .next { s with tselTable := v.extractLsb' 16 3, tselIndex := v.extractLsb' 0 9 }

/-- WR TDATA (44_frame_control.md R227, 10_state.md R31). -/
def execWrTdata (v : Word) (s : State) : Host.Outcome State Fault Refusal :=
  if s.busy then .next (s.raise .busy)
  else
    match s.selected with
    | none => .next (s.raise .tableRange)
    | some (t, i) => .next { s with tables := s.tables.set t i v }

/-- WR FCFG is ignored (44_frame_control.md R230). -/
def execWrFcfg (_v : Word) (s : State) : Host.Outcome State Fault Refusal := .next s

/-- WR RESULT is ignored (44_frame_control.md R230). -/
def execWrResult (_v : Word) (s : State) : Host.Outcome State Fault Refusal := .next s

/-- WR to an unmapped offset is ignored (44_frame_control.md R230). -/
def execWrUnmapped (_off : BitVec 8) (_v : Word) (s : State) : Host.Outcome State Fault Refusal := .next s

/-! ### Reads -/

/-- RD CMD: the last accepted command word (10_state.md R23). -/
def execRdCmd (s : State) : Host.Outcome State Fault Refusal := .next (s.returns s.cmd)

/-- RD STATUS (10_state.md R24). -/
def execRdStatus (s : State) : Host.Outcome State Fault Refusal := .next (s.returns s.statusWord)

/-- RD CFG (10_state.md R25). -/
def execRdCfg (s : State) : Host.Outcome State Fault Refusal := .next (s.returns s.cfgWord)

/-- RD FCFG (10_state.md R26). -/
def execRdFcfg (s : State) : Host.Outcome State Fault Refusal := .next (s.returns s.fcfgWord)

/-- RD RESULT (10_state.md R29). -/
def execRdResult (s : State) : Host.Outcome State Fault Refusal := .next (s.returns s.resultWord)

/-- RD TSEL (10_state.md R30). -/
def execRdTsel (s : State) : Host.Outcome State Fault Refusal := .next (s.returns s.tselWord)

/-- RD TDATA: 0 while BUSY or out of range, else the entry; a never-written entry returns a free value of the
entry's width (10_state.md R31, U3(b), assumption 9). -/
def execRdTdata (s : State) : Host.Outcome State Fault Refusal :=
  if s.busy then .next (s.returns 0)
  else
    match s.selected with
    | none => .next (s.returns 0)
    | some (t, i) =>
      match s.tables.get t i with
      | some v => .next (s.returns v)
      | none =>
        .next ({ s with draws := s.draws + 1 }.returns
          (((Config.unwrittenRead s.draws).setWidth t.width).setWidth 32))

/-- RD of an unmapped offset returns 0 (10_state.md R22). -/
def execRdUnmapped (_off : BitVec 8) (s : State) : Host.Outcome State Fault Refusal := .next (s.returns 0)

end Sys2Proof.Machine
end

