-- ==== Sys2Proof/Machine/Double.lean ====
section
/-! DEFINITION. The double-resolution engine in the accumulator form of 43_double_res.md R191 (assumption 19). -/

namespace Sys2Proof.Machine

/-- The line start (R180). -/
def drStart (d : Datapath) : Datapath := { d with acc := 0, facc := 0, navail := 0 }

/-- The load of a column: 14 dots and 14 flags above those already there (R191). -/
def drLoad (il : Interleave) (a m : Byte) (d : Datapath) : Datapath :=
  { d with
    acc := d.acc ||| ((colDots il a m).setWidth 32 <<< d.navail)
    facc := d.facc ||| ((colFlags il a m).setWidth 32 <<< d.navail)
    navail := d.navail + 14 }

/-- take(n): the registers after it (R191). -/
def Datapath.take (d : Datapath) (n : Nat) : Datapath :=
  { d with acc := d.acc >>> n, facc := d.facc >>> n, navail := d.navail - n }

/-- The colour of a PAL16 entry. -/
def pal16 (tb : Tables) (n : BitVec 4) : Except Fault Colour := tb.pal16.fetch .pal16 n.toNat

/-- XPAIR of the colours of two nibbles. -/
def nibblePair (tb : Tables) (lo hi : BitVec 4) : Except Fault Word :=
  match pal16 tb lo with
  | .error f => .error f
  | .ok c0 =>
    match pal16 tb hi with
    | .error f => .error f
    | .ok c1 => .ok (xpair c0 c1)

/-- A step of the 140 sub-mode: 8 dots, two colours (R182). -/
def step140 (tb : Tables) (d : Datapath) : Except Fault Word :=
  nibblePair tb (d.acc.extractLsb' 0 4) (d.acc.extractLsb' 4 4)

/-- A step of the 560 sub-mode: 2 dots, one MONO4 entry (R184). -/
def step560 (tb : Tables) (d : Datapath) : Except Fault Word :=
  match tb.mono4.fetch .mono4 (d.acc.extractLsb' 0 2).toNat with
  | .error f => .error f
  | .ok e => .ok (entryPair e)

/-- A colour step of the mixed sub-mode: 4 dots, one colour over 4 slots (R188). -/
def stepMixColour (tb : Tables) (d : Datapath) : Except Fault Word :=
  match pal16 tb (d.acc.extractLsb' 0 4) with
  | .error f => .error f
  | .ok c => .ok (w2 c 1 c 1)

/-- A monochrome step of the mixed sub-mode: 2 dots, background or foreground each (R188). -/
def stepMixMono (tb : Tables) (d : Datapath) : Except Fault Word :=
  match tb.monobw.fetch .monobw (d.acc.extractLsb' 0 1).toNat with
  | .error f => .error f
  | .ok c0 =>
    match tb.monobw.fetch .monobw (d.acc.extractLsb' 1 1).toNat with
    | .error f => .error f
    | .ok c1 => .ok (pair c0 c1)

/-- The colour path of the mixed sub-mode is taken where four dots remain and all their flags are 0 (R188). -/
def mixColour (d : Datapath) : Bool := decide (4 ≤ d.navail) && d.facc.extractLsb' 0 4 == 0

/-- How many dots the next step takes; none where no step is enabled. `last` says that all 40 columns are loaded
(R182, R184, R188, R191). -/
def drTakes (sub : Sub) (last : Bool) (d : Datapath) : Option Nat :=
  match sub with
  | .s140 => if 8 ≤ d.navail then some 8 else none
  | .s560 => if 2 ≤ d.navail then some 2 else none
  | .s160 => none
  | .mix =>
    if 4 ≤ d.navail ∨ (last = true ∧ 2 ≤ d.navail) then some (if mixColour d then 4 else 2) else none

/-- The word the next step emits. The 160 sub-mode takes no step from the accumulators (R186). -/
def drWord (sub : Sub) (tb : Tables) (d : Datapath) : Except Fault Word :=
  match sub with
  | .s140 => step140 tb d
  | .s560 => step560 tb d
  | .s160 => nibblePair tb (d.acc.extractLsb' 0 4) (d.acc.extractLsb' 4 4)
  | .mix => if mixColour d then stepMixColour tb d else stepMixMono tb d

/-- The drain of a column, while a step is enabled and at most `n` steps: the words emitted, and the registers. -/
def drDrain (sub : Sub) (last : Bool) (tb : Tables) : Nat → Datapath → Except Fault (List Word × Datapath)
  | 0, d => .ok ([], d)
  | n + 1, d =>
    match drTakes sub last d with
    | none => .ok ([], d)
    | some k =>
      match drWord sub tb d with
      | .error f => .error f
      | .ok w =>
        match drDrain sub last tb n (d.take k) with
        | .error f => .error f
        | .ok (ws, d') => .ok (w :: ws, d')

/-- The most steps one column drains: NAVAIL is at most 20 in the 140, 14 in the 560 and 16 in the mixed sub-mode
(R191). -/
def maxDrains : Nat := 8

/-- The two words of a 160 column: the AUX byte's nibbles, then the MAIN byte's, low nibble first (R186). -/
def column160 (tb : Tables) (a m : Byte) : Except Fault (List Word) :=
  match nibblePair tb (a.extractLsb' 0 4) (a.extractLsb' 4 4) with
  | .error f => .error f
  | .ok w0 =>
    match nibblePair tb (m.extractLsb' 0 4) (m.extractLsb' 4 4) with
    | .error f => .error f
    | .ok w1 => .ok [w0, w1]

/-- One column of a double-resolution line. -/
def drColumn (p : Params) (tb : Tables) (sub : Sub) (last : Bool) (a m : Byte) (d : Datapath) :
    Except Fault (List Word × Datapath) :=
  match sub with
  | .s160 =>
    match column160 tb a m with
    | .error f => .error f
    | .ok ws => .ok (ws, d)
  | .s140 => drDrain .s140 last tb maxDrains (drLoad p.drInterleave a m d)
  | .s560 => drDrain .s560 last tb maxDrains (drLoad p.drInterleave a m d)
  | .mix => drDrain .mix last tb maxDrains (drLoad p.drInterleave a m d)

end Sys2Proof.Machine
end

