-- ==== Sys2Proof/Machine/Single.lean ====
section
/-! DEFINITION. The colour-artifact LUT engine of the single-resolution decoder (42_single_res.md R161 to R163). -/

namespace Sys2Proof.Machine

/-- The line start: the first byte's 14 dots at the top of ACC, SR_LOOKBACK dots below it (R161; R166 for the
parameter). -/
def srFirst (p : Fin 5) (e : BitVec 14) : BitVec 32 := e.setWidth 32 <<< (18 - p.val)

/-- load(b): the half-dot replication, if bit 7 is set, and the new byte's 14 dots (R162; R166 for the parameter). -/
def srLoad (p : Fin 5) (acc : BitVec 32) (b : Byte) (e : BitVec 14) : BitVec 32 :=
  let acc' := if b.getLsbD 7 then acc ||| ((acc >>> 1) &&& ((1 : BitVec 32) <<< (17 - p.val))) else acc
  acc' ||| (e.setWidth 32 <<< (4 - p.val))

/-- The 9-bit ART index: PHASE, then the top 8 bits of ACC (R163). -/
def artIndex (phase : Bool) (acc : BitVec 32) : BitVec 9 := BitVec.ofBool phase ++ acc.extractLsb' 24 8

/-- drain(), `n` times: the words emitted, ACC and PHASE (R163). -/
def srDrain (art : Ram 24) : Nat → BitVec 32 → Bool → Except Fault (List Word × BitVec 32 × Bool)
  | 0, acc, phase => .ok ([], acc, phase)
  | n + 1, acc, phase =>
    match art.fetch .art (artIndex phase acc).toNat with
    | .error f => .error f
    | .ok e =>
      match srDrain art n (acc <<< 2) (!phase) with
      | .error f => .error f
      | .ok (ws, acc', phase') => .ok (entryPair e :: ws, acc', phase')

/-- One byte of a line after the first: load(b), then drain() seven times (R162, R163). -/
def srColumn (p : Params) (tb : Tables) (b : Byte) (d : Datapath) : Except Fault (List Word × Datapath) :=
  match tb.dot.fetch .dot b.toNat with
  | .error f => .error f
  | .ok e =>
    match srDrain tb.art 7 (srLoad p.srLookback d.acc b e) d.phase with
    | .error f => .error f
    | .ok (ws, acc, phase) => .ok (ws, { d with acc := acc, phase := phase })

/-- The engine at a line's start, from the first byte: ACC and PHASE (R161). -/
def srStart (p : Params) (tb : Tables) (b : Byte) (d : Datapath) : Except Fault Datapath :=
  match tb.dot.fetch .dot b.toNat with
  | .error f => .error f
  | .ok e => .ok { d with acc := srFirst p.srLookback e, phase := false }

end Sys2Proof.Machine
end

