-- ==== Sys2Proof/Machine/Sequencer.lean ====
section
/-! DEFINITION. The command sequencer SEQ: what one of its steps does at each point of a line or frame command, and
its run until the command completes, an agent must answer, or an input lands. -/

namespace Sys2Proof.Machine

/-- The two kinds of command that take more than one SEQ step: one line in a given mode (42_single_res.md R164,
43_double_res.md R190), and a frame of `lines` graphics lines, with or without the text rows (44_frame_control.md
R217, R218). -/
inductive Job where
  | line (l : BitVec 8) (m : Mode)
  | frame (lines : Nat) (text : Bool)
  deriving DecidableEq, Repr

/-- The line being decoded. -/
def Job.lineIndex (job : Job) (s : State) : BitVec 8 :=
  match job with
  | .line l _ => l
  | .frame _ _ => BitVec.ofNat 8 s.lctr

/-- The decoder of the line: the command's own (44_frame_control.md R221), or that of STATUS.MODE in a frame (R216). -/
def Job.lineMode (job : Job) (s : State) : Mode :=
  match job with
  | .line _ m => m
  | .frame _ _ => s.mode

/-! ### One column -/

/-- Column c of a line, from the page FCFG.PAGE2 selects (20_memory.md R61, 40_line_address.md R134). -/
def State.lineByte (s : State) (pl : Plane) (l : BitVec 8) (c : Nat) : Byte :=
  s.gread pl (pageOf s.fcfg) (lineOffset s.params l + BitVec.ofNat 13 c)

/-- The byte the single-resolution engine loads after column c: the next one of MAIN, or after column 39 the virtual
0x00 (42_single_res.md R162). -/
def State.srByte (s : State) (l : BitVec 8) (c : Nat) : Byte :=
  if c + 1 < ncols then s.lineByte .main l (c + 1) else 0

/-- The words of one column of a line, and the engine's registers after it. -/
def State.column (s : State) (l : BitVec 8) (m : Mode) : Except Fault (List Word × Datapath) :=
  match m with
  | .base => srColumn s.params s.tables (s.srByte l s.col) s.dp
  | .dr sub =>
    drColumn s.params s.tables sub (decide (s.col + 1 = ncols)) (s.lineByte .aux l s.col) (s.lineByte .main l s.col) s.dp

/-- The engine at the start of a line. -/
def State.engineStart (s : State) (l : BitVec 8) (m : Mode) : Except Fault Datapath :=
  match m with
  | .base => srStart s.params s.tables (s.lineByte .main l 0) s.dp
  | .dr _ => .ok (drStart s.dp)

/-- The padding of a mode (41_run_words.md R142). -/
def padOf (m : Mode) : List Word :=
  match m with
  | .base => padWords
  | .dr .s140 => padWords
  | .dr .s560 => padWords
  | .dr .s160 => []
  | .dr .mix => padWords

/-! ### The steps -/

/-- A command's first step: a line command asks for its buffer (41_run_words.md R141); a frame command takes its
snapshot and issues PREPARE_FRAME (44_frame_control.md R217, R218). -/
def seqBegin (job : Job) (s : State) : State :=
  match job with
  | .line _ _ => s.request .prepareScanline .lineAck
  | .frame _ _ => s.snapshot.request .prepareFrame .frameAck

/-- The answer to PREPARE_SCANLINE. A capacity below 284 is refused (41_run_words.md R149). -/
def seqTakeBuffer (s : State) : Host.Outcome State Fault Refusal :=
  if s.params.slCap < minCapacity then .refused .smallBuffer else .next s.takeBuffer

/-- The padding and the engine's line start. -/
def seqPad (l : BitVec 8) (m : Mode) (s : State) : Host.Outcome State Fault Refusal :=
  match s.engineStart l m with
  | .error f => .fault f
  | .ok d => .next { s.emits (padOf m) with dp := d, col := 0, draws := s.draws + 1, point := .content }

/-- One column. -/
def seqColumn (l : BitVec 8) (m : Mode) (s : State) : Host.Outcome State Fault Refusal :=
  match s.column l m with
  | .error f => .fault f
  | .ok (ws, d) =>
    .next { s.emits ws with
      dp := d
      col := s.col + 1
      draws := s.draws + 1
      point := if s.col + 1 < ncols then .content else .finalize }

/-- The next `k` columns. -/
def seqColumns (l : BitVec 8) (m : Mode) : Nat → State → Host.Outcome State Fault Refusal
  | 0, s => .next s
  | k + 1, s => andThen (seqColumn l m s) (seqColumns l m k)

/-- The line decoded once more into the held buffer, and finalised. -/
def seqRedecode (l : BitVec 8) (m : Mode) (s : State) : Host.Outcome State Fault Refusal :=
  andThen (seqPad l m s.rewind) fun t => andThen (seqColumns l m ncols t) fun u => .next u.finalizeLine

/-- SUBMIT_SCANLINE. Where GMW has written bytes while lines of this command were decoded, the line is decoded once
more first: the order of a line's reads is not specified (20_memory.md R68), so that each of them may come after every
such write, and draws from all the values (R72, assumption 24). -/
def seqSubmit (l : BitVec 8) (m : Mode) (s : State) : Host.Outcome State Fault Refusal :=
  if s.raced = [] then .next s.submitLine else andThen (seqRedecode l m s) fun t => .next t.submitLine

/-- After a line: a line command is done; a frame command goes to its next line, to the text rows, or is done. -/
def seqLineDone (job : Job) (s : State) : State :=
  match job with
  | .line _ _ => { s with point := .complete }
  | .frame lines text =>
    if s.lctr + 1 < lines then { s with lctr := s.lctr + 1 }.request .prepareScanline .lineAck
    else if text then { s with trow := firstTextRow }.request (.renderTextLine firstTextRow) .textAck
    else { s with point := .complete }

/-- After a text row: the next one, up to row 23 (44_frame_control.md R218). -/
def seqTextDone (s : State) : State :=
  if s.trow < lastTextRow then
    { s with trow := s.trow + 1 }.request (.renderTextLine (s.trow + 1)) .textAck
  else { s with point := .complete }

/-- One step of SEQ. -/
def seqStep (job : Job) (s : State) : Host.Outcome State Fault Refusal :=
  match s.point with
  | .start => .next (seqBegin job s)
  | .frameAck => .next (s.request (.skipLines s.params.vskip) .skipAck)
  | .skipAck => .next ({ s with lctr := 0 }.request .prepareScanline .lineAck)
  | .lineAck => seqTakeBuffer s
  | .pad => seqPad (job.lineIndex s) (job.lineMode s) s
  | .content => seqColumn (job.lineIndex s) (job.lineMode s) s
  | .finalize => .next s.finalizeLine
  | .submit => seqSubmit (job.lineIndex s) (job.lineMode s) s
  | .submitAck => .next (seqLineDone job s)
  | .textAck => .next (seqTextDone s)
  | .complete => .next s.finish

/-! ### The run -/

/-- A frame command has been accepted, and its first step, the snapshot, is still to come. -/
def State.framePending (s : State) : Bool :=
  s.busy && s.point == .start && (s.cmd.extractLsb' 28 4 == 0x5 || s.cmd.extractLsb' 28 4 == 0x6)

/-- SEQ waits for an agent that does not answer (60_exceptions.md R252). -/
def State.waiting (s : State) : Bool :=
  match s.point with
  | .frameAck => !s.drvReady
  | .skipAck => !s.drvReady
  | .lineAck => !s.drvReady
  | .submitAck => !s.drvReady
  | .textAck => !s.txtReady
  | .start => false
  | .pad => false
  | .content => false
  | .finalize => false
  | .submit => false
  | .complete => false

/-- The input is a read of a register a snapshot writes: STATUS (for MODE) or FCFG. -/
def Input.readsSnapshot : Input → Bool
  | .host a => !a.write && (a.offset == 0x04 || a.offset == 0x0C)
  | .gmw _ _ _ _ => false
  | .drv _ => false
  | .txt _ => false
  | .reset => false

/-- The next input has come to its time. A read of FCFG or STATUS during a frame command returns the new snapshot
(70_reset_and_hazards.md R279), so it waits for that command's first step (assumption 3); everything else lands at any
point (R282). -/
def State.inputDue (s : State) : Bool :=
  match s.inputs with
  | [] => false
  | i :: _ => i.after == 0 && !(i.input.readsSnapshot && s.framePending)

/-- SEQ can make a step. -/
def State.runnable (s : State) : Bool := s.busy && !s.waiting

/-- One SEQ step has passed for the next input. -/
def State.tick (s : State) : State :=
  match s.inputs with
  | [] => s
  | i :: r => { s with inputs := { i with after := i.after - 1 } :: r }

/-- SEQ's run: at most `n` steps, until the command has completed, an agent must answer, or an input is due. -/
def runSeq (job : Job) : Nat → State → Host.Outcome State Fault Refusal
  | 0, s => .next s
  | n + 1, s =>
    if s.runnable && !s.inputDue then
      match seqStep job s with
      | .next t => runSeq job n t.tick
      | .fault f => .fault f
      | .refused r => .refused r
    else .next s

end Sys2Proof.Machine
end

