-- ==== Sys2Proof/Machine/Commands.lean ====
section
/-! DEFINITION. The meanings of the ten command words, as SEQ performs them from CMD once WR CMD has accepted them
(44_frame_control.md R210). -/

namespace Sys2Proof.Machine

/-- A bound on the SEQ steps of one line command; it takes 47 (70_reset_and_hazards.md R276). -/
def lineFuel : Nat := 64

/-- A bound on the SEQ steps of one frame command; FFULL takes 8644 (70_reset_and_hazards.md R276). -/
def frameFuel : Nat := 9216

/-- NOP (44_frame_control.md R212). -/
def execNop (s : State) : Host.Outcome State Fault Refusal := .next s.finish

/-- FSTART: snapshot(); complete() (44_frame_control.md R215). -/
def execFstart (s : State) : Host.Outcome State Fault Refusal := .next s.snapshot.finish

/-- LADDR: RESULT.OFFSET <- line_offset(L); complete() (40_line_address.md R132). -/
def execLaddr (l : BitVec 8) (s : State) : Host.Outcome State Fault Refusal :=
  .next { s with result := lineOffset s.params l }.finish

/-- DSR: decode_sr(L); complete(), whatever STATUS.MODE (42_single_res.md R160, R164). -/
def execDsr (l : BitVec 8) (s : State) : Host.Outcome State Fault Refusal :=
  runSeq (.line l .base) lineFuel s

/-- DDR.140: decode_dr(L, 0b00); complete() (43_double_res.md R182, R190). -/
def execDdr140 (l : BitVec 8) (s : State) : Host.Outcome State Fault Refusal :=
  runSeq (.line l (.dr .s140)) lineFuel s

/-- DDR.560: decode_dr(L, 0b01); complete() (43_double_res.md R184, R190). -/
def execDdr560 (l : BitVec 8) (s : State) : Host.Outcome State Fault Refusal :=
  runSeq (.line l (.dr .s560)) lineFuel s

/-- DDR.160: decode_dr(L, 0b10); complete() (43_double_res.md R186, R190). -/
def execDdr160 (l : BitVec 8) (s : State) : Host.Outcome State Fault Refusal :=
  runSeq (.line l (.dr .s160)) lineFuel s

/-- DDR.MIX: decode_dr(L, 0b11); complete() (43_double_res.md R188, R190). -/
def execDdrMix (l : BitVec 8) (s : State) : Host.Outcome State Fault Refusal :=
  runSeq (.line l (.dr .mix)) lineFuel s

/-- FFULL: 192 graphics lines (44_frame_control.md R217). -/
def execFfull (s : State) : Host.Outcome State Fault Refusal := runSeq (.frame nlines false) frameFuel s

/-- FMIXED: 160 graphics lines and the text rows 20 to 23 (44_frame_control.md R218). -/
def execFmixed (s : State) : Host.Outcome State Fault Refusal := runSeq (.frame mixedGfxLines true) frameFuel s

end Sys2Proof.Machine
end

