-- ==== Sys2Proof/Machine/Dispatch.lean ====
section
/-! DEFINITION. The dispatch: one arm per instruction, each one direct call of its meaning. -/

namespace Sys2Proof.Machine

def exec (i : Instr) (s : State) : Host.Outcome State Fault Refusal :=
  match i with
  | .nop => Sys2Proof.Machine.execNop s
  | .fstart => Sys2Proof.Machine.execFstart s
  | .laddr l => Sys2Proof.Machine.execLaddr l s
  | .dsr l => Sys2Proof.Machine.execDsr l s
  | .ddr140 l => Sys2Proof.Machine.execDdr140 l s
  | .ddr560 l => Sys2Proof.Machine.execDdr560 l s
  | .ddr160 l => Sys2Proof.Machine.execDdr160 l s
  | .ddrMix l => Sys2Proof.Machine.execDdrMix l s
  | .ffull => Sys2Proof.Machine.execFfull s
  | .fmixed => Sys2Proof.Machine.execFmixed s
  | .wrCmd v => Sys2Proof.Machine.execWrCmd v s
  | .wrStatus v => Sys2Proof.Machine.execWrStatus v s
  | .wrCfg v => Sys2Proof.Machine.execWrCfg v s
  | .wrTsel v => Sys2Proof.Machine.execWrTsel v s
  | .wrTdata v => Sys2Proof.Machine.execWrTdata v s
  | .rdTdata => Sys2Proof.Machine.execRdTdata s
  | .rdCmd => Sys2Proof.Machine.execRdCmd s
  | .rdStatus => Sys2Proof.Machine.execRdStatus s
  | .rdCfg => Sys2Proof.Machine.execRdCfg s
  | .rdFcfg => Sys2Proof.Machine.execRdFcfg s
  | .rdResult => Sys2Proof.Machine.execRdResult s
  | .rdTsel => Sys2Proof.Machine.execRdTsel s
  | .wrFcfg v => Sys2Proof.Machine.execWrFcfg v s
  | .wrResult v => Sys2Proof.Machine.execWrResult v s
  | .rdUnmapped off => Sys2Proof.Machine.execRdUnmapped off s
  | .wrUnmapped off v => Sys2Proof.Machine.execWrUnmapped off v s

end Sys2Proof.Machine
end

