-- ==== Sys2Proof/Machine/Inputs.lean ====
section
/-! DEFINITION. What the inputs that are no instructions do, and when the next input is delivered. -/

namespace Sys2Proof.Machine

/-- The reset input (70_reset_and_hazards.md R260, R262): the block goes to its reset state; the page views and the
agents are outside it and stay (R263), but DRV's state is unspecified where a command was abandoned (U6, assumption
12). The inputs still to arrive and the last read's word are the outside world's too (assumption 25). -/
def State.afterReset (s : State) : State :=
  { State.reset with
    params := s.params
    mem := s.mem
    drvReady := if s.busy then Config.driverAfterReset s.draws else s.drvReady
    txtReady := s.txtReady
    inputs := s.inputs
    rdata := s.rdata
    draws := s.draws + 1 }

/-- The input to deliver now, and the state without it: the first of the list, if it is due, or if SEQ cannot step
(assumption 1). -/
def State.nextInput (s : State) : Option (Input × State) :=
  match s.inputs with
  | [] => none
  | i :: r => if s.inputDue || !s.runnable then some (i.input, { s with inputs := r }) else none

/-- The host system is stuck: SEQ waits for an agent that does not answer, and nothing is to come that could make it
(60_exceptions.md R252, 70_reset_and_hazards.md R273, U8). No fault of the SLD: the step goes on answering this state. -/
def State.stuck (s : State) : Bool := s.busy && s.waiting && s.inputs.isEmpty

end Sys2Proof.Machine
end

