-- ==== Sys2Proof/Machine/Step.lean ====
section
/-! DEFINITION. One step of the machine: the next input, if it is due, else SEQ's turn. -/

namespace Sys2Proof.Machine

/-- Delivers an input. A host access is decoded and executed; one outside the defined interface is refused
(20_memory.md R66). -/
def deliver (x : Input) (s : State) : Host.Outcome State Fault Refusal :=
  match x with
  | .host a =>
    match decodeAccess a with
    | .ok i => exec i s
    | .error e => .refused (.undefinedAccess e)
  | .gmw pl pg off v => .next (s.gmwWrite pl pg off v)
  | .drv r => .next { s with drvReady := r }
  | .txt r => .next { s with txtReady := r }
  | .reset => .next s.afterReset

/-- SEQ's turn: the command in CMD is decoded and executed from where it stands; IDLE, it does nothing
(60_exceptions.md R255). -/
def seqTurn (s : State) : Host.Outcome State Fault Refusal :=
  match s.seqState with
  | .idle => .next s
  | .busy =>
    match decodeCommand s.cmd with
    | .ok i => exec i s
    | .error e => .refused (.notACommand e)

/-- One step (00_scope.md R11, 70_reset_and_hazards.md R282). -/
def step (s : State) : Host.Outcome State Fault Refusal :=
  match s.nextInput with
  | some (x, t) => deliver x t
  | none => seqTurn s

/-- The state in which the very next step runs the instruction a table word stands for (assumption 18). A command
word is put into CMD as accepted, with no input before it; a bus access is put first among the inputs, due now (a bus
row's word is a write, which no snapshot holds back). -/
def State.withFetchWord (s : State) (nbits w : Nat) : State :=
  match Fetch.ofTableWord nbits w with
  | some (.command c) => { s with cmd := c, seqState := .busy, point := .start, issueCfg := s.cfg, inputs := [] }
  | some (.access a) => { s with inputs := { after := 0, input := .host a } :: s.inputs }
  | none => s

end Sys2Proof.Machine
end

