-- ==== Sys2Proof/Machine/HostOps.lean ====
section
/-! DEFINITION. The host's side of the bus: the assembler's statements and pseudo-instructions (30_encoding.md R97,
R98) as bus accesses, and the host's own run of them, WAIT included, which has no encoding. -/

namespace Sys2Proof.Machine

/-- WR reg, v. -/
def hostWrite (off : BitVec 8) (v : Word) : BusAccess := { write := true, offset := off, bytes := 4, data := v }

/-- RD reg. -/
def hostRead (off : BitVec 8) : BusAccess := { write := false, offset := off, bytes := 4, data := 0 }

/-- The bus accesses of a statement: a command statement is WR CMD of its word. -/
def statement (i : Instr) : BusAccess :=
  match encode i with
  | .command w => hostWrite 0x00 w
  | .access a => a

/-- TLOAD t, i, v. -/
def tload (t i v : Word) : List BusAccess := [hostWrite 0x14 (t <<< 16 ||| i), hostWrite 0x18 v]

/-- SETCFG v. -/
def setcfg (v : Word) : List BusAccess := [hostWrite 0x08 v]

/-- CLRST. -/
def clrst : List BusAccess := [hostWrite 0x04 0x00000006]

/-- Accesses as inputs, back to back: each is due as soon as the one before it has been made. No WAIT stands between
them. -/
def asInputs (as : List BusAccess) : List TimedInput := as.map fun a => { after := 0, input := .host a }

/-! ### The host's run: WAIT, ISSUE and programs (30_encoding.md R98, 70_reset_and_hazards.md R273) -/

/-- The host's next access, made before anything that is still to come. A read that must wait for a snapshot is made
after SEQ's step that takes it (70_reset_and_hazards.md R279). -/
def hostAccess (a : BusAccess) (s : State) : Host.Outcome State Fault Refusal :=
  let t := { s with inputs := { after := 0, input := .host a } :: s.inputs }
  if t.inputDue then step t else andThen (step t) step

/-- What becomes of a host program. -/
inductive HostReport where
  /-- It has ended, in this state. -/
  | ended (s : State)
  /-- A WAIT never ends, because an agent never answers (70_reset_and_hazards.md R273). -/
  | stuck (s : State)
  /-- A WAIT has polled as often as it was given, and BUSY is still 1. -/
  | running (s : State)
  /-- The machine has stopped with a fault. -/
  | fault (f : Fault)
  /-- The machine has refused. -/
  | refused (r : Refusal)
  deriving DecidableEq, Repr

/-- WAIT: RD STATUS until BUSY reads 0, at most `n` polls, with a step of the machine after each. -/
def wait : Nat → State → HostReport
  | 0, s => .running s
  | n + 1, s =>
    match hostAccess (hostRead 0x04) s with
    | .fault f => .fault f
    | .refused r => .refused r
    | .next t =>
      if t.rdata.getLsbD 0 = false then .ended t
      else if t.stuck = true then .stuck t
      else
        match step t with
        | .next u => wait n u
        | .fault f => .fault f
        | .refused r => .refused r

/-- A statement of a host program. -/
inductive HostStatement where
  | access (a : BusAccess)
  | wait
  deriving DecidableEq, Repr

/-- ISSUE cmd. -/
def issue (i : Instr) : List HostStatement := [.access (statement i), .wait]

/-- A host program, each WAIT of at most `n` polls. -/
def runHost (n : Nat) : List HostStatement → State → HostReport
  | [], s => .ended s
  | .access a :: r, s =>
    match hostAccess a s with
    | .next t => runHost n r t
    | .fault f => .fault f
    | .refused q => .refused q
  | .wait :: r, s =>
    match wait n s with
    | .ended t => runHost n r t
    | .stuck t => .stuck t
    | .running t => .running t
    | .fault f => .fault f
    | .refused q => .refused q

end Sys2Proof.Machine
end

