-- ==== Sys2Proof/Machine/ClosedForm.lean ====
section
/-! DEFINITION. The spec's closed forms, which statements compare the machine with and no step calls: the dot
streams D, S and F, the content words as functions of them, slot counts and slot colours, and a line's buffer. -/

namespace Sys2Proof.Machine

/-! ### Slots (30_encoding.md R113, 41_run_words.md R150) -/

/-- slots(w). -/
def slots (w : Word) : Nat :=
  if w.getLsbD 15 then 0 else (1 + (w.extractLsb' 12 3).toNat) + (1 + (w.extractLsb' 28 3).toNat)

/-- The emitted width of a list of words. -/
def totalSlots (ws : List Word) : Nat := (ws.map slots).sum

/-- The colours of one word, one per output slot. -/
def wordColours (w : Word) : List Colour :=
  if w.getLsbD 15 then []
  else
    List.replicate (1 + (w.extractLsb' 12 3).toNat) (w.extractLsb' 0 12)
      ++ List.replicate (1 + (w.extractLsb' 28 3).toNat) (w.extractLsb' 16 12)

/-- slot_colours(words). -/
def slotColours (ws : List Word) : List Colour := ws.flatMap wordColours

/-! ### Loaded tables -/

/-- The first `n` entries are written (10_state.md R41). -/
def Ram.loaded {w : Nat} (n : Nat) (r : Ram w) : Bool := (List.range n).all fun i => (r.get i).isSome

/-- The tables a line of a mode may read are loaded (70_reset_and_hazards.md R265). -/
def Tables.loadedFor (tb : Tables) : Mode → Bool
  | .base => Ram.loaded 256 tb.dot && Ram.loaded 512 tb.art
  | .dr .s140 => Ram.loaded 16 tb.pal16
  | .dr .s560 => Ram.loaded 4 tb.mono4
  | .dr .s160 => Ram.loaded 16 tb.pal16
  | .dr .mix => Ram.loaded 16 tb.pal16 && Ram.loaded 2 tb.monobw

/-- Every table a command may read is loaded (70_reset_and_hazards.md R265). -/
def Tables.loaded (tb : Tables) : Bool :=
  Ram.loaded 256 tb.dot && Ram.loaded 512 tb.art && Ram.loaded 16 tb.pal16 && Ram.loaded 4 tb.mono4
    && Ram.loaded 2 tb.monobw

/-- The entry at an index; 0 stands where none is written, and no statement reads one. -/
def Ram.at {w : Nat} (r : Ram w) (i : Nat) : BitVec w := (r.get i).getD 0

/-! ### Single resolution (42_single_res.md R165) -/

/-- dots14(v)[i]: the dots of a DOT entry, the most significant bit first (00_scope.md R9). -/
def dots14 (v : BitVec 14) (i : Nat) : Bool := decide (i < 14) && v.getLsbD (13 - i)

/-- E_k[i], for the bytes `b` of a line, with the half-dot replication of bytes 1 to 39. -/
def srDots (tb : Tables) (b : Nat → Byte) (k i : Nat) : Bool :=
  dots14 (tb.dot.at (b k).toNat) i
    || (decide (i = 0) && decide (1 ≤ k) && (b k).getLsbD 7 && dots14 (tb.dot.at (b (k - 1)).toNat) 13)

/-- D[i], with `p` dots of look-back; an index past the end reads 0 (R9). The byte b_40 is 0x00. -/
def srStream (p : Nat) (tb : Tables) (b : Nat → Byte) (i : Nat) : Bool :=
  decide (p ≤ i) && decide ((i - p) / 14 ≤ 40) && srDots tb b ((i - p) / 14) ((i - p) % 14)

/-- window_j: the 8 dots from D[2j], the first in bit 7. -/
def srWindow (d : Nat → Bool) (j : Nat) : BitVec 8 :=
  BitVec.ofBool (d (2 * j)) ++ BitVec.ofBool (d (2 * j + 1)) ++ BitVec.ofBool (d (2 * j + 2))
    ++ BitVec.ofBool (d (2 * j + 3)) ++ BitVec.ofBool (d (2 * j + 4)) ++ BitVec.ofBool (d (2 * j + 5))
    ++ BitVec.ofBool (d (2 * j + 6)) ++ BitVec.ofBool (d (2 * j + 7))

/-- The ART index of word j: the phase j mod 2, then window_j. -/
def srIndex (d : Nat → Bool) (j : Nat) : Nat := (BitVec.ofBool (j % 2 == 1) ++ srWindow d j).toNat

/-- word_j. -/
def srWord (tb : Tables) (d : Nat → Bool) (j : Nat) : Word := entryPair (tb.art.at (srIndex d j))

/-- The 280 content words of a single-resolution line. -/
def srContent (p : Nat) (tb : Tables) (b : Nat → Byte) : List Word :=
  (List.range 280).map (srWord tb (srStream p tb b))

/-! ### Double resolution (43_double_res.md R181 to R188) -/

/-- S[x], for the AUX bytes `a` and the MAIN bytes `m` of a line (R181; R-ALT1 for BIT). -/
def drDot (il : Interleave) (a m : Nat → Byte) (x : Nat) : Bool :=
  match il with
  | .group => if x % 14 < 7 then (a (x / 14)).getLsbD (x % 14) else (m (x / 14)).getLsbD (x % 14 - 7)
  | .bit => if x % 2 = 0 then (a (x / 14)).getLsbD (x % 14 / 2) else (m (x / 14)).getLsbD (x % 14 / 2)

/-- F[x] (R181; R-ALT1 for BIT). -/
def drFlag (il : Interleave) (a m : Nat → Byte) (x : Nat) : Bool :=
  match il with
  | .group => if x % 14 < 7 then (a (x / 14)).getLsbD 7 else (m (x / 14)).getLsbD 7
  | .bit => if x % 2 = 0 then (a (x / 14)).getLsbD 7 else (m (x / 14)).getLsbD 7

/-- The value of four dots, the earliest in bit 0. -/
def nibbleAt (s : Nat → Bool) (x : Nat) : Nat :=
  (s x).toNat + 2 * (s (x + 1)).toNat + 4 * (s (x + 2)).toNat + 8 * (s (x + 3)).toNat

/-- The value of two dots, the earlier in bit 0. -/
def dotPairAt (s : Nat → Bool) (x : Nat) : Nat := (s x).toNat + 2 * (s (x + 1)).toNat

/-- content_140 (R182). -/
def content140 (tb : Tables) (s : Nat → Bool) : List Word :=
  (List.range 70).map fun k =>
    xpair (tb.pal16.at (nibbleAt s (4 * (2 * k)))) (tb.pal16.at (nibbleAt s (4 * (2 * k + 1))))

/-- content_560 (R184). -/
def content560 (tb : Tables) (s : Nat → Bool) : List Word :=
  (List.range 280).map fun i => entryPair (tb.mono4.at (dotPairAt s (2 * i)))

/-- XPAIR of a byte's two nibbles, the low one first (R186). -/
def byteWord (tb : Tables) (b : Byte) : Word :=
  xpair (tb.pal16.at (b.extractLsb' 0 4).toNat) (tb.pal16.at (b.extractLsb' 4 4).toNat)

/-- content_160 (R186). -/
def content160 (tb : Tables) (a m : Nat → Byte) : List Word :=
  (List.range 40).flatMap fun c => [byteWord tb (a c), byteWord tb (m c)]

/-- The colour path is taken at dot x (R188). -/
def mixColourAt (f : Nat → Bool) (x : Nat) : Bool :=
  decide (x + 4 ≤ 560) && !f x && !f (x + 1) && !f (x + 2) && !f (x + 3)

/-- content_mix from dot x on, at most `n` steps (R188). -/
def mixFrom (tb : Tables) (s f : Nat → Bool) : Nat → Nat → List Word
  | 0, _ => []
  | n + 1, x =>
    if 560 ≤ x then []
    else if mixColourAt f x then
      w2 (tb.pal16.at (nibbleAt s x)) 1 (tb.pal16.at (nibbleAt s x)) 1 :: mixFrom tb s f n (x + 4)
    else pair (tb.monobw.at (s x).toNat) (tb.monobw.at (s (x + 1)).toNat) :: mixFrom tb s f n (x + 2)

/-- content_mix: at most 280 steps (R188, R193). -/
def contentMix (tb : Tables) (s f : Nat → Bool) : List Word := mixFrom tb s f 280 0

/-! ### A line (41_run_words.md R141 to R146) -/

/-- The content words of a line in a mode, of the AUX bytes `a` and the MAIN bytes `m`. -/
def lineContent (p : Params) (tb : Tables) (m : Mode) (a b : Nat → Byte) : List Word :=
  match m with
  | .base => srContent p.srLookback.val tb fun k => if k < 40 then b k else 0
  | .dr .s140 => content140 tb (drDot p.drInterleave a b)
  | .dr .s560 => content560 tb (drDot p.drInterleave a b)
  | .dr .s160 => content160 tb a b
  | .dr .mix => contentMix tb (drDot p.drInterleave a b) (drFlag p.drInterleave a b)

/-- The buffer of a line with given content: padding, content, and the finalisation. -/
def lineBuffer (fcfg : BitVec 7) (m : Mode) (content : List Word) : Buffer :=
  { data := padOf m ++ content ++ tailWords fcfg
    length := (padOf m ++ content ++ tailWords fcfg).length
    repeatCount := repeatOf fcfg }

/-- The byte of column c of a line, as the page view holds it, where no GMW write races (20_memory.md R72). -/
def memByte (s : State) (fcfg : BitVec 7) (pl : Plane) (l : BitVec 8) (c : Nat) : Byte :=
  s.mem.read (pageAddr pl (pageOf fcfg) (lineOffset s.params l + BitVec.ofNat 13 c))

/-- The buffer of line l in a mode, by the closed forms, for the configuration snapshot `fcfg`. -/
def expectedBuffer (s : State) (fcfg : BitVec 7) (m : Mode) (l : BitVec 8) : Buffer :=
  lineBuffer fcfg m (lineContent s.params s.tables m (memByte s fcfg .aux l) (memByte s fcfg .main l))

/-- The requests of `n` lines from line 0 (44_frame_control.md R217, R218). -/
def expectedLines (s : State) (fcfg : BitVec 7) (m : Mode) (n : Nat) : List Request :=
  (List.range n).flatMap fun l =>
    [Request.prepareScanline, .submitScanline (expectedBuffer s fcfg m (BitVec.ofNat 8 l))]

/-! ### The table entries a line reads (70_reset_and_hazards.md R265), in the reference order of 20_memory.md R68 -/

/-- The first of some table entries that has never been written (10_state.md R41). -/
def Tables.firstUnwritten (tb : Tables) (l : List (TableId × Nat)) : Option (TableId × Nat) :=
  l.find? fun e => (tb.get e.1 e.2).isNone

/-- DSR: DOT of the first byte, and then of each next one (the last is the virtual 0x00), each before the seven ART
entries of the windows it completes (42_single_res.md R161 to R165). -/
def srReads (p : Nat) (tb : Tables) (b : Nat → Byte) : List (TableId × Nat) :=
  (.dot, (b 0).toNat) :: (List.range 40).flatMap fun c =>
    (.dot, (b (c + 1)).toNat) :: (List.range' (7 * c) 7).map fun j => (.art, srIndex (srStream p tb b) j)

/-- DDR.140: PAL16 of each four dots (43_double_res.md R182). -/
def reads140 (s : Nat → Bool) : List (TableId × Nat) :=
  (List.range 70).flatMap fun k => [(.pal16, nibbleAt s (4 * (2 * k))), (.pal16, nibbleAt s (4 * (2 * k + 1)))]

/-- DDR.560: MONO4 of each two dots (R184). -/
def reads560 (s : Nat → Bool) : List (TableId × Nat) :=
  (List.range 280).flatMap fun i => [(.mono4, dotPairAt s (2 * i))]

/-- PAL16 of a byte's two nibbles, the low one first (R186). -/
def byteReads (b : Byte) : List (TableId × Nat) :=
  [(.pal16, (b.extractLsb' 0 4).toNat), (.pal16, (b.extractLsb' 4 4).toNat)]

/-- DDR.160: PAL16 of each nibble of each byte (R186). -/
def reads160 (a m : Nat → Byte) : List (TableId × Nat) :=
  (List.range 40).flatMap fun c => byteReads (a c) ++ byteReads (m c)

/-- DDR.MIX from dot x on, at most `n` steps: PAL16 of four dots, or MONOBW of each of two (R188). -/
def mixReadsFrom (s f : Nat → Bool) : Nat → Nat → List (TableId × Nat)
  | 0, _ => []
  | n + 1, x =>
    if 560 ≤ x then []
    else if mixColourAt f x then (.pal16, nibbleAt s x) :: mixReadsFrom s f n (x + 4)
    else (.monobw, (s x).toNat) :: (.monobw, (s (x + 1)).toNat) :: mixReadsFrom s f n (x + 2)

/-- The entries a line reads in a mode, for the AUX bytes `a` and the MAIN bytes `b`. -/
def lineReads (p : Params) (tb : Tables) (m : Mode) (a b : Nat → Byte) : List (TableId × Nat) :=
  match m with
  | .base => srReads p.srLookback.val tb fun k => if k < 40 then b k else 0
  | .dr .s140 => reads140 (drDot p.drInterleave a b)
  | .dr .s560 => reads560 (drDot p.drInterleave a b)
  | .dr .s160 => reads160 a b
  | .dr .mix => mixReadsFrom (drDot p.drInterleave a b) (drFlag p.drInterleave a b) 280 0

/-! ### What a command has still to do, from where it starts or waits (44_frame_control.md R217, R218) -/

/-- The line LCTR stands for. -/
def Job.lineAt (job : Job) (lctr : Nat) : BitVec 8 :=
  match job with
  | .line l _ => l
  | .frame _ _ => BitVec.ofNat 8 lctr

/-- The values LCTR takes after this one. -/
def Job.linesAfter (job : Job) (lctr : Nat) : List Nat :=
  match job with
  | .line _ _ => []
  | .frame lines _ => List.range' (lctr + 1) (lines - (lctr + 1))

/-- The text rows it asks for. -/
def Job.rows (job : Job) : List Nat :=
  match job with
  | .line _ _ => []
  | .frame _ text => if text then [20, 21, 22, 23] else []

/-- The lines to decode, by LCTR. -/
def Job.linesToCome (job : Job) (s : State) : List Nat :=
  match s.point with
  | .start => 0 :: job.linesAfter 0
  | .frameAck => 0 :: job.linesAfter 0
  | .skipAck => 0 :: job.linesAfter 0
  | .lineAck => s.lctr :: job.linesAfter s.lctr
  | .submitAck => job.linesAfter s.lctr
  | _ => []

/-- The table entries one of its lines reads. -/
def Job.readsOf (job : Job) (s : State) (lctr : Nat) : List (TableId × Nat) :=
  lineReads s.params s.tables (job.lineMode s) (memByte s s.fcfg .aux (job.lineAt lctr))
    (memByte s s.fcfg .main (job.lineAt lctr))

/-- The submission of one of its lines. -/
def Job.submits (job : Job) (s : State) (lctr : Nat) : Request :=
  .submitScanline (expectedBuffer s s.fcfg (job.lineMode s) (job.lineAt lctr))

/-- The table entries the lines to decode read, in order. -/
def Job.readsToCome (job : Job) (s : State) : List (TableId × Nat) := (job.linesToCome s).flatMap (job.readsOf s)

/-- The requests of the lines to decode. -/
def Job.lineRequests (job : Job) (s : State) : List Request :=
  (job.linesToCome s).flatMap fun k => [.prepareScanline, job.submits s k]

/-- A command about to start, its snapshot taken. -/
def Job.begun (job : Job) (s : State) : State :=
  match job with
  | .line _ _ => s
  | .frame _ _ => s.snapshot

/-- The requests a frame command begins with. -/
def Job.frameRequests (job : Job) (s : State) : List Request :=
  match job with
  | .line _ _ => []
  | .frame _ _ => [.prepareFrame, .skipLines s.params.vskip]

/-- The requests to issue. Where DRV's buffer is awaited, the first PREPARE_SCANLINE has been issued. -/
def Job.requestsToCome (job : Job) (s : State) : List Request :=
  match s.point with
  | .start => job.frameRequests s ++ job.lineRequests s ++ job.rows.map .renderTextLine
  | .frameAck => .skipLines s.params.vskip :: job.lineRequests s ++ job.rows.map .renderTextLine
  | .skipAck => job.lineRequests s ++ job.rows.map .renderTextLine
  | .lineAck => (job.lineRequests s).tail ++ job.rows.map .renderTextLine
  | .submitAck => job.lineRequests s ++ job.rows.map .renderTextLine
  | .textAck => (List.range' (s.trow + 1) (lastTextRow - s.trow)).map .renderTextLine
  | _ => []

end Sys2Proof.Machine
end

