-- ==== Sys2Proof/Safety.lean ====
section
/-! DEFINITION. The invariant of the machine, and what counts as a safe run. -/

namespace Sys2Proof.Machine

/-- The line or frame an instruction sets SEQ to, if it takes more than one SEQ step. -/
def Job.ofInstr : Instr → Option Job
  | .dsr l => some (.line l .base)
  | .ddr140 l => some (.line l (.dr .s140))
  | .ddr560 l => some (.line l (.dr .s560))
  | .ddr160 l => some (.line l (.dr .s160))
  | .ddrMix l => some (.line l (.dr .mix))
  | .ffull => some (.frame nlines false)
  | .fmixed => some (.frame mixedGfxLines true)
  | _ => none

/-- The points at which a buffer is held (10_state.md R55). -/
def Point.holds : Point → Bool
  | .pad => true
  | .content => true
  | .finalize => true
  | .submit => true
  | _ => false

/-- The points only a frame command reaches. -/
def Point.ofFrame : Point → Bool
  | .frameAck => true
  | .skipAck => true
  | .textAck => true
  | _ => false

/-- What a recorded request satisfies: a submitted buffer's length counts its words and its repeat_count is 0 or 1
(41_run_words.md R146), and only the text rows 20 to 23 are asked for (44_frame_control.md R220). -/
def Request.wf : Request → Prop
  | .submitScanline b => b.length = b.data.length ∧ b.repeatCount ≤ 1
  | .renderTextLine r => firstTextRow ≤ r ∧ r ≤ lastTextRow
  | .prepareFrame => True
  | .skipLines _ => True
  | .prepareScanline => True

/-- The command in CMD, while SEQ is BUSY, is one it accepted, and stands at a point of its own rule. -/
def State.commandFits (s : State) : Prop :=
  ∃ i, decodeCommand s.cmd = .ok i ∧
    match Job.ofInstr i with
    | none => s.point = .start
    | some (.line _ _) => s.point.ofFrame = false
    | some (.frame _ text) => text = true ∨ s.point ≠ .textAck

/-- The invariant every step keeps. -/
structure State.Inv (s : State) : Prop where
  /-- The page views are in canonical form. -/
  mem : s.mem.wf = true
  /-- The written entries of every table are in canonical form and in range (10_state.md R31). -/
  tables : s.tables.wf = true
  /-- MODE is written only together with FCFG (10_state.md R27). -/
  mode : s.mode = deriveMode s.fcfg
  /-- ERRCODE is NONE exactly while ERR is 0 (10_state.md R24). -/
  errcode : s.errcode = .none ↔ s.err = false
  /-- RESULT holds no more than the largest line offset (40_line_address.md R132). -/
  result : s.result.toNat ≤ 8144
  /-- DONE is cleared at acceptance and set at completion (10_state.md R24). -/
  busyNotDone : s.seqState = .busy → s.done = false
  /-- While BUSY, CMD holds the accepted command (10_state.md R23). -/
  busyCommand : s.seqState = .busy → s.commandFits
  /-- A buffer is held exactly between PREPARE_SCANLINE's answer and SUBMIT_SCANLINE (60_exceptions.md R252). -/
  held : s.held.isSome = true ↔ s.seqState = .busy ∧ s.point.holds = true
  /-- WIDX counts the words written (41_run_words.md R140). -/
  widx : ∀ b ∈ s.held, b.data.length = s.widx
  /-- Before the submission, length and repeat_count are final (20_memory.md R70). -/
  final : ∀ b ∈ s.held, s.point = .submit → b.length = s.widx ∧ b.repeatCount ≤ 1
  /-- Every byte whose reads are draws has a recorded earlier value (20_memory.md R72). -/
  raced : ∀ a ∈ s.raced, s.staleAt a ≠ []
  /-- LCTR stays below 192 (10_state.md R52). -/
  lctr : s.lctr < nlines
  /-- COL stays below 40 inside the columns (10_state.md R52). -/
  col : s.seqState = .busy → s.point = .content → s.col < ncols
  /-- The text-row counter stays in 20 to 23 (10_state.md R52). -/
  trow : s.seqState = .busy → s.point = .textAck → firstTextRow ≤ s.trow ∧ s.trow ≤ lastTextRow
  /-- Every recorded request is well formed. -/
  out : ∀ r ∈ s.out, r.wf

/-- An input that is neither a reset nor an access outside the defined interface (20_memory.md R66). -/
def Input.tame : Input → Bool
  | .host a => a.bytes == 4 && a.offset.extractLsb' 0 2 == 0
  | .gmw _ _ _ _ => true
  | .drv _ => true
  | .txt _ => true
  | .reset => false

/-- The boot requirements of 70_reset_and_hazards.md R264, steps 1 and 4: the tables are loaded and DRV's buffers
are large enough. -/
def State.booted (s : State) : Prop := s.tables.loaded = true ∧ minCapacity ≤ s.params.slCap

/-- A command has been accepted and has done nothing yet, no input is to come, no GMW write has raced a decode, DRV
answers, and its buffers are large enough: where a line or frame command runs through in one step. -/
structure State.Poised (s : State) : Prop where
  busy : s.seqState = .busy
  start : s.point = .start
  inputs : s.inputs = []
  raced : s.raced = []
  drv : s.drvReady = true
  cap : minCapacity ≤ s.params.slCap

/-- A line or frame command stands where it has waited for an agent, and nothing disturbs it now: no input is to come, no
GMW write has raced a decode, and DRV answers with large enough buffers. -/
structure State.Resumed (s : State) : Prop where
  busy : s.seqState = .busy
  waited : s.point ∈ [Point.frameAck, .skipAck, .lineAck, .submitAck, .textAck]
  inputs : s.inputs = []
  raced : s.raced = []
  drv : s.drvReady = true
  cap : minCapacity ≤ s.params.slCap

/-- TXT answers, if the command has still to ask it or waits for it. -/
def State.textServed (s : State) (job : Job) : Prop := job.rows ≠ [] ∨ s.point = .textAck → s.txtReady = true

/-- The registers and stores no line command changes: everything but OUT, DONE, SEQ and the hidden datapath. -/
structure State.SameSettings (s t : State) : Prop where
  params : t.params = s.params
  cmd : t.cmd = s.cmd
  err : t.err = s.err
  errcode : t.errcode = s.errcode
  cfg : t.cfg = s.cfg
  issueCfg : t.issueCfg = s.issueCfg
  result : t.result = s.result
  tselTable : t.tselTable = s.tselTable
  tselIndex : t.tselIndex = s.tselIndex
  tables : t.tables = s.tables
  mem : ∀ a, t.mem.read a = s.mem.read a
  stale : t.stale = s.stale
  raced : t.raced = s.raced
  drvReady : t.drvReady = s.drvReady
  txtReady : t.txtReady = s.txtReady
  rdata : t.rdata = s.rdata

/-- Applies a function to the next state of an outcome. -/
def mapNext (f : State → State) : Host.Outcome State Fault Refusal → Host.Outcome State Fault Refusal
  | .next t => .next (f t)
  | .fault e => .fault e
  | .refused r => .refused r

/-- The tables a line of a mode may read (70_reset_and_hazards.md R265). -/
def tablesOf : Mode → List TableId
  | .base => [.dot, .art]
  | .dr .s140 => [.pal16]
  | .dr .s560 => [.mono4]
  | .dr .s160 => [.pal16]
  | .dr .mix => [.pal16, .monobw]

/-- The line command that decodes by a mode. -/
def lineCommand (m : Mode) (l : BitVec 8) : Instr :=
  match m with
  | .base => .dsr l
  | .dr .s140 => .ddr140 l
  | .dr .s560 => .ddr560 l
  | .dr .s160 => .ddr160 l
  | .dr .mix => .ddrMix l

/-- The seven commands that take more than one SEQ step: DSR, the four DDR forms, FFULL and FMIXED. -/
def isLongCommand (i : Instr) : Prop := (Job.ofInstr i).isSome = true

/-- What a completed line command leaves (42_single_res.md R160, 43_double_res.md R190): the line's two requests, the
buffer as the closed forms give it, the completion, and every other register as before. -/
def lineCompletes (i : Instr) (m : Mode) (l : BitVec 8) (s : State) : Prop :=
  ∃ t, exec i s = .next t ∧ State.SameSettings s t ∧ t.fcfg = s.fcfg ∧ t.mode = s.mode ∧
    t.out = s.out ++ [.prepareScanline, .submitScanline (expectedBuffer s s.fcfg m l)] ∧
    t.seqState = .idle ∧ t.done = true ∧ t.held = none ∧ t.inputs = s.inputs

end Sys2Proof.Machine
end

