-- ==== Sys2Proof/Certificates/Slice0/Obligations.lean ====
section
/-! DEFINITION. The statements about the model, from the numbered rules of spec/. -/

open Sys2Proof Sys2Proof.Machine

/-! ### Encoding -/

/-- The decoder reads back every well-formed instruction from its encoding, every operand at every value. -/
def Obligations.DecodeOfEncodeIsTheInstruction : Prop :=
  ∀ i : Instr, i.wellFormed = true → decode (encode i) = .ok i

/-- The same through the bytes: a command word's four bytes, low byte first, and a bus frame's six. -/
def Obligations.DecodeOfEncodedBytesIsTheInstruction : Prop :=
  ∀ i : Instr, i.wellFormed = true → decodeBytes (encode i).format (encode i).toBytes = .ok i

/-- Words and accesses written out from 30_encoding.md R97 and 10_state.md R22 decode to what they stand for. -/
def Obligations.SpecEncodingsDecode : Prop :=
  decodeCommand 0x00000000 = .ok .nop ∧ decodeCommand 0x10000000 = .ok .fstart ∧
  decodeCommand 0x200000BF = .ok (.laddr 191) ∧ decodeCommand 0x30000005 = .ok (.dsr 5) ∧
  decodeCommand 0x40000005 = .ok (.ddr140 5) ∧ decodeCommand 0x40000405 = .ok (.ddr560 5) ∧
  decodeCommand 0x40000805 = .ok (.ddr160 5) ∧ decodeCommand 0x40000C05 = .ok (.ddrMix 5) ∧
  decodeCommand 0x50000000 = .ok .ffull ∧ decodeCommand 0x60000000 = .ok .fmixed ∧
  decodeAccess { write := true, offset := 0x08, bytes := 4, data := 0x26 } = .ok (.wrCfg 0x26) ∧
  decodeAccess { write := false, offset := 0x04, bytes := 4, data := 0 } = .ok .rdStatus ∧
  decodeAccess { write := true, offset := 0xFC, bytes := 4, data := 7 } = .ok (.wrUnmapped 0xFC 7)

/-- 30_encoding.md R94, with the acceptance of 44_frame_control.md R210 and the kept first code of 60_exceptions.md R240:
WR CMD's decode of v while BUSY or idle, by the values of the fields OP, RSV1, S, RSV0 and L: which words are rejected
with which code, in the order of the tests, and that every other word is accepted, as the instruction it encodes. (That
acceptance puts SEQ at the start, notes CFG and clears the record of GMW writes is the model's own, assumptions 3, 7
and 10.) -/
def Obligations.CommandDecodePriority : Prop :=
  ∀ (v : Word) (s : State),
    let op := v.toNat / 2 ^ 28
    let rsv1 := v.toNat / 2 ^ 12 % 2 ^ 16
    let sub := v.toNat / 2 ^ 10 % 4
    let rsv0 := v.toNat / 2 ^ 8 % 4
    let line := v.toNat % 2 ^ 8
    let lined := op = 2 ∨ op = 3 ∨ op = 4
    let reserved := rsv1 ≠ 0 ∨ rsv0 ≠ 0 ∨ (op ≠ 4 ∧ sub ≠ 0) ∨ (¬ lined ∧ line ≠ 0)
    let rejected (e : ErrCode) : Prop :=
      exec (.wrCmd v) s = .next { s with err := true, errcode := if s.err = true then s.errcode else e }
    (s.seqState = .busy → rejected .busy) ∧
    (s.seqState = .idle →
      (6 < op → rejected .illegalOp) ∧
      (op ≤ 6 → reserved → rejected .reservedField) ∧
      (op ≤ 6 → ¬ reserved → lined → 192 ≤ line → rejected .lineRange) ∧
      (op ≤ 6 → ¬ reserved → (lined → line < 192) →
        (∃ i, decodeCommand v = .ok i ∧ encode i = .command v) ∧
        exec (.wrCmd v) s
          = .next { s with
              cmd := v, done := false, seqState := .busy
              point := .start, issueCfg := s.cfg, stale := [], raced := [] }))

/-- An accepted command word is the encoding of the well-formed instruction it decodes to, so that every accepted
word has one meaning and every bit of it counts. -/
def Obligations.AcceptedWordIsItsEncoding : Prop :=
  ∀ (v : Word) (i : Instr), decodeCommand v = .ok i → i.wellFormed = true ∧ encode i = .command v

/-- 20_memory.md R66: a bus access is defined exactly if it is 32 bits wide and aligned; it then decodes to a
well-formed instruction, whose encoding is the access (a read has no data). -/
def Obligations.AccessDefinedIffAlignedWord : Prop :=
  ∀ a : BusAccess,
    ((∃ i, decodeAccess a = .ok i) ↔ a.bytes = 4 ∧ a.offset.toNat % 4 = 0) ∧
    ∀ i, decodeAccess a = .ok i →
      i.wellFormed = true ∧ encode i = .access { a with data := if a.write then a.data else 0 }

/-! ### Acceptance and rejection -/

/-- 44_frame_control.md R210: while IDLE, a legal command word is accepted: CMD takes it, DONE is cleared and SEQ is
BUSY at the command's start. Nothing else changes, but that CFG is noted for the command's snapshot (20_memory.md R71,
assumption 3) and the record of GMW writes begins anew (R72, assumption 10). -/
def Obligations.WrCmdAcceptsLegalWord : Prop :=
  ∀ (v : Word) (i : Instr) (s : State), s.seqState = .idle → decodeCommand v = .ok i →
    exec (.wrCmd v) s
      = .next { s with
          cmd := v, done := false, seqState := .busy, point := .start, issueCfg := s.cfg, stale := [], raced := [] }

/-- 60_exceptions.md R240 and R243: a rejected write of CMD, TSEL or TDATA changes nothing but ERR and ERRCODE, the
first code since ERR was clear is kept, and BUSY comes before every other cause. -/
def Obligations.RejectionIsPreciseAndKeepsFirstCode : Prop :=
  ∀ (v : Word) (s : State),
    let rejected (e : ErrCode) : Host.Outcome State Fault Refusal :=
      .next { s with err := true, errcode := if s.err = true then s.errcode else e }
    (s.seqState = .busy → exec (.wrCmd v) s = rejected .busy ∧ exec (.wrTsel v) s = rejected .busy ∧
      exec (.wrTdata v) s = rejected .busy) ∧
    (s.seqState = .idle → decodeCommand v = .error .illegalOp → exec (.wrCmd v) s = rejected .illegalOp) ∧
    (s.seqState = .idle → decodeCommand v = .error .reservedField → exec (.wrCmd v) s = rejected .reservedField) ∧
    (s.seqState = .idle → decodeCommand v = .error .lineRange → exec (.wrCmd v) s = rejected .lineRange) ∧
    (s.seqState = .idle → s.selected = none → exec (.wrTdata v) s = rejected .tableRange)

/-- 60_exceptions.md R241 with 10_state.md R24: the codes as STATUS shows them. -/
def Obligations.ErrorCodesAsRead : Prop :=
  ErrCode.none.code = 0 ∧ (ErrCode.ofCommand .illegalOp).code = 1 ∧ (ErrCode.ofCommand .reservedField).code = 2 ∧
  (ErrCode.ofCommand .lineRange).code = 3 ∧ ErrCode.busy.code = 4 ∧ ErrCode.tableRange.code = 5

/-- 70_reset_and_hazards.md R271: while BUSY, TSEL and TDATA writes are rejected with BUSY, and a TDATA read returns 0. -/
def Obligations.TableAccessWhileBusy : Prop :=
  ∀ (v : Word) (s : State), s.seqState = .busy →
    exec (.wrTsel v) s = .next (s.raise .busy) ∧ exec (.wrTdata v) s = .next (s.raise .busy) ∧
    exec .rdTdata s = .next { s with rdata := 0 }

/-! ### Bus registers -/

/-- 44_frame_control.md R226: WR TSEL stores v[18:16] and v[8:0] while idle, with no range check, and is rejected with
BUSY otherwise. -/
def Obligations.WrTselStoresItsFields : Prop :=
  ∀ (v : Word) (s : State),
    (s.seqState = .idle → exec (.wrTsel v) s
      = .next { s with
          tselTable := BitVec.ofNat 3 (v.toNat / 2 ^ 16)
          tselIndex := BitVec.ofNat 9 v.toNat }) ∧
    (s.seqState = .busy → exec (.wrTsel v) s
      = .next { s with err := true, errcode := if s.err = true then s.errcode else .busy })

/-- 10_state.md R40: ids, sizes and widths of the tables, and which TSEL reaches which entry. -/
def Obligations.SelectedEntryIsInRange : Prop :=
  (∀ (s : State) (t : TableId) (i : Nat), s.selected = some (t, i) ↔
    i = s.tselIndex.toNat ∧
    (s.tselTable.toNat, t) ∈ [(0, TableId.dot), (1, TableId.art), (2, TableId.pal16), (3, TableId.mono4),
      (4, TableId.monobw), (5, TableId.lores16)] ∧
    i < (match t with | .dot => 256 | .art => 512 | .pal16 => 16 | .mono4 => 4 | .monobw => 2 | .lores16 => 16)) ∧
  ∀ (t : TableId) (i : Nat) (v : Word) (s : State), s.seqState = .idle → s.selected = some (t, i) →
    ∃ tb, exec (.wrTdata v) s = .next { s with tables := tb } ∧
      tb.get t i = some (BitVec.ofNat 32 (v.toNat %
        2 ^ (match t with | .dot => 14 | .art => 24 | .pal16 => 12 | .mono4 => 24 | .monobw => 12 | .lores16 => 12)))

/-- 10_state.md R31, the write: BUSY, then the range, else the entry takes the low bits of v and becomes written, and
every other entry stays. -/
def Obligations.WrTdataWritesTheSelectedEntry : Prop :=
  ∀ (v : Word) (s : State),
    (s.seqState = .busy → exec (.wrTdata v) s = .next (s.raise .busy)) ∧
    (s.seqState = .idle → s.selected = none → exec (.wrTdata v) s = .next (s.raise .tableRange)) ∧
    ∀ t i, s.seqState = .idle → s.selected = some (t, i) →
      ∃ tb, exec (.wrTdata v) s = .next { s with tables := tb } ∧
        tb.get t i = some (BitVec.ofNat 32 (v.toNat % 2 ^ t.width)) ∧
        ∀ t' i', (t', i') ≠ (t, i) → tb.get t' i' = s.tables.get t' i'

/-- 10_state.md R31, the read: 0 while BUSY or out of range, else the entry; a never-written entry returns a free value
of the entry's width (assumption 9). -/
def Obligations.RdTdataReturnsTheSelectedEntry : Prop :=
  ∀ s : State,
    (s.seqState = .busy ∨ s.selected = none → exec .rdTdata s = .next { s with rdata := 0 }) ∧
    ∀ t i, s.seqState = .idle → s.selected = some (t, i) →
      (∀ w, s.tables.get t i = some w → exec .rdTdata s = .next { s with rdata := w }) ∧
      (s.tables.get t i = none → ∃ w : Word, w.toNat < 2 ^ t.width ∧
        exec .rdTdata s = .next { s with rdata := w, draws := s.draws + 1 })

/-- A TDATA write is seen by the next TDATA read, cut to the entry's width (10_state.md R31, 70_reset_and_hazards.md
R280). -/
def Obligations.TdataReadAfterWrite : Prop :=
  ∀ (v : Word) (tab : TableId) (i : Nat) (s : State), s.seqState = .idle → s.selected = some (tab, i) →
    ∃ t u, exec (.wrTdata v) s = .next t ∧ exec .rdTdata t = .next u ∧
      u.rdata.toNat = v.toNat % 2 ^ tab.width ∧ u.tables = t.tables

/-- 44_frame_control.md R228: WR STATUS clears DONE by v[1], and ERR with ERRCODE by v[2], also while BUSY. -/
def Obligations.WrStatusClearsDoneAndErr : Prop :=
  ∀ (v : Word) (s : State), exec (.wrStatus v) s
    = .next { s with
        done := s.done && !v.getLsbD 1
        err := s.err && !v.getLsbD 2
        errcode := if v.getLsbD 2 = true then .none else s.errcode }

/-- 44_frame_control.md R225: WR CFG stores v[6:0] at any time, and nothing else changes. -/
def Obligations.WrCfgStoresItsSevenBits : Prop :=
  ∀ (v : Word) (s : State), exec (.wrCfg v) s = .next { s with cfg := BitVec.ofNat 7 v.toNat }

/-- 44_frame_control.md R230: writes of FCFG, RESULT and unmapped offsets are ignored. -/
def Obligations.IgnoredWritesChangeNothing : Prop :=
  ∀ (v : Word) (off : BitVec 8) (s : State),
    exec (.wrFcfg v) s = .next s ∧ exec (.wrResult v) s = .next s ∧ exec (.wrUnmapped off v) s = .next s

/-- 44_frame_control.md R229 with 10_state.md R22 to R30: what a read of each register returns, and that it changes
nothing but the word returned. -/
def Obligations.ReadsReturnTheRegister : Prop :=
  ∀ s : State,
    exec .rdCmd s = .next { s with rdata := s.cmd } ∧
    (∃ w : Word, exec .rdStatus s = .next { s with rdata := w } ∧
      w.toNat = (if s.seqState = .busy then 1 else 0) + 2 * s.done.toNat + 4 * s.err.toNat
        + 16 * (if s.err = true then s.errcode.code.toNat else 0) + 256 * s.mode.code.toNat) ∧
    (∃ w : Word, exec .rdCfg s = .next { s with rdata := w } ∧ w.toNat = s.cfg.toNat) ∧
    (∃ w : Word, exec .rdFcfg s = .next { s with rdata := w } ∧ w.toNat = s.fcfg.toNat) ∧
    (∃ w : Word, exec .rdResult s = .next { s with rdata := w } ∧ w.toNat = s.result.toNat) ∧
    (∃ w : Word, exec .rdTsel s = .next { s with rdata := w } ∧
      w.toNat = s.tselIndex.toNat + 2 ^ 16 * s.tselTable.toNat) ∧
    ∀ off, exec (.rdUnmapped off) s = .next { s with rdata := 0 }

/-! ### Commands of one step -/

/-- 44_frame_control.md R212: NOP completes and changes nothing else. -/
def Obligations.NopOnlyCompletes : Prop :=
  ∀ s : State, exec .nop s = .next { s with seqState := .idle, done := true }

/-- 44_frame_control.md R215: FSTART copies CFG, as its CMD write found it, to FCFG, derives MODE and completes; it issues
no request. The copy is of CFG at the CMD write (20_memory.md R71, R75, assumption 3): after WR CMD of FSTART, FCFG takes
the value CFG had then, also if CFG is written before SEQ's step. -/
def Obligations.FstartTakesTheSnapshot : Prop :=
  (∀ s : State, exec .fstart s
    = .next { s with fcfg := s.issueCfg, mode := deriveMode s.issueCfg, seqState := .idle, done := true }) ∧
  ∀ (v : Word) (s : State), s.seqState = .idle →
    ∃ t u, exec (.wrCmd 0x10000000) s = .next t ∧ exec (.wrCfg v) t = .next u ∧
      exec .fstart t
        = .next { t with fcfg := s.cfg, mode := deriveMode s.cfg, seqState := .idle, done := true } ∧
      exec .fstart u
        = .next { u with fcfg := s.cfg, mode := deriveMode s.cfg, seqState := .idle, done := true }

/-- 10_state.md R28: the mode derivation, by the bits COL80, DHIRES, MONO and DRSUB, in STATUS.MODE's codes. -/
def Obligations.ModeDerivation : Prop :=
  ∀ c : BitVec 7, (deriveMode c).code
    = if c.getLsbD 1 = true ∧ c.getLsbD 2 = true then
        (if c.getLsbD 3 = true then 0b101 else 0b100 ||| (c.extractLsb' 4 2).setWidth 3)
      else 0b000

/-- 40_line_address.md R132: LADDR writes line_offset(L) to RESULT and completes. -/
def Obligations.LaddrWritesTheLineOffset : Prop :=
  ∀ (l : BitVec 8) (s : State), l.toNat < 192 →
    ∃ r : BitVec 13, exec (.laddr l) s = .next { s with result := r, seqState := .idle, done := true } ∧
      r.toNat = l.toNat % 8 * 1024 + l.toNat / 8 % 8 * s.params.midStride.bytes.toNat + l.toNat / 64 * 40

/-- 40_line_address.md R133: every byte a line reads is inside the page view, no two (line, column) pairs share one,
and with MID_STRIDE = 128 the last 8 bytes of each 128 are read by none. -/
def Obligations.LineBytesAreDistinctAndInside : Prop :=
  ∀ (p : Params) (l l' : BitVec 8) (c c' : Nat), l.toNat < 192 → l'.toNat < 192 → c < 40 → c' < 40 →
    (lineOffset p l).toNat + c ≤ 7 * 1024 + 7 * p.midStride.bytes.toNat + 2 * 40 + 39 ∧
    (lineOffset p l + BitVec.ofNat 13 c).toNat = (lineOffset p l).toNat + c ∧
    ((lineOffset p l).toNat + c = (lineOffset p l').toNat + c' → l = l' ∧ c = c') ∧
    (p.midStride = .s128 → ((lineOffset p l).toNat + c) % 128 < 120)

/-! ### Line commands -/

/-- 42_single_res.md R160, R164, R165: DSR decodes its line by the artifact table, whatever STATUS.MODE. -/
def Obligations.DsrSubmitsItsLine : Prop :=
  ∀ (l : BitVec 8) (s : State), s.Poised → s.tables.loadedFor .base = true →
    lineCompletes (.dsr l) .base l s

/-- 43_double_res.md R182: DDR.140 decodes its line by the 16-colour palette, 4 dots a colour. -/
def Obligations.Ddr140SubmitsItsLine : Prop :=
  ∀ (l : BitVec 8) (s : State), s.Poised → s.tables.loadedFor (.dr .s140) = true →
    lineCompletes (.ddr140 l) (.dr .s140) l s

/-- 43_double_res.md R184: DDR.560 decodes its line by the 4-entry blend table, 2 dots a word. -/
def Obligations.Ddr560SubmitsItsLine : Prop :=
  ∀ (l : BitVec 8) (s : State), s.Poised → s.tables.loadedFor (.dr .s560) = true →
    lineCompletes (.ddr560 l) (.dr .s560) l s

/-- 43_double_res.md R186: DDR.160 decodes its line nibble by nibble, with no padding. -/
def Obligations.Ddr160SubmitsItsLine : Prop :=
  ∀ (l : BitVec 8) (s : State), s.Poised → s.tables.loadedFor (.dr .s160) = true →
    lineCompletes (.ddr160 l) (.dr .s160) l s

/-- 43_double_res.md R188: DDR.MIX decodes its line by the flags, a colour or two dots a step. -/
def Obligations.DdrMixSubmitsItsLine : Prop :=
  ∀ (l : BitVec 8) (s : State), s.Poised → s.tables.loadedFor (.dr .mix) = true →
    lineCompletes (.ddrMix l) (.dr .mix) l s

/-! ### Frame commands -/

/-- 44_frame_control.md R215, R216, R217: FFULL takes the snapshot of CFG as its CMD write found it (20_memory.md R71),
issues PREPARE_FRAME and SKIP_LINES(VSKIP), and submits lines 0 to 191 in order, each decoded by the mode of the snapshot;
RESULT and every other register stay. -/
def Obligations.FfullSubmitsTheFrame : Prop :=
  ∀ s : State, s.Poised → s.tables.loadedFor (deriveMode s.issueCfg) = true →
    ∃ t, exec .ffull s = .next t ∧ State.SameSettings s t ∧
      t.fcfg = s.issueCfg ∧ t.mode = deriveMode s.issueCfg ∧
      t.out = s.out ++ (.prepareFrame :: .skipLines s.params.vskip
        :: expectedLines s s.issueCfg (deriveMode s.issueCfg) 192) ∧
      t.seqState = .idle ∧ t.done = true ∧ t.held = none ∧ t.inputs = []

/-- 44_frame_control.md R218: FMIXED does so for lines 0 to 159, and then asks for the text rows 20 to 23. -/
def Obligations.FmixedSubmitsTheFrameAndTextRows : Prop :=
  ∀ s : State, s.Poised → s.txtReady = true → s.tables.loadedFor (deriveMode s.issueCfg) = true →
    ∃ t, exec .fmixed s = .next t ∧ State.SameSettings s t ∧
      t.fcfg = s.issueCfg ∧ t.mode = deriveMode s.issueCfg ∧
      t.out = s.out ++ (.prepareFrame :: .skipLines s.params.vskip
        :: expectedLines s s.issueCfg (deriveMode s.issueCfg) 160
        ++ [.renderTextLine 20, .renderTextLine 21, .renderTextLine 22, .renderTextLine 23]) ∧
      t.seqState = .idle ∧ t.done = true ∧ t.held = none ∧ t.inputs = []

/-! ### Frames -/

/-- Whatever the state, the five line commands leave the snapshot, every setting and all of graphics memory, and only
add to OUT. -/
def Obligations.LineCommandFrame : Prop :=
  ∀ (l : BitVec 8) (i : Instr) (s t : State),
    i ∈ [Instr.dsr l, .ddr140 l, .ddr560 l, .ddr160 l, .ddrMix l] → exec i s = .next t →
    State.SameSettings s t ∧ t.fcfg = s.fcfg ∧ t.mode = s.mode ∧ s.out <+: t.out

/-- Whatever the state, the two frame commands leave every setting and all of graphics memory and only add to OUT; they
write FCFG and MODE together, from CFG as their CMD write found it, and only in their first step (44_frame_control.md
R215, R216; assumption 3). -/
def Obligations.FrameCommandFrame : Prop :=
  ∀ (i : Instr) (s t : State), i ∈ [Instr.ffull, .fmixed] → exec i s = .next t →
    State.SameSettings s t ∧ s.out <+: t.out ∧
    ((t.fcfg = s.fcfg ∧ t.mode = s.mode) ∨
      (s.point = .start ∧ t.fcfg = s.issueCfg ∧ t.mode = deriveMode s.issueCfg))

/-- 10_state.md R54: no instruction writes a byte of graphics memory; and the parameters never change. -/
def Obligations.NoInstructionWritesGraphicsMemory : Prop :=
  ∀ (i : Instr) (s t : State), exec i s = .next t → (∀ a, t.mem.read a = s.mem.read a) ∧ t.params = s.params

/-- 10_state.md R23 to R31 and R50 to R56: for each register, hidden ones included, and each table, the only instructions
that change it, and when. DONE and BUSY change by acceptance, by WR STATUS's v[1], and by the completion of a command,
which sets DONE as it clears BUSY (R24, 44_frame_control.md R211), in whichever step a command that has waited comes to
it. -/
def Obligations.OnlyTheNamedInstructionChangesARegister : Prop :=
  ∀ (i : Instr) (s t : State), exec i s = .next t →
    (t.cmd ≠ s.cmd → s.seqState = .idle ∧ i = .wrCmd t.cmd) ∧
    (t.cfg ≠ s.cfg → ∃ v, i = .wrCfg v) ∧
    (t.fcfg ≠ s.fcfg ∨ t.mode ≠ s.mode →
      (i = .fstart ∨ i = .ffull ∨ i = .fmixed) ∧ t.fcfg = s.issueCfg ∧ t.mode = deriveMode s.issueCfg) ∧
    (t.issueCfg ≠ s.issueCfg → s.seqState = .idle ∧ t.issueCfg = s.cfg ∧ ∃ v, i = .wrCmd v) ∧
    (t.result ≠ s.result → ∃ l, i = .laddr l) ∧
    (t.tselTable ≠ s.tselTable ∨ t.tselIndex ≠ s.tselIndex → s.seqState = .idle ∧ ∃ v, i = .wrTsel v) ∧
    (t.tables ≠ s.tables → s.seqState = .idle ∧ ∃ v, i = .wrTdata v) ∧
    (t.err ≠ s.err ∨ t.errcode ≠ s.errcode →
      (∃ v, i = .wrCmd v) ∨ (∃ v, i = .wrTsel v) ∨ (∃ v, i = .wrTdata v) ∨ ∃ v, i = .wrStatus v) ∧
    (t.done ≠ s.done →
      (t.done = true ∧ t.seqState = .idle ∧ ∃ w, encode i = .command w) ∨
      (t.done = false ∧ s.seqState = .idle ∧ t.seqState = .busy ∧ i = .wrCmd t.cmd) ∨
      (t.done = false ∧ ∃ v : Word, i = .wrStatus v ∧ v.getLsbD 1 = true)) ∧
    (t.seqState ≠ s.seqState →
      (t.seqState = .busy ∧ t.done = false ∧ i = .wrCmd t.cmd ∧ ∃ j, decodeCommand t.cmd = .ok j) ∨
      (t.seqState = .idle ∧ t.done = true ∧ ∃ w, encode i = .command w)) ∧
    (t.point ≠ s.point → isLongCommand i ∨ (s.seqState = .idle ∧ ∃ v, i = .wrCmd v)) ∧
    (t.dp ≠ s.dp ∨ t.held ≠ s.held ∨ t.widx ≠ s.widx ∨ t.col ≠ s.col ∨ t.lctr ≠ s.lctr ∨ t.trow ≠ s.trow →
      isLongCommand i) ∧
    (t.out ≠ s.out → isLongCommand i) ∧ s.out <+: t.out

/-! ### Run words and buffers -/

/-- 41_run_words.md R143 and 30_encoding.md R112: the padding is three words of 40 blank slots, and HOLD is one word of
none. -/
def Obligations.PaddingAndHoldWords : Prop :=
  padWords = [0x70007000, 0x70007000, 0x30003000] ∧ slotColours padWords = List.replicate 40 0 ∧
  holdWord = 0x00008000 ∧ slots holdWord = 0

/-- 30_encoding.md R111 and R113: the slots of the word constructors, whatever the colours, and the colours of their
slots. -/
def Obligations.RunWordSlots : Prop :=
  ∀ c d : Colour,
    slots (pair c d) = 2 ∧ wordColours (pair c d) = [c, d] ∧
    slots (xpair c d) = 8 ∧ wordColours (xpair c d) = [c, c, c, c, d, d, d, d] ∧
    slots (w2 c 1 c 1) = 4 ∧ wordColours (w2 c 1 c 1) = [c, c, c, c]

/-- 41_run_words.md R147: the content words and their kinds, content slots, length, repeat count and emitted slots of a
line, in every mode, for every graphics byte and every table. -/
def Obligations.WordsAndSlotsPerLine : Prop :=
  ∀ (p : Params) (tb : Tables) (m : Mode) (a b : Nat → Byte) (f : BitVec 7),
    let content := lineContent p tb m a b
    let buf := lineBuffer f m content
    let dup := (f.getLsbD 6).toNat
    totalSlots content = (if m = .dr .s160 then 640 else 560) ∧
    totalSlots buf.data = (if m = .dr .s160 then 640 else 600) ∧
    buf.length = buf.data.length ∧ buf.repeatCount = dup ∧
    (m = .base → content.length = 280 ∧ buf.length + dup = 284 ∧ ∀ w ∈ content, ∃ c d, w = pair c d) ∧
    (m = .dr .s140 → content.length = 70 ∧ buf.length + dup = 74 ∧ ∀ w ∈ content, ∃ c d, w = xpair c d) ∧
    (m = .dr .s560 → content.length = 280 ∧ buf.length + dup = 284 ∧ ∀ w ∈ content, ∃ c d, w = pair c d) ∧
    (m = .dr .s160 → content.length = 80 ∧ buf.length + dup = 81 ∧ ∀ w ∈ content, ∃ c d, w = xpair c d) ∧
    (m = .dr .mix → 140 ≤ content.length ∧ content.length ≤ 280 ∧ buf.length + dup = content.length + 4 ∧
      ∀ w ∈ content, (∃ c, w = w2 c 1 c 1) ∨ ∃ c d, w = pair c d)

/-- 30_encoding.md R113: no word of a line has bit 31 set, and none but HOLD has bit 15 set. -/
def Obligations.EveryLineWordIsAnItemPairOrHold : Prop :=
  ∀ (p : Params) (tb : Tables) (m : Mode) (a b : Nat → Byte) (f : BitVec 7),
    ∀ w ∈ (lineBuffer f m (lineContent p tb m a b)).data,
      w.getLsbD 31 = false ∧ (w.getLsbD 15 = true → w = 0x00008000)

/-- 43_double_res.md R189: with every flag 0 a DDR.MIX line is 140 colour steps and shows what DDR.140's 70 words show;
with every flag 1 it is 280 monochrome steps and shows each dot in the background or foreground colour. -/
def Obligations.MixedModeEquivalences : Prop :=
  ∀ (il : Interleave) (tb : Tables) (a m : Nat → Byte),
    let s := drDot il a m
    let f := drFlag il a m
    let colour (x : Nat) : Colour := tb.pal16.at (nibbleAt s x)
    ((∀ c, c < 40 → (a c).getLsbD 7 = false ∧ (m c).getLsbD 7 = false) →
      contentMix tb s f = ((List.range 140).map fun i => w2 (colour (4 * i)) 1 (colour (4 * i)) 1) ∧
      (content140 tb s).length = 70 ∧ slotColours (contentMix tb s f) = slotColours (content140 tb s)) ∧
    ((∀ c, c < 40 → (a c).getLsbD 7 = true ∧ (m c).getLsbD 7 = true) →
      contentMix tb s f
        = ((List.range 280).map fun i => pair (tb.monobw.at (s (2 * i)).toNat) (tb.monobw.at (s (2 * i + 1)).toNat)) ∧
      slotColours (contentMix tb s f) = (List.range 560).map fun x => tb.monobw.at (s x).toNat)

/-! ### Stops -/

/-- 10_state.md R41 and 70_reset_and_hazards.md R265: a line or frame command faults at the first unwritten entry among
all the entries its lines read, from its start or from where it has waited; where each of them is written, whatever other
entry is not, it runs through, as the closed forms give it; and, from every state, a command faults only at an unwritten
entry, of a table R265 lists for it. (The reads are in the reference order of 20_memory.md R68; which of several unwritten
entries the fault names is the model's own, assumption 8.) -/
def Obligations.UnwrittenEntryFaults : Prop :=
  (∀ (i : Instr) (job : Job) (s : State), Job.ofInstr i = some job → s.Poised →
    let reads := job.readsToCome (job.begun s)
    (∀ t k, s.tables.firstUnwritten reads = some (t, k) → exec i s = .fault (.unwrittenEntry t k)) ∧
    (s.tables.firstUnwritten reads = none → s.textServed job →
      ∃ t, exec i s = .next t ∧ t.seqState = .idle ∧ t.done = true ∧
        t.out = s.out ++ job.requestsToCome (job.begun s))) ∧
  (∀ (i : Instr) (job : Job) (t : TableId) (k : Nat) (s : State), Job.ofInstr i = some job → s.Resumed →
    s.tables.firstUnwritten (job.readsToCome s) = some (t, k) → exec i s = .fault (.unwrittenEntry t k)) ∧
  ∀ (i : Instr) (s : State) (f : Fault), exec i s = .fault f →
    ∃ t k, f = .unwrittenEntry t k ∧ s.tables.get t k = none ∧
      ∃ job, Job.ofInstr i = some job ∧ (t ∈ tablesOf (job.lineMode s) ∨
        (s.point = .start ∧ ∃ n x, job = .frame n x ∧ t ∈ tablesOf (deriveMode s.issueCfg)))

/-- 41_run_words.md R149: with buffers of fewer than 284 words, every command that takes one is refused. -/
def Obligations.SmallBufferIsRefused : Prop :=
  ∀ (i : Instr) (s : State), isLongCommand i → s.seqState = .busy → s.point = .start → s.inputs = [] →
    s.drvReady = true → s.params.slCap < 284 → exec i s = .refused .smallBuffer

/-- 20_memory.md R66: a host access that is not 32 bits wide, or is misaligned, is refused. -/
def Obligations.UndefinedAccessIsRefused : Prop :=
  ∀ (a : BusAccess) (s t : State), s.nextInput = some (.host a, t) →
    (a.bytes ≠ 4 → step s = .refused (.undefinedAccess .width)) ∧
    (a.bytes = 4 → a.offset.toNat % 4 ≠ 0 → step s = .refused (.undefinedAccess .misaligned))

/-! ### Waiting and idling -/

/-- 60_exceptions.md R252: with DRV silent, a line command stands BUSY at its PREPARE_SCANLINE and a frame command at its
PREPARE_FRAME; a command that waits for a silent agent stays as it is, step after step; and once the agents answer, it goes
on from where it has waited, issues the requests it has still to issue, in order, each line as the closed forms give it
from the snapshot, and completes (44_frame_control.md R211, R217, R218). -/
def Obligations.SilentAgentHoldsTheCommand : Prop :=
  ∀ (i : Instr) (s : State), s.seqState = .busy → s.inputs = [] →
    (s.point = .start → s.drvReady = false →
      (∀ l m, Job.ofInstr i = some (.line l m) →
        exec i s = .next { s with out := s.out ++ [.prepareScanline], point := .lineAck }) ∧
      (∀ n b, Job.ofInstr i = some (.frame n b) →
        exec i s = .next { s with
          fcfg := s.issueCfg, mode := deriveMode s.issueCfg
          out := s.out ++ [.prepareFrame], point := .frameAck })) ∧
    (decodeCommand s.cmd = .ok i → isLongCommand i → s.waiting = true → step s = .next s) ∧
    ∀ job, Job.ofInstr i = some job → s.Resumed → s.textServed job →
      s.tables.firstUnwritten (job.readsToCome s) = none →
      ∃ t, exec i s = .next t ∧ State.SameSettings s t ∧ t.fcfg = s.fcfg ∧ t.mode = s.mode ∧
        t.out = s.out ++ job.requestsToCome s ∧ t.seqState = .idle ∧ t.done = true ∧
        (s.held = none → t.held = none) ∧ t.inputs = []

/-- 70_reset_and_hazards.md R273: WAIT. IDLE, a WAIT ends at its first poll. Where an agent never answers and nothing is
to come, its first poll reports stuck, and no step and no host access ends that. And from every state that meets the
invariant, with the tables loaded and no stop among the inputs to come, some number of polls ends it, IDLE with the BUSY
bit read as 0, or reports it stuck. -/
def Obligations.WaitEndsOrReportsStuck : Prop :=
  (∀ (n : Nat) (s : State), s.seqState = .idle → wait (n + 1) s = .ended { s with rdata := s.statusWord }) ∧
  (∀ (n : Nat) (s : State), s.Inv → s.stuck = true →
    wait (n + 1) s = .stuck { s with rdata := s.statusWord } ∧
    ∀ t, (step s = .next t ∨ ∃ a, hostAccess a s = .next t) → t.stuck = true ∧ t.out = s.out) ∧
  ∀ s : State, s.Inv → s.booted → (∀ x ∈ s.inputs, x.input.tame = true) →
    ∃ n t, (wait n s = .ended t ∧ t.seqState = .idle ∧ t.rdata.getLsbD 0 = false) ∨
      (wait n s = .stuck t ∧ t.stuck = true)

/-- 60_exceptions.md R255: IDLE, with nothing arriving, the machine stays as it is; and IDLE, it becomes BUSY only by a
host write of CMD that is accepted. -/
def Obligations.IdleUntilACommandIsWritten : Prop :=
  ∀ s : State, s.seqState = .idle →
    (s.inputs = [] → step s = .next s) ∧
    ∀ t, step s = .next t → t.seqState = .busy →
      ∃ a r, s.nextInput = some (.host a, r) ∧ decodeAccess a = .ok (.wrCmd t.cmd) ∧
        ∃ i, decodeCommand t.cmd = .ok i

/-! ### The step -/

/-- SEQ's turn executes the instruction the word in CMD decodes to, at that very state. -/
def Obligations.StepExecutesTheCommandInCmd : Prop :=
  ∀ (i : Instr) (s : State), s.nextInput = none → s.seqState = .busy → decodeCommand s.cmd = .ok i →
    step s = exec i s

/-- A due input, or one that comes while SEQ cannot step, is delivered, taken off the inputs: a host access is executed,
but that a read of FCFG or STATUS waits for a frame command's first step (70_reset_and_hazards.md R279, R282); and DRV or
TXT begins or ceases to answer. When an input is due is the model's own rule (assumptions 1 and 3). -/
def Obligations.StepExecutesTheDueAccess : Prop :=
  (∀ (i : Instr) (a : BusAccess) (n : Nat) (r : List TimedInput) (s : State),
    s.inputs = { after := n, input := .host a } :: r → decodeAccess a = .ok i →
    ((n = 0 ∧ (s.framePending = false ∨ (i ≠ .rdStatus ∧ i ≠ .rdFcfg))) ∨ s.runnable = false) →
    step s = exec i { s with inputs := r }) ∧
  ∀ (b : Bool) (n : Nat) (r : List TimedInput) (s : State), n = 0 ∨ s.runnable = false →
    (s.inputs = { after := n, input := .drv b } :: r → step s = .next { s with drvReady := b, inputs := r }) ∧
    (s.inputs = { after := n, input := .txt b } :: r → step s = .next { s with txtReady := b, inputs := r })

/-- The model's own (assumption 18): the state with an instruction placed for fetching runs exactly it. -/
def Obligations.StepRunsThePlacedInstruction : Prop :=
  ∀ (i : Instr) (s : State),
    (∀ v : Word, decodeCommand v = .ok i →
      decodeTableWord 32 v.toNat = some i ∧
      step (s.withFetchWord 32 v.toNat)
        = exec i { s with cmd := v, seqState := .busy, point := .start, issueCfg := s.cfg, inputs := [] }) ∧
    (∀ off : BitVec 8, off.toNat % 4 = 0 → i = writeOf off 0 →
      decodeTableWord 8 off.toNat = some i ∧
      step (s.withFetchWord 8 off.toNat) = exec i s)

/-- A line command issued by the host is accepted in one step and runs through in the next (44_frame_control.md R210,
R211). That one step of the model runs the whole command is its own choice (assumption 21). -/
def Obligations.IssuedLineCommandCompletes : Prop :=
  ∀ (i : Instr) (m : Mode) (l : BitVec 8) (v : Word) (s : State), decodeCommand v = .ok i →
    Job.ofInstr i = some (.line l m) → s.seqState = .idle → s.drvReady = true → 284 ≤ s.params.slCap →
    s.tables.loadedFor m = true → s.inputs = [{ after := 0, input := .host (hostWrite 0x00 v) }] →
    ∃ t u, step s = .next t ∧ t.cmd = v ∧ t.seqState = .busy ∧ t.done = false ∧ t.out = s.out ∧
      step t = .next u ∧ u.cmd = v ∧ u.seqState = .idle ∧ u.done = true ∧ u.err = s.err ∧ u.errcode = s.errcode ∧
      u.out = s.out ++ [.prepareScanline, .submitScanline (expectedBuffer s s.fcfg m l)]

/-! ### Reset -/

/-- 70_reset_and_hazards.md R260: the state after reset. -/
def Obligations.ResetValues : Prop :=
  State.reset.cmd = 0 ∧ State.reset.statusWord = 0 ∧ State.reset.cfgWord = 0 ∧ State.reset.fcfgWord = 0 ∧
  State.reset.resultWord = 0 ∧ State.reset.tselWord = 0 ∧ (∀ t i, State.reset.tables.get t i = none) ∧
  State.reset.seqState = .idle ∧ State.reset.held = none ∧ State.reset.out = []

/-- 70_reset_and_hazards.md R262 and R263: the reset input takes every register to its reset value, also while BUSY, and
leaves the page views, TXT, and an IDLE machine's DRV. (The inputs still to come, the parameters and the last read's
word are the model's own, assumption 25.) -/
def Obligations.ResetInputResets : Prop :=
  ∀ (r : List TimedInput) (s : State), s.inputs = { after := 0, input := .reset } :: r →
    ∃ t, step s = .next t ∧ t.cmd = 0 ∧ t.statusWord = 0 ∧ t.cfgWord = 0 ∧ t.fcfgWord = 0 ∧ t.resultWord = 0 ∧
      t.tselWord = 0 ∧ (∀ tab i, t.tables.get tab i = none) ∧ t.held = none ∧ t.out = [] ∧
      (∀ a, t.mem.read a = s.mem.read a) ∧ t.txtReady = s.txtReady ∧ (s.seqState = .idle → t.drvReady = s.drvReady) ∧
      t.params = s.params ∧ t.inputs = r

/-! ### Interleaving -/

/-- 60_exceptions.md R244, 10_state.md R25, 70_reset_and_hazards.md R272: what a host access may change while a command
runs (CFG, the error, a read's word) changes nothing of what the command goes on to do, its snapshot included. -/
def Obligations.HostAccessesDoNotDisturbACommand : Prop :=
  ∀ (job : Job) (n : Nat) (c : BitVec 7) (e : Bool) (k : ErrCode) (w : Word) (s : State),
    runSeq job n { s with cfg := c, err := e, errcode := k, rdata := w }
      = mapNext (fun t => { t with cfg := c, err := e, errcode := k, rdata := w }) (runSeq job n s)

/-- 44_frame_control.md R211 with 70_reset_and_hazards.md R276: from every state a line or frame command runs until it is
complete, an agent must answer, or an input is due; the model's own bound on one run (assumption 21) is never what ends it. -/
def Obligations.CommandRunsUntilDoneWaitingOrDue : Prop :=
  ∀ (i : Instr) (s t : State), isLongCommand i → exec i s = .next t →
    t.seqState = .idle ∨ t.waiting = true ∨ t.inputDue = true

/-- SEQ does not look at inputs to come: an input that is to land after a run changes nothing of the run but its own
waiting time. That an input names how many SEQ steps come before it, and that this number shrinks with each, is the
model's own way (assumption 1) of letting accesses land anywhere (70_reset_and_hazards.md R282). -/
def Obligations.LaterInputDoesNotDisturbARun : Prop :=
  ∀ (job : Job) (n k : Nat) (x : Input) (r : List TimedInput) (s : State), s.inputs = [] → n ≤ k →
    ∃ j, j ≤ n ∧ runSeq job n { s with inputs := { after := k, input := x } :: r }
      = mapNext (fun t => { t with inputs := { after := k - j, input := x } :: r }) (runSeq job n s)

/-- 20_memory.md R72: a read of a graphics byte answers its present value, or, only where GMW has written it while a line
decode of the running command was in progress, one it had since the command was accepted. A due GMW write records the
value it replaces while a command runs, and marks its byte while a line decode is in progress; acceptance clears both. And
where a byte was marked, the line goes out as decoded, by the closed forms, from bytes each of which is its present value
or, if marked itself, one it had since acceptance, whenever in the decode they were written (R68, assumption 24). -/
def Obligations.RacingReadIsADraw : Prop :=
  (∀ (pl : Plane) (pg : Page) (off : BitVec 13) (s : State),
    s.gread pl pg off = s.mem.read (pageAddr pl pg off) ∨
    (pageAddr pl pg off ∈ s.raced ∧ s.gread pl pg off ∈ s.staleAt (pageAddr pl pg off))) ∧
  (∀ (pl pl' : Plane) (pg pg' : Page) (off off' : BitVec 13) (v : Byte) (r : List TimedInput) (s : State),
    s.inputs = { after := 0, input := .gmw pl pg off v } :: r →
    ∃ t, step s = .next t ∧
      t.staleAt (pageAddr pl' pg' off')
        = (if s.seqState = .busy ∧ (pl', pg', off') = (pl, pg, off) then
            s.mem.read (pageAddr pl pg off) :: s.staleAt (pageAddr pl pg off)
          else s.staleAt (pageAddr pl' pg' off')) ∧
      (pageAddr pl' pg' off' ∈ t.raced ↔
        pageAddr pl' pg' off' ∈ s.raced ∨
        ((pl', pg', off') = (pl, pg, off) ∧ s.seqState = .busy ∧
          s.point ∈ [Point.lineAck, .pad, .content, .finalize, .submit, .submitAck]))) ∧
  (∀ (w : Word) (a : Nat) (s : State), (s.accept w).staleAt a = [] ∧ (s.accept w).raced = []) ∧
  ∀ (job : Job) (b : Buffer) (s : State), s.point = .submit → s.held = some b → s.raced ≠ [] →
    s.tables.loadedFor (job.lineMode s) = true →
    let possible (pl : Plane) (c : Nat) (v : Byte) : Prop :=
      let place := pageAddr pl (pageOf s.fcfg) (lineOffset s.params (job.lineIndex s) + BitVec.ofNat 13 c)
      v = s.mem.read place ∨ (v ∈ s.staleAt place ∧ place ∈ s.raced)
    ∃ (x y : Nat → Byte) (t : State), (∀ c, c < 40 → possible .aux c (x c) ∧ possible .main c (y c)) ∧
      seqStep job s = .next t ∧ t.out = s.out ++ [.submitScanline
        (lineBuffer s.fcfg (job.lineMode s) (lineContent s.params s.tables (job.lineMode s) x y))]

/-- 10_state.md R54: a due GMW write changes its own byte of its own plane and page, and no other, keeps the canonical
form, and changes no register, no request and no held buffer. -/
def Obligations.GmwWritesOneByte : Prop :=
  ∀ (pl pl' : Plane) (pg pg' : Page) (off off' : BitVec 13) (v : Byte) (r : List TimedInput) (s : State),
    s.mem.wf = true → s.inputs = { after := 0, input := .gmw pl pg off v } :: r →
    ∃ m st ra, step s = .next { s with mem := m, stale := st, raced := ra, inputs := r } ∧ m.wf = true ∧
      m.read (pageAddr pl' pg' off')
        = if (pl', pg', off') = (pl, pg, off) then v else s.mem.read (pageAddr pl' pg' off')

/-! ### Invariants and whole runs -/

/-- The invariant holds after reset. -/
def Obligations.ResetMeetsTheInvariant : Prop := State.reset.Inv

/-- Every step keeps the invariant. -/
def Obligations.StepKeepsTheInvariant : Prop := ∀ s t : State, s.Inv → step s = .next t → t.Inv

/-- 60_exceptions.md R242 with 70_reset_and_hazards.md R265: from a state that meets the invariant, with the tables loaded,
DRV's buffers large enough and no stop among the inputs to come, the step answers a next state of which all this holds
again; so no run from it stops, whatever the host does in the defined interface and whatever the graphics bytes are. -/
def Obligations.BootedMachineNeverStops : Prop :=
  ∀ s : State, s.Inv → s.booted → (∀ x ∈ s.inputs, x.input.tame = true) →
    (∃ t, step s = .next t ∧ t.Inv ∧ t.booted ∧ ∀ x ∈ t.inputs, x.input.tame = true) ∧
    ∀ n, ∃ t, Host.Core.run Sys2Proof.core n s = .next t
end

