-- ==== Sys2Proof/Laws/Memory.lean ====
section
/-! SUPPORT. The laws of the page views and the table RAMs: reading after writing, and the canonical form. -/

namespace Sys2Proof.Laws

open Sys2Proof.Machine

/-! ### Page views -/

theorem memory_wfFrom_mono {m : Memory} {lo lo' : Nat} (h : Memory.wfFrom lo m = true) (hl : lo' ≤ lo) :
    Memory.wfFrom lo' m = true := by
  cases m with
  | nil => rfl
  | cons c r =>
    obtain ⟨a, v⟩ := c
    simp only [Memory.wfFrom, Bool.and_eq_true, decide_eq_true_eq] at h ⊢
    exact ⟨⟨⟨by omega, h.1.1.2⟩, h.1.2⟩, h.2⟩

/-- Below the first address of a canonical list, every byte is 0x00. -/
theorem memory_read_below {m : Memory} {lo a : Nat} (h : Memory.wfFrom lo m = true) (ha : a < lo) :
    Memory.read m a = 0 := by
  induction m generalizing lo with
  | nil => rfl
  | cons c r ih =>
    obtain ⟨b, v⟩ := c
    simp only [Memory.wfFrom, Bool.and_eq_true, decide_eq_true_eq] at h
    simp only [Memory.read]
    rw [if_neg (by omega)]
    exact ih h.2 (by omega)

theorem memory_write_wfFrom {m : Memory} {lo a : Nat} (v : Byte) (h : Memory.wfFrom lo m = true) (hlo : lo ≤ a)
    (ha : a < memorySize) : Memory.wfFrom lo (Memory.write m a v) = true := by
  induction m generalizing lo with
  | nil =>
    simp only [Memory.write]
    split
    · rfl
    · simp_all [Memory.wfFrom]
  | cons c r ih =>
    obtain ⟨b, x⟩ := c
    have h' := h
    simp only [Memory.wfFrom, Bool.and_eq_true, decide_eq_true_eq] at h
    simp only [Memory.write]
    split
    · split
      · exact h'
      · simp_all [Memory.wfFrom]
    · split
      · subst_vars
        split
        · exact memory_wfFrom_mono h.2 (by omega)
        · simp_all [Memory.wfFrom]
      · simp only [Memory.wfFrom, Bool.and_eq_true, decide_eq_true_eq]
        exact ⟨⟨⟨by omega, h.1.1.2⟩, h.1.2⟩, ih h.2 (by omega)⟩

/-- A write inside the views keeps the canonical form. -/
theorem memory_write_wf {m : Memory} {a : Nat} (v : Byte) (h : Memory.wf m = true) (ha : a < memorySize) :
    Memory.wf (Memory.write m a v) = true :=
  memory_write_wfFrom v h (Nat.zero_le _) ha

theorem memory_read_write_from {m : Memory} {lo : Nat} (h : Memory.wfFrom lo m = true) (a b : Nat) (v : Byte) :
    Memory.read (Memory.write m a v) b = if a = b then v else Memory.read m b := by
  induction m generalizing lo with
  | nil =>
    simp only [Memory.write]
    split <;> simp_all [Memory.read]
  | cons c r ih =>
    obtain ⟨d, x⟩ := c
    have h' := h
    simp only [Memory.wfFrom, Bool.and_eq_true, decide_eq_true_eq] at h
    have hbelow : ∀ y, y < d + 1 → Memory.read r y = 0 := fun y hy => memory_read_below h.2 hy
    simp only [Memory.write]
    split
    · split
      · by_cases hab : a = b
        · subst hab
          simp only [Memory.read, if_true]
          rw [if_neg (by omega), hbelow a (by omega)]
          simp_all
        · simp [Memory.read, hab]
      · simp [Memory.read]
    · split
      · subst_vars
        split
        · by_cases hab : d = b
          · subst hab
            simp_all
          · simp [Memory.read, hab]
        · by_cases hab : d = b <;> simp [Memory.read, hab]
      · by_cases hdb : d = b
        · subst hdb
          simp only [Memory.read, if_true]
          rw [if_neg (by omega)]
        · simp only [Memory.read, if_neg hdb]
          exact ih h.2

/-- Reading after writing a canonical list: the byte written, or the byte that was there. -/
theorem memory_read_write {m : Memory} (h : Memory.wf m = true) (a b : Nat) (v : Byte) :
    Memory.read (Memory.write m a v) b = if a = b then v else Memory.read m b :=
  memory_read_write_from h a b v

/-- The four views lie beside each other below 32768. -/
theorem pageAddr_lt (pl : Plane) (pg : Page) (off : BitVec 13) : pageAddr pl pg off < memorySize := by
  have := off.isLt
  cases pl <;> cases pg <;> simp only [pageAddr, memorySize] <;> omega

/-- No two bytes of the views share a place. -/
theorem pageAddr_inj {pl pl' : Plane} {pg pg' : Page} {off off' : BitVec 13}
    (h : pageAddr pl pg off = pageAddr pl' pg' off') : pl = pl' ∧ pg = pg' ∧ off = off' := by
  have h1 := off.isLt
  have h2 := off'.isLt
  cases pl <;> cases pg <;> cases pl' <;> cases pg' <;> simp only [pageAddr] at h <;>
    first
      | exact ⟨rfl, rfl, BitVec.eq_of_toNat_eq (by omega)⟩
      | omega

/-! ### Table RAMs -/

theorem ram_get_set {w : Nat} (r : Ram w) (i j : Nat) (v : BitVec w) :
    (r.set i v).get j = if i = j then some v else r.get j := by
  induction r with
  | nil => simp only [Ram.set, Ram.get]
  | cons e r ih =>
    obtain ⟨k, x⟩ := e
    simp only [Ram.set]
    split
    · simp only [Ram.get]
    · split
      · subst_vars
        by_cases hkj : k = j <;> simp [Ram.get, hkj]
      · by_cases hkj : k = j
        · subst hkj
          simp only [Ram.get, if_true]
          rw [if_neg (by omega)]
        · simp only [Ram.get, if_neg hkj, ih]

theorem ram_wfFrom_mono {w size lo lo' : Nat} {r : Ram w} (h : Ram.wfFrom size lo r = true) (hl : lo' ≤ lo) :
    Ram.wfFrom size lo' r = true := by
  cases r with
  | nil => rfl
  | cons e r =>
    obtain ⟨i, v⟩ := e
    simp only [Ram.wfFrom, Bool.and_eq_true, decide_eq_true_eq] at h ⊢
    exact ⟨⟨by omega, h.1.2⟩, h.2⟩

theorem ram_set_wfFrom {w size lo i : Nat} {r : Ram w} (v : BitVec w) (h : Ram.wfFrom size lo r = true)
    (hlo : lo ≤ i) (hi : i < size) : Ram.wfFrom size lo (r.set i v) = true := by
  induction r generalizing lo with
  | nil => simp_all [Ram.set, Ram.wfFrom]
  | cons e r ih =>
    obtain ⟨j, x⟩ := e
    have h' := h
    simp only [Ram.wfFrom, Bool.and_eq_true, decide_eq_true_eq] at h
    simp only [Ram.set]
    split
    · simp only [Ram.wfFrom, Bool.and_eq_true, decide_eq_true_eq]
      exact ⟨⟨hlo, hi⟩, ⟨by omega, h.1.2⟩, h.2⟩
    · split
      · subst_vars
        simp only [Ram.wfFrom, Bool.and_eq_true, decide_eq_true_eq]
        exact ⟨⟨hlo, hi⟩, h.2⟩
      · simp only [Ram.wfFrom, Bool.and_eq_true, decide_eq_true_eq]
        exact ⟨⟨h.1.1, h.1.2⟩, ih h.2 (by omega)⟩

/-- A TDATA write in range keeps every table canonical. -/
theorem tables_set_wf {tb : Tables} {t : TableId} {i : Nat} (v : Word) (h : tb.wf = true) (hi : i < t.size) :
    (tb.set t i v).wf = true := by
  simp only [Tables.wf, Bool.and_eq_true] at h ⊢
  obtain ⟨⟨⟨⟨⟨h1, h2⟩, h3⟩, h4⟩, h5⟩, h6⟩ := h
  cases t with
  | dot => exact ⟨⟨⟨⟨⟨ram_set_wfFrom _ h1 (Nat.zero_le _) hi, h2⟩, h3⟩, h4⟩, h5⟩, h6⟩
  | art => exact ⟨⟨⟨⟨⟨h1, ram_set_wfFrom _ h2 (Nat.zero_le _) hi⟩, h3⟩, h4⟩, h5⟩, h6⟩
  | pal16 => exact ⟨⟨⟨⟨⟨h1, h2⟩, ram_set_wfFrom _ h3 (Nat.zero_le _) hi⟩, h4⟩, h5⟩, h6⟩
  | mono4 => exact ⟨⟨⟨⟨⟨h1, h2⟩, h3⟩, ram_set_wfFrom _ h4 (Nat.zero_le _) hi⟩, h5⟩, h6⟩
  | monobw => exact ⟨⟨⟨⟨⟨h1, h2⟩, h3⟩, h4⟩, ram_set_wfFrom _ h5 (Nat.zero_le _) hi⟩, h6⟩
  | lores16 => exact ⟨⟨⟨⟨⟨h1, h2⟩, h3⟩, h4⟩, h5⟩, ram_set_wfFrom _ h6 (Nat.zero_le _) hi⟩

/-- A written entry is fetched. -/
theorem fetch_of_loaded {w n : Nat} {r : Ram w} (h : Ram.loaded n r = true) (t : TableId) {i : Nat} (hi : i < n) :
    r.fetch t i = .ok (r.at i) := by
  simp only [Ram.loaded, List.all_eq_true, List.mem_range] at h
  obtain ⟨v, hv⟩ := Option.isSome_iff_exists.mp (h i hi)
  simp [Ram.fetch, Ram.at, hv]

/-- A table read after a write: the entry written holds the low bits of the word, every other entry is as before. -/
theorem tables_get_set (tb : Tables) (t t' : TableId) (i i' : Nat) (v : Word) :
    (tb.set t i v).get t' i'
      = if (t', i') = (t, i) then some (BitVec.ofNat 32 (v.toNat % 2 ^ t.width)) else tb.get t' i' := by
  have hw : ∀ n, n ≤ 32 → (v.setWidth n).setWidth 32 = BitVec.ofNat 32 (v.toNat % 2 ^ n) := by
    intro n hn
    apply BitVec.eq_of_toNat_eq
    simp
  by_cases h : i' = i
  · subst h
    cases t <;> cases t' <;> simp [Tables.set, Tables.get, ram_get_set, TableId.width] <;> exact hw _ (by omega)
  · have h' : ¬ i = i' := fun hh => h hh.symm
    cases t <;> cases t' <;> simp [Tables.set, Tables.get, ram_get_set, h, h']

/-! ### Tables listed as a function of the index -/

theorem ram_get_map {w : Nat} (g : Nat → BitVec w) {l : List Nat} {k : Nat} (h : k ∈ l) :
    Ram.get (l.map fun i => (i, g i)) k = some (g k) := by
  induction l with
  | nil => cases h
  | cons i r ih =>
    simp only [List.map_cons, Ram.get]
    split
    · simp_all
    · exact ih (by rcases List.mem_cons.1 h with rfl | h' <;> simp_all)

/-- Such a table is loaded. -/
theorem ram_loaded_map {w : Nat} (g : Nat → BitVec w) (n : Nat) :
    Ram.loaded n ((List.range n).map fun i => (i, g i)) = true := by
  simp only [Ram.loaded, List.all_eq_true]
  intro i hi
  simp [ram_get_map g hi]

end Sys2Proof.Laws
end

