-- ==== Sys2Proof/Laws/State.lean ====
section
/-! SUPPORT. One lemma for each field of State and each update of Machine/Ops.lean, so that no proof unfolds a record update. -/

namespace Sys2Proof.Laws

open Sys2Proof.Machine

/-! ### State.raise -/

@[simp] theorem raise_params (s : State) (e : ErrCode) : (s.raise e).params = s.params := rfl
@[simp] theorem raise_cmd (s : State) (e : ErrCode) : (s.raise e).cmd = s.cmd := rfl
@[simp] theorem raise_seqState (s : State) (e : ErrCode) : (s.raise e).seqState = s.seqState := rfl
@[simp] theorem raise_done (s : State) (e : ErrCode) : (s.raise e).done = s.done := rfl
@[simp] theorem raise_err (s : State) (e : ErrCode) : (s.raise e).err = true := rfl
@[simp] theorem raise_errcode (s : State) (e : ErrCode) : (s.raise e).errcode = if s.err then s.errcode else e := rfl
@[simp] theorem raise_mode (s : State) (e : ErrCode) : (s.raise e).mode = s.mode := rfl
@[simp] theorem raise_cfg (s : State) (e : ErrCode) : (s.raise e).cfg = s.cfg := rfl
@[simp] theorem raise_issueCfg (s : State) (e : ErrCode) : (s.raise e).issueCfg = s.issueCfg := rfl
@[simp] theorem raise_fcfg (s : State) (e : ErrCode) : (s.raise e).fcfg = s.fcfg := rfl
@[simp] theorem raise_result (s : State) (e : ErrCode) : (s.raise e).result = s.result := rfl
@[simp] theorem raise_tselTable (s : State) (e : ErrCode) : (s.raise e).tselTable = s.tselTable := rfl
@[simp] theorem raise_tselIndex (s : State) (e : ErrCode) : (s.raise e).tselIndex = s.tselIndex := rfl
@[simp] theorem raise_tables (s : State) (e : ErrCode) : (s.raise e).tables = s.tables := rfl
@[simp] theorem raise_dp (s : State) (e : ErrCode) : (s.raise e).dp = s.dp := rfl
@[simp] theorem raise_point (s : State) (e : ErrCode) : (s.raise e).point = s.point := rfl
@[simp] theorem raise_lctr (s : State) (e : ErrCode) : (s.raise e).lctr = s.lctr := rfl
@[simp] theorem raise_trow (s : State) (e : ErrCode) : (s.raise e).trow = s.trow := rfl
@[simp] theorem raise_col (s : State) (e : ErrCode) : (s.raise e).col = s.col := rfl
@[simp] theorem raise_widx (s : State) (e : ErrCode) : (s.raise e).widx = s.widx := rfl
@[simp] theorem raise_held (s : State) (e : ErrCode) : (s.raise e).held = s.held := rfl
@[simp] theorem raise_out (s : State) (e : ErrCode) : (s.raise e).out = s.out := rfl
@[simp] theorem raise_mem (s : State) (e : ErrCode) : (s.raise e).mem = s.mem := rfl
@[simp] theorem raise_stale (s : State) (e : ErrCode) : (s.raise e).stale = s.stale := rfl
@[simp] theorem raise_raced (s : State) (e : ErrCode) : (s.raise e).raced = s.raced := rfl
@[simp] theorem raise_drvReady (s : State) (e : ErrCode) : (s.raise e).drvReady = s.drvReady := rfl
@[simp] theorem raise_txtReady (s : State) (e : ErrCode) : (s.raise e).txtReady = s.txtReady := rfl
@[simp] theorem raise_inputs (s : State) (e : ErrCode) : (s.raise e).inputs = s.inputs := rfl
@[simp] theorem raise_rdata (s : State) (e : ErrCode) : (s.raise e).rdata = s.rdata := rfl
@[simp] theorem raise_draws (s : State) (e : ErrCode) : (s.raise e).draws = s.draws := rfl

/-! ### State.clearErr -/

@[simp] theorem clearErr_params (s : State) : s.clearErr.params = s.params := rfl
@[simp] theorem clearErr_cmd (s : State) : s.clearErr.cmd = s.cmd := rfl
@[simp] theorem clearErr_seqState (s : State) : s.clearErr.seqState = s.seqState := rfl
@[simp] theorem clearErr_done (s : State) : s.clearErr.done = s.done := rfl
@[simp] theorem clearErr_err (s : State) : s.clearErr.err = false := rfl
@[simp] theorem clearErr_errcode (s : State) : s.clearErr.errcode = .none := rfl
@[simp] theorem clearErr_mode (s : State) : s.clearErr.mode = s.mode := rfl
@[simp] theorem clearErr_cfg (s : State) : s.clearErr.cfg = s.cfg := rfl
@[simp] theorem clearErr_issueCfg (s : State) : s.clearErr.issueCfg = s.issueCfg := rfl
@[simp] theorem clearErr_fcfg (s : State) : s.clearErr.fcfg = s.fcfg := rfl
@[simp] theorem clearErr_result (s : State) : s.clearErr.result = s.result := rfl
@[simp] theorem clearErr_tselTable (s : State) : s.clearErr.tselTable = s.tselTable := rfl
@[simp] theorem clearErr_tselIndex (s : State) : s.clearErr.tselIndex = s.tselIndex := rfl
@[simp] theorem clearErr_tables (s : State) : s.clearErr.tables = s.tables := rfl
@[simp] theorem clearErr_dp (s : State) : s.clearErr.dp = s.dp := rfl
@[simp] theorem clearErr_point (s : State) : s.clearErr.point = s.point := rfl
@[simp] theorem clearErr_lctr (s : State) : s.clearErr.lctr = s.lctr := rfl
@[simp] theorem clearErr_trow (s : State) : s.clearErr.trow = s.trow := rfl
@[simp] theorem clearErr_col (s : State) : s.clearErr.col = s.col := rfl
@[simp] theorem clearErr_widx (s : State) : s.clearErr.widx = s.widx := rfl
@[simp] theorem clearErr_held (s : State) : s.clearErr.held = s.held := rfl
@[simp] theorem clearErr_out (s : State) : s.clearErr.out = s.out := rfl
@[simp] theorem clearErr_mem (s : State) : s.clearErr.mem = s.mem := rfl
@[simp] theorem clearErr_stale (s : State) : s.clearErr.stale = s.stale := rfl
@[simp] theorem clearErr_raced (s : State) : s.clearErr.raced = s.raced := rfl
@[simp] theorem clearErr_drvReady (s : State) : s.clearErr.drvReady = s.drvReady := rfl
@[simp] theorem clearErr_txtReady (s : State) : s.clearErr.txtReady = s.txtReady := rfl
@[simp] theorem clearErr_inputs (s : State) : s.clearErr.inputs = s.inputs := rfl
@[simp] theorem clearErr_rdata (s : State) : s.clearErr.rdata = s.rdata := rfl
@[simp] theorem clearErr_draws (s : State) : s.clearErr.draws = s.draws := rfl

/-! ### State.accept -/

@[simp] theorem accept_params (s : State) (v : Word) : (s.accept v).params = s.params := rfl
@[simp] theorem accept_cmd (s : State) (v : Word) : (s.accept v).cmd = v := rfl
@[simp] theorem accept_seqState (s : State) (v : Word) : (s.accept v).seqState = .busy := rfl
@[simp] theorem accept_done (s : State) (v : Word) : (s.accept v).done = false := rfl
@[simp] theorem accept_err (s : State) (v : Word) : (s.accept v).err = s.err := rfl
@[simp] theorem accept_errcode (s : State) (v : Word) : (s.accept v).errcode = s.errcode := rfl
@[simp] theorem accept_mode (s : State) (v : Word) : (s.accept v).mode = s.mode := rfl
@[simp] theorem accept_cfg (s : State) (v : Word) : (s.accept v).cfg = s.cfg := rfl
@[simp] theorem accept_issueCfg (s : State) (v : Word) : (s.accept v).issueCfg = s.cfg := rfl
@[simp] theorem accept_fcfg (s : State) (v : Word) : (s.accept v).fcfg = s.fcfg := rfl
@[simp] theorem accept_result (s : State) (v : Word) : (s.accept v).result = s.result := rfl
@[simp] theorem accept_tselTable (s : State) (v : Word) : (s.accept v).tselTable = s.tselTable := rfl
@[simp] theorem accept_tselIndex (s : State) (v : Word) : (s.accept v).tselIndex = s.tselIndex := rfl
@[simp] theorem accept_tables (s : State) (v : Word) : (s.accept v).tables = s.tables := rfl
@[simp] theorem accept_dp (s : State) (v : Word) : (s.accept v).dp = s.dp := rfl
@[simp] theorem accept_point (s : State) (v : Word) : (s.accept v).point = .start := rfl
@[simp] theorem accept_lctr (s : State) (v : Word) : (s.accept v).lctr = s.lctr := rfl
@[simp] theorem accept_trow (s : State) (v : Word) : (s.accept v).trow = s.trow := rfl
@[simp] theorem accept_col (s : State) (v : Word) : (s.accept v).col = s.col := rfl
@[simp] theorem accept_widx (s : State) (v : Word) : (s.accept v).widx = s.widx := rfl
@[simp] theorem accept_held (s : State) (v : Word) : (s.accept v).held = s.held := rfl
@[simp] theorem accept_out (s : State) (v : Word) : (s.accept v).out = s.out := rfl
@[simp] theorem accept_mem (s : State) (v : Word) : (s.accept v).mem = s.mem := rfl
@[simp] theorem accept_stale (s : State) (v : Word) : (s.accept v).stale = [] := rfl
@[simp] theorem accept_raced (s : State) (v : Word) : (s.accept v).raced = [] := rfl
@[simp] theorem accept_drvReady (s : State) (v : Word) : (s.accept v).drvReady = s.drvReady := rfl
@[simp] theorem accept_txtReady (s : State) (v : Word) : (s.accept v).txtReady = s.txtReady := rfl
@[simp] theorem accept_inputs (s : State) (v : Word) : (s.accept v).inputs = s.inputs := rfl
@[simp] theorem accept_rdata (s : State) (v : Word) : (s.accept v).rdata = s.rdata := rfl
@[simp] theorem accept_draws (s : State) (v : Word) : (s.accept v).draws = s.draws := rfl

/-! ### State.finish -/

@[simp] theorem finish_params (s : State) : s.finish.params = s.params := rfl
@[simp] theorem finish_cmd (s : State) : s.finish.cmd = s.cmd := rfl
@[simp] theorem finish_seqState (s : State) : s.finish.seqState = .idle := rfl
@[simp] theorem finish_done (s : State) : s.finish.done = true := rfl
@[simp] theorem finish_err (s : State) : s.finish.err = s.err := rfl
@[simp] theorem finish_errcode (s : State) : s.finish.errcode = s.errcode := rfl
@[simp] theorem finish_mode (s : State) : s.finish.mode = s.mode := rfl
@[simp] theorem finish_cfg (s : State) : s.finish.cfg = s.cfg := rfl
@[simp] theorem finish_issueCfg (s : State) : s.finish.issueCfg = s.issueCfg := rfl
@[simp] theorem finish_fcfg (s : State) : s.finish.fcfg = s.fcfg := rfl
@[simp] theorem finish_result (s : State) : s.finish.result = s.result := rfl
@[simp] theorem finish_tselTable (s : State) : s.finish.tselTable = s.tselTable := rfl
@[simp] theorem finish_tselIndex (s : State) : s.finish.tselIndex = s.tselIndex := rfl
@[simp] theorem finish_tables (s : State) : s.finish.tables = s.tables := rfl
@[simp] theorem finish_dp (s : State) : s.finish.dp = s.dp := rfl
@[simp] theorem finish_point (s : State) : s.finish.point = s.point := rfl
@[simp] theorem finish_lctr (s : State) : s.finish.lctr = s.lctr := rfl
@[simp] theorem finish_trow (s : State) : s.finish.trow = s.trow := rfl
@[simp] theorem finish_col (s : State) : s.finish.col = s.col := rfl
@[simp] theorem finish_widx (s : State) : s.finish.widx = s.widx := rfl
@[simp] theorem finish_held (s : State) : s.finish.held = s.held := rfl
@[simp] theorem finish_out (s : State) : s.finish.out = s.out := rfl
@[simp] theorem finish_mem (s : State) : s.finish.mem = s.mem := rfl
@[simp] theorem finish_stale (s : State) : s.finish.stale = s.stale := rfl
@[simp] theorem finish_raced (s : State) : s.finish.raced = s.raced := rfl
@[simp] theorem finish_drvReady (s : State) : s.finish.drvReady = s.drvReady := rfl
@[simp] theorem finish_txtReady (s : State) : s.finish.txtReady = s.txtReady := rfl
@[simp] theorem finish_inputs (s : State) : s.finish.inputs = s.inputs := rfl
@[simp] theorem finish_rdata (s : State) : s.finish.rdata = s.rdata := rfl
@[simp] theorem finish_draws (s : State) : s.finish.draws = s.draws := rfl

/-! ### State.snapshot -/

@[simp] theorem snapshot_params (s : State) : s.snapshot.params = s.params := rfl
@[simp] theorem snapshot_cmd (s : State) : s.snapshot.cmd = s.cmd := rfl
@[simp] theorem snapshot_seqState (s : State) : s.snapshot.seqState = s.seqState := rfl
@[simp] theorem snapshot_done (s : State) : s.snapshot.done = s.done := rfl
@[simp] theorem snapshot_err (s : State) : s.snapshot.err = s.err := rfl
@[simp] theorem snapshot_errcode (s : State) : s.snapshot.errcode = s.errcode := rfl
@[simp] theorem snapshot_mode (s : State) : s.snapshot.mode = deriveMode s.issueCfg := rfl
@[simp] theorem snapshot_cfg (s : State) : s.snapshot.cfg = s.cfg := rfl
@[simp] theorem snapshot_issueCfg (s : State) : s.snapshot.issueCfg = s.issueCfg := rfl
@[simp] theorem snapshot_fcfg (s : State) : s.snapshot.fcfg = s.issueCfg := rfl
@[simp] theorem snapshot_result (s : State) : s.snapshot.result = s.result := rfl
@[simp] theorem snapshot_tselTable (s : State) : s.snapshot.tselTable = s.tselTable := rfl
@[simp] theorem snapshot_tselIndex (s : State) : s.snapshot.tselIndex = s.tselIndex := rfl
@[simp] theorem snapshot_tables (s : State) : s.snapshot.tables = s.tables := rfl
@[simp] theorem snapshot_dp (s : State) : s.snapshot.dp = s.dp := rfl
@[simp] theorem snapshot_point (s : State) : s.snapshot.point = s.point := rfl
@[simp] theorem snapshot_lctr (s : State) : s.snapshot.lctr = s.lctr := rfl
@[simp] theorem snapshot_trow (s : State) : s.snapshot.trow = s.trow := rfl
@[simp] theorem snapshot_col (s : State) : s.snapshot.col = s.col := rfl
@[simp] theorem snapshot_widx (s : State) : s.snapshot.widx = s.widx := rfl
@[simp] theorem snapshot_held (s : State) : s.snapshot.held = s.held := rfl
@[simp] theorem snapshot_out (s : State) : s.snapshot.out = s.out := rfl
@[simp] theorem snapshot_mem (s : State) : s.snapshot.mem = s.mem := rfl
@[simp] theorem snapshot_stale (s : State) : s.snapshot.stale = s.stale := rfl
@[simp] theorem snapshot_raced (s : State) : s.snapshot.raced = s.raced := rfl
@[simp] theorem snapshot_drvReady (s : State) : s.snapshot.drvReady = s.drvReady := rfl
@[simp] theorem snapshot_txtReady (s : State) : s.snapshot.txtReady = s.txtReady := rfl
@[simp] theorem snapshot_inputs (s : State) : s.snapshot.inputs = s.inputs := rfl
@[simp] theorem snapshot_rdata (s : State) : s.snapshot.rdata = s.rdata := rfl
@[simp] theorem snapshot_draws (s : State) : s.snapshot.draws = s.draws := rfl

/-! ### State.request -/

@[simp] theorem request_params (s : State) (r : Request) (p : Point) : (s.request r p).params = s.params := rfl
@[simp] theorem request_cmd (s : State) (r : Request) (p : Point) : (s.request r p).cmd = s.cmd := rfl
@[simp] theorem request_seqState (s : State) (r : Request) (p : Point) : (s.request r p).seqState = s.seqState := rfl
@[simp] theorem request_done (s : State) (r : Request) (p : Point) : (s.request r p).done = s.done := rfl
@[simp] theorem request_err (s : State) (r : Request) (p : Point) : (s.request r p).err = s.err := rfl
@[simp] theorem request_errcode (s : State) (r : Request) (p : Point) : (s.request r p).errcode = s.errcode := rfl
@[simp] theorem request_mode (s : State) (r : Request) (p : Point) : (s.request r p).mode = s.mode := rfl
@[simp] theorem request_cfg (s : State) (r : Request) (p : Point) : (s.request r p).cfg = s.cfg := rfl
@[simp] theorem request_issueCfg (s : State) (r : Request) (p : Point) : (s.request r p).issueCfg = s.issueCfg := rfl
@[simp] theorem request_fcfg (s : State) (r : Request) (p : Point) : (s.request r p).fcfg = s.fcfg := rfl
@[simp] theorem request_result (s : State) (r : Request) (p : Point) : (s.request r p).result = s.result := rfl
@[simp] theorem request_tselTable (s : State) (r : Request) (p : Point) : (s.request r p).tselTable = s.tselTable := rfl
@[simp] theorem request_tselIndex (s : State) (r : Request) (p : Point) : (s.request r p).tselIndex = s.tselIndex := rfl
@[simp] theorem request_tables (s : State) (r : Request) (p : Point) : (s.request r p).tables = s.tables := rfl
@[simp] theorem request_dp (s : State) (r : Request) (p : Point) : (s.request r p).dp = s.dp := rfl
@[simp] theorem request_point (s : State) (r : Request) (p : Point) : (s.request r p).point = p := rfl
@[simp] theorem request_lctr (s : State) (r : Request) (p : Point) : (s.request r p).lctr = s.lctr := rfl
@[simp] theorem request_trow (s : State) (r : Request) (p : Point) : (s.request r p).trow = s.trow := rfl
@[simp] theorem request_col (s : State) (r : Request) (p : Point) : (s.request r p).col = s.col := rfl
@[simp] theorem request_widx (s : State) (r : Request) (p : Point) : (s.request r p).widx = s.widx := rfl
@[simp] theorem request_held (s : State) (r : Request) (p : Point) : (s.request r p).held = s.held := rfl
@[simp] theorem request_out (s : State) (r : Request) (p : Point) : (s.request r p).out = s.out ++ [r] := rfl
@[simp] theorem request_mem (s : State) (r : Request) (p : Point) : (s.request r p).mem = s.mem := rfl
@[simp] theorem request_stale (s : State) (r : Request) (p : Point) : (s.request r p).stale = s.stale := rfl
@[simp] theorem request_raced (s : State) (r : Request) (p : Point) : (s.request r p).raced = s.raced := rfl
@[simp] theorem request_drvReady (s : State) (r : Request) (p : Point) : (s.request r p).drvReady = s.drvReady := rfl
@[simp] theorem request_txtReady (s : State) (r : Request) (p : Point) : (s.request r p).txtReady = s.txtReady := rfl
@[simp] theorem request_inputs (s : State) (r : Request) (p : Point) : (s.request r p).inputs = s.inputs := rfl
@[simp] theorem request_rdata (s : State) (r : Request) (p : Point) : (s.request r p).rdata = s.rdata := rfl
@[simp] theorem request_draws (s : State) (r : Request) (p : Point) : (s.request r p).draws = s.draws := rfl

/-! ### State.takeBuffer -/

@[simp] theorem takeBuffer_params (s : State) : s.takeBuffer.params = s.params := rfl
@[simp] theorem takeBuffer_cmd (s : State) : s.takeBuffer.cmd = s.cmd := rfl
@[simp] theorem takeBuffer_seqState (s : State) : s.takeBuffer.seqState = s.seqState := rfl
@[simp] theorem takeBuffer_done (s : State) : s.takeBuffer.done = s.done := rfl
@[simp] theorem takeBuffer_err (s : State) : s.takeBuffer.err = s.err := rfl
@[simp] theorem takeBuffer_errcode (s : State) : s.takeBuffer.errcode = s.errcode := rfl
@[simp] theorem takeBuffer_mode (s : State) : s.takeBuffer.mode = s.mode := rfl
@[simp] theorem takeBuffer_cfg (s : State) : s.takeBuffer.cfg = s.cfg := rfl
@[simp] theorem takeBuffer_issueCfg (s : State) : s.takeBuffer.issueCfg = s.issueCfg := rfl
@[simp] theorem takeBuffer_fcfg (s : State) : s.takeBuffer.fcfg = s.fcfg := rfl
@[simp] theorem takeBuffer_result (s : State) : s.takeBuffer.result = s.result := rfl
@[simp] theorem takeBuffer_tselTable (s : State) : s.takeBuffer.tselTable = s.tselTable := rfl
@[simp] theorem takeBuffer_tselIndex (s : State) : s.takeBuffer.tselIndex = s.tselIndex := rfl
@[simp] theorem takeBuffer_tables (s : State) : s.takeBuffer.tables = s.tables := rfl
@[simp] theorem takeBuffer_dp (s : State) : s.takeBuffer.dp = s.dp := rfl
@[simp] theorem takeBuffer_point (s : State) : s.takeBuffer.point = .pad := rfl
@[simp] theorem takeBuffer_lctr (s : State) : s.takeBuffer.lctr = s.lctr := rfl
@[simp] theorem takeBuffer_trow (s : State) : s.takeBuffer.trow = s.trow := rfl
@[simp] theorem takeBuffer_col (s : State) : s.takeBuffer.col = s.col := rfl
@[simp] theorem takeBuffer_widx (s : State) : s.takeBuffer.widx = 0 := rfl
@[simp] theorem takeBuffer_held (s : State) : s.takeBuffer.held = some s.lent := rfl
@[simp] theorem takeBuffer_out (s : State) : s.takeBuffer.out = s.out := rfl
@[simp] theorem takeBuffer_mem (s : State) : s.takeBuffer.mem = s.mem := rfl
@[simp] theorem takeBuffer_stale (s : State) : s.takeBuffer.stale = s.stale := rfl
@[simp] theorem takeBuffer_raced (s : State) : s.takeBuffer.raced = s.raced := rfl
@[simp] theorem takeBuffer_drvReady (s : State) : s.takeBuffer.drvReady = s.drvReady := rfl
@[simp] theorem takeBuffer_txtReady (s : State) : s.takeBuffer.txtReady = s.txtReady := rfl
@[simp] theorem takeBuffer_inputs (s : State) : s.takeBuffer.inputs = s.inputs := rfl
@[simp] theorem takeBuffer_rdata (s : State) : s.takeBuffer.rdata = s.rdata := rfl
@[simp] theorem takeBuffer_draws (s : State) : s.takeBuffer.draws = s.draws + 1 := rfl

/-! ### State.emits -/

@[simp] theorem emits_params (s : State) (ws : List Word) : (s.emits ws).params = s.params := rfl
@[simp] theorem emits_cmd (s : State) (ws : List Word) : (s.emits ws).cmd = s.cmd := rfl
@[simp] theorem emits_seqState (s : State) (ws : List Word) : (s.emits ws).seqState = s.seqState := rfl
@[simp] theorem emits_done (s : State) (ws : List Word) : (s.emits ws).done = s.done := rfl
@[simp] theorem emits_err (s : State) (ws : List Word) : (s.emits ws).err = s.err := rfl
@[simp] theorem emits_errcode (s : State) (ws : List Word) : (s.emits ws).errcode = s.errcode := rfl
@[simp] theorem emits_mode (s : State) (ws : List Word) : (s.emits ws).mode = s.mode := rfl
@[simp] theorem emits_cfg (s : State) (ws : List Word) : (s.emits ws).cfg = s.cfg := rfl
@[simp] theorem emits_issueCfg (s : State) (ws : List Word) : (s.emits ws).issueCfg = s.issueCfg := rfl
@[simp] theorem emits_fcfg (s : State) (ws : List Word) : (s.emits ws).fcfg = s.fcfg := rfl
@[simp] theorem emits_result (s : State) (ws : List Word) : (s.emits ws).result = s.result := rfl
@[simp] theorem emits_tselTable (s : State) (ws : List Word) : (s.emits ws).tselTable = s.tselTable := rfl
@[simp] theorem emits_tselIndex (s : State) (ws : List Word) : (s.emits ws).tselIndex = s.tselIndex := rfl
@[simp] theorem emits_tables (s : State) (ws : List Word) : (s.emits ws).tables = s.tables := rfl
@[simp] theorem emits_dp (s : State) (ws : List Word) : (s.emits ws).dp = s.dp := rfl
@[simp] theorem emits_point (s : State) (ws : List Word) : (s.emits ws).point = s.point := rfl
@[simp] theorem emits_lctr (s : State) (ws : List Word) : (s.emits ws).lctr = s.lctr := rfl
@[simp] theorem emits_trow (s : State) (ws : List Word) : (s.emits ws).trow = s.trow := rfl
@[simp] theorem emits_col (s : State) (ws : List Word) : (s.emits ws).col = s.col := rfl
@[simp] theorem emits_widx (s : State) (ws : List Word) : (s.emits ws).widx = s.widx + ws.length := rfl
@[simp] theorem emits_held (s : State) (ws : List Word) : (s.emits ws).held = s.held.map (·.append ws) := rfl
@[simp] theorem emits_out (s : State) (ws : List Word) : (s.emits ws).out = s.out := rfl
@[simp] theorem emits_mem (s : State) (ws : List Word) : (s.emits ws).mem = s.mem := rfl
@[simp] theorem emits_stale (s : State) (ws : List Word) : (s.emits ws).stale = s.stale := rfl
@[simp] theorem emits_raced (s : State) (ws : List Word) : (s.emits ws).raced = s.raced := rfl
@[simp] theorem emits_drvReady (s : State) (ws : List Word) : (s.emits ws).drvReady = s.drvReady := rfl
@[simp] theorem emits_txtReady (s : State) (ws : List Word) : (s.emits ws).txtReady = s.txtReady := rfl
@[simp] theorem emits_inputs (s : State) (ws : List Word) : (s.emits ws).inputs = s.inputs := rfl
@[simp] theorem emits_rdata (s : State) (ws : List Word) : (s.emits ws).rdata = s.rdata := rfl
@[simp] theorem emits_draws (s : State) (ws : List Word) : (s.emits ws).draws = s.draws := rfl

/-! ### State.rewind -/

@[simp] theorem rewind_params (s : State) : s.rewind.params = s.params := rfl
@[simp] theorem rewind_cmd (s : State) : s.rewind.cmd = s.cmd := rfl
@[simp] theorem rewind_seqState (s : State) : s.rewind.seqState = s.seqState := rfl
@[simp] theorem rewind_done (s : State) : s.rewind.done = s.done := rfl
@[simp] theorem rewind_err (s : State) : s.rewind.err = s.err := rfl
@[simp] theorem rewind_errcode (s : State) : s.rewind.errcode = s.errcode := rfl
@[simp] theorem rewind_mode (s : State) : s.rewind.mode = s.mode := rfl
@[simp] theorem rewind_cfg (s : State) : s.rewind.cfg = s.cfg := rfl
@[simp] theorem rewind_issueCfg (s : State) : s.rewind.issueCfg = s.issueCfg := rfl
@[simp] theorem rewind_fcfg (s : State) : s.rewind.fcfg = s.fcfg := rfl
@[simp] theorem rewind_result (s : State) : s.rewind.result = s.result := rfl
@[simp] theorem rewind_tselTable (s : State) : s.rewind.tselTable = s.tselTable := rfl
@[simp] theorem rewind_tselIndex (s : State) : s.rewind.tselIndex = s.tselIndex := rfl
@[simp] theorem rewind_tables (s : State) : s.rewind.tables = s.tables := rfl
@[simp] theorem rewind_dp (s : State) : s.rewind.dp = s.dp := rfl
@[simp] theorem rewind_point (s : State) : s.rewind.point = s.point := rfl
@[simp] theorem rewind_lctr (s : State) : s.rewind.lctr = s.lctr := rfl
@[simp] theorem rewind_trow (s : State) : s.rewind.trow = s.trow := rfl
@[simp] theorem rewind_col (s : State) : s.rewind.col = s.col := rfl
@[simp] theorem rewind_out (s : State) : s.rewind.out = s.out := rfl
@[simp] theorem rewind_mem (s : State) : s.rewind.mem = s.mem := rfl
@[simp] theorem rewind_stale (s : State) : s.rewind.stale = s.stale := rfl
@[simp] theorem rewind_raced (s : State) : s.rewind.raced = s.raced := rfl
@[simp] theorem rewind_drvReady (s : State) : s.rewind.drvReady = s.drvReady := rfl
@[simp] theorem rewind_txtReady (s : State) : s.rewind.txtReady = s.txtReady := rfl
@[simp] theorem rewind_inputs (s : State) : s.rewind.inputs = s.inputs := rfl
@[simp] theorem rewind_rdata (s : State) : s.rewind.rdata = s.rdata := rfl
@[simp] theorem rewind_draws (s : State) : s.rewind.draws = s.draws := rfl
@[simp] theorem rewind_widx (s : State) : s.rewind.widx = 0 := rfl
@[simp] theorem rewind_held (s : State) : s.rewind.held = s.held.map fun b => { b with data := [] } := rfl

/-! ### State.submitLine -/

@[simp] theorem submitLine_params (s : State) : s.submitLine.params = s.params := rfl
@[simp] theorem submitLine_cmd (s : State) : s.submitLine.cmd = s.cmd := rfl
@[simp] theorem submitLine_seqState (s : State) : s.submitLine.seqState = s.seqState := rfl
@[simp] theorem submitLine_done (s : State) : s.submitLine.done = s.done := rfl
@[simp] theorem submitLine_err (s : State) : s.submitLine.err = s.err := rfl
@[simp] theorem submitLine_errcode (s : State) : s.submitLine.errcode = s.errcode := rfl
@[simp] theorem submitLine_mode (s : State) : s.submitLine.mode = s.mode := rfl
@[simp] theorem submitLine_cfg (s : State) : s.submitLine.cfg = s.cfg := rfl
@[simp] theorem submitLine_issueCfg (s : State) : s.submitLine.issueCfg = s.issueCfg := rfl
@[simp] theorem submitLine_fcfg (s : State) : s.submitLine.fcfg = s.fcfg := rfl
@[simp] theorem submitLine_result (s : State) : s.submitLine.result = s.result := rfl
@[simp] theorem submitLine_tselTable (s : State) : s.submitLine.tselTable = s.tselTable := rfl
@[simp] theorem submitLine_tselIndex (s : State) : s.submitLine.tselIndex = s.tselIndex := rfl
@[simp] theorem submitLine_tables (s : State) : s.submitLine.tables = s.tables := rfl
@[simp] theorem submitLine_dp (s : State) : s.submitLine.dp = s.dp := rfl
@[simp] theorem submitLine_point (s : State) : s.submitLine.point = .submitAck := rfl
@[simp] theorem submitLine_lctr (s : State) : s.submitLine.lctr = s.lctr := rfl
@[simp] theorem submitLine_trow (s : State) : s.submitLine.trow = s.trow := rfl
@[simp] theorem submitLine_col (s : State) : s.submitLine.col = s.col := rfl
@[simp] theorem submitLine_widx (s : State) : s.submitLine.widx = s.widx := rfl
@[simp] theorem submitLine_held (s : State) : s.submitLine.held = none := rfl
@[simp] theorem submitLine_out (s : State) : s.submitLine.out = s.out ++ s.held.toList.map .submitScanline := rfl
@[simp] theorem submitLine_mem (s : State) : s.submitLine.mem = s.mem := rfl
@[simp] theorem submitLine_stale (s : State) : s.submitLine.stale = s.stale := rfl
@[simp] theorem submitLine_raced (s : State) : s.submitLine.raced = s.raced := rfl
@[simp] theorem submitLine_drvReady (s : State) : s.submitLine.drvReady = s.drvReady := rfl
@[simp] theorem submitLine_txtReady (s : State) : s.submitLine.txtReady = s.txtReady := rfl
@[simp] theorem submitLine_inputs (s : State) : s.submitLine.inputs = s.inputs := rfl
@[simp] theorem submitLine_rdata (s : State) : s.submitLine.rdata = s.rdata := rfl
@[simp] theorem submitLine_draws (s : State) : s.submitLine.draws = s.draws := rfl

/-! ### State.finalizeLine -/

@[simp] theorem finalizeLine_params (s : State) : s.finalizeLine.params = s.params := rfl
@[simp] theorem finalizeLine_cmd (s : State) : s.finalizeLine.cmd = s.cmd := rfl
@[simp] theorem finalizeLine_seqState (s : State) : s.finalizeLine.seqState = s.seqState := rfl
@[simp] theorem finalizeLine_done (s : State) : s.finalizeLine.done = s.done := rfl
@[simp] theorem finalizeLine_err (s : State) : s.finalizeLine.err = s.err := rfl
@[simp] theorem finalizeLine_errcode (s : State) : s.finalizeLine.errcode = s.errcode := rfl
@[simp] theorem finalizeLine_mode (s : State) : s.finalizeLine.mode = s.mode := rfl
@[simp] theorem finalizeLine_cfg (s : State) : s.finalizeLine.cfg = s.cfg := rfl
@[simp] theorem finalizeLine_issueCfg (s : State) : s.finalizeLine.issueCfg = s.issueCfg := rfl
@[simp] theorem finalizeLine_fcfg (s : State) : s.finalizeLine.fcfg = s.fcfg := rfl
@[simp] theorem finalizeLine_result (s : State) : s.finalizeLine.result = s.result := rfl
@[simp] theorem finalizeLine_tselTable (s : State) : s.finalizeLine.tselTable = s.tselTable := rfl
@[simp] theorem finalizeLine_tselIndex (s : State) : s.finalizeLine.tselIndex = s.tselIndex := rfl
@[simp] theorem finalizeLine_tables (s : State) : s.finalizeLine.tables = s.tables := rfl
@[simp] theorem finalizeLine_dp (s : State) : s.finalizeLine.dp = s.dp := rfl
@[simp] theorem finalizeLine_point (s : State) : s.finalizeLine.point = .submit := rfl
@[simp] theorem finalizeLine_lctr (s : State) : s.finalizeLine.lctr = s.lctr := rfl
@[simp] theorem finalizeLine_trow (s : State) : s.finalizeLine.trow = s.trow := rfl
@[simp] theorem finalizeLine_col (s : State) : s.finalizeLine.col = s.col := rfl
@[simp] theorem finalizeLine_widx (s : State) : s.finalizeLine.widx = s.widx + (tailWords s.fcfg).length := rfl
@[simp] theorem finalizeLine_out (s : State) : s.finalizeLine.out = s.out := rfl
@[simp] theorem finalizeLine_mem (s : State) : s.finalizeLine.mem = s.mem := rfl
@[simp] theorem finalizeLine_stale (s : State) : s.finalizeLine.stale = s.stale := rfl
@[simp] theorem finalizeLine_raced (s : State) : s.finalizeLine.raced = s.raced := rfl
@[simp] theorem finalizeLine_drvReady (s : State) : s.finalizeLine.drvReady = s.drvReady := rfl
@[simp] theorem finalizeLine_txtReady (s : State) : s.finalizeLine.txtReady = s.txtReady := rfl
@[simp] theorem finalizeLine_inputs (s : State) : s.finalizeLine.inputs = s.inputs := rfl
@[simp] theorem finalizeLine_rdata (s : State) : s.finalizeLine.rdata = s.rdata := rfl
@[simp] theorem finalizeLine_draws (s : State) : s.finalizeLine.draws = s.draws := rfl

/-! ### State.returns -/

@[simp] theorem returns_params (s : State) (v : Word) : (s.returns v).params = s.params := rfl
@[simp] theorem returns_cmd (s : State) (v : Word) : (s.returns v).cmd = s.cmd := rfl
@[simp] theorem returns_seqState (s : State) (v : Word) : (s.returns v).seqState = s.seqState := rfl
@[simp] theorem returns_done (s : State) (v : Word) : (s.returns v).done = s.done := rfl
@[simp] theorem returns_err (s : State) (v : Word) : (s.returns v).err = s.err := rfl
@[simp] theorem returns_errcode (s : State) (v : Word) : (s.returns v).errcode = s.errcode := rfl
@[simp] theorem returns_mode (s : State) (v : Word) : (s.returns v).mode = s.mode := rfl
@[simp] theorem returns_cfg (s : State) (v : Word) : (s.returns v).cfg = s.cfg := rfl
@[simp] theorem returns_issueCfg (s : State) (v : Word) : (s.returns v).issueCfg = s.issueCfg := rfl
@[simp] theorem returns_fcfg (s : State) (v : Word) : (s.returns v).fcfg = s.fcfg := rfl
@[simp] theorem returns_result (s : State) (v : Word) : (s.returns v).result = s.result := rfl
@[simp] theorem returns_tselTable (s : State) (v : Word) : (s.returns v).tselTable = s.tselTable := rfl
@[simp] theorem returns_tselIndex (s : State) (v : Word) : (s.returns v).tselIndex = s.tselIndex := rfl
@[simp] theorem returns_tables (s : State) (v : Word) : (s.returns v).tables = s.tables := rfl
@[simp] theorem returns_dp (s : State) (v : Word) : (s.returns v).dp = s.dp := rfl
@[simp] theorem returns_point (s : State) (v : Word) : (s.returns v).point = s.point := rfl
@[simp] theorem returns_lctr (s : State) (v : Word) : (s.returns v).lctr = s.lctr := rfl
@[simp] theorem returns_trow (s : State) (v : Word) : (s.returns v).trow = s.trow := rfl
@[simp] theorem returns_col (s : State) (v : Word) : (s.returns v).col = s.col := rfl
@[simp] theorem returns_widx (s : State) (v : Word) : (s.returns v).widx = s.widx := rfl
@[simp] theorem returns_held (s : State) (v : Word) : (s.returns v).held = s.held := rfl
@[simp] theorem returns_out (s : State) (v : Word) : (s.returns v).out = s.out := rfl
@[simp] theorem returns_mem (s : State) (v : Word) : (s.returns v).mem = s.mem := rfl
@[simp] theorem returns_stale (s : State) (v : Word) : (s.returns v).stale = s.stale := rfl
@[simp] theorem returns_raced (s : State) (v : Word) : (s.returns v).raced = s.raced := rfl
@[simp] theorem returns_drvReady (s : State) (v : Word) : (s.returns v).drvReady = s.drvReady := rfl
@[simp] theorem returns_txtReady (s : State) (v : Word) : (s.returns v).txtReady = s.txtReady := rfl
@[simp] theorem returns_inputs (s : State) (v : Word) : (s.returns v).inputs = s.inputs := rfl
@[simp] theorem returns_rdata (s : State) (v : Word) : (s.returns v).rdata = v := rfl
@[simp] theorem returns_draws (s : State) (v : Word) : (s.returns v).draws = s.draws := rfl

/-! ### State.gmwWrite -/

@[simp] theorem gmwWrite_params (s : State) (pl : Plane) (pg : Page) (off : BitVec 13) (v : Byte) : (s.gmwWrite pl pg off v).params = s.params := rfl
@[simp] theorem gmwWrite_cmd (s : State) (pl : Plane) (pg : Page) (off : BitVec 13) (v : Byte) : (s.gmwWrite pl pg off v).cmd = s.cmd := rfl
@[simp] theorem gmwWrite_seqState (s : State) (pl : Plane) (pg : Page) (off : BitVec 13) (v : Byte) : (s.gmwWrite pl pg off v).seqState = s.seqState := rfl
@[simp] theorem gmwWrite_done (s : State) (pl : Plane) (pg : Page) (off : BitVec 13) (v : Byte) : (s.gmwWrite pl pg off v).done = s.done := rfl
@[simp] theorem gmwWrite_err (s : State) (pl : Plane) (pg : Page) (off : BitVec 13) (v : Byte) : (s.gmwWrite pl pg off v).err = s.err := rfl
@[simp] theorem gmwWrite_errcode (s : State) (pl : Plane) (pg : Page) (off : BitVec 13) (v : Byte) : (s.gmwWrite pl pg off v).errcode = s.errcode := rfl
@[simp] theorem gmwWrite_mode (s : State) (pl : Plane) (pg : Page) (off : BitVec 13) (v : Byte) : (s.gmwWrite pl pg off v).mode = s.mode := rfl
@[simp] theorem gmwWrite_cfg (s : State) (pl : Plane) (pg : Page) (off : BitVec 13) (v : Byte) : (s.gmwWrite pl pg off v).cfg = s.cfg := rfl
@[simp] theorem gmwWrite_issueCfg (s : State) (pl : Plane) (pg : Page) (off : BitVec 13) (v : Byte) : (s.gmwWrite pl pg off v).issueCfg = s.issueCfg := rfl
@[simp] theorem gmwWrite_fcfg (s : State) (pl : Plane) (pg : Page) (off : BitVec 13) (v : Byte) : (s.gmwWrite pl pg off v).fcfg = s.fcfg := rfl
@[simp] theorem gmwWrite_result (s : State) (pl : Plane) (pg : Page) (off : BitVec 13) (v : Byte) : (s.gmwWrite pl pg off v).result = s.result := rfl
@[simp] theorem gmwWrite_tselTable (s : State) (pl : Plane) (pg : Page) (off : BitVec 13) (v : Byte) : (s.gmwWrite pl pg off v).tselTable = s.tselTable := rfl
@[simp] theorem gmwWrite_tselIndex (s : State) (pl : Plane) (pg : Page) (off : BitVec 13) (v : Byte) : (s.gmwWrite pl pg off v).tselIndex = s.tselIndex := rfl
@[simp] theorem gmwWrite_tables (s : State) (pl : Plane) (pg : Page) (off : BitVec 13) (v : Byte) : (s.gmwWrite pl pg off v).tables = s.tables := rfl
@[simp] theorem gmwWrite_dp (s : State) (pl : Plane) (pg : Page) (off : BitVec 13) (v : Byte) : (s.gmwWrite pl pg off v).dp = s.dp := rfl
@[simp] theorem gmwWrite_point (s : State) (pl : Plane) (pg : Page) (off : BitVec 13) (v : Byte) : (s.gmwWrite pl pg off v).point = s.point := rfl
@[simp] theorem gmwWrite_lctr (s : State) (pl : Plane) (pg : Page) (off : BitVec 13) (v : Byte) : (s.gmwWrite pl pg off v).lctr = s.lctr := rfl
@[simp] theorem gmwWrite_trow (s : State) (pl : Plane) (pg : Page) (off : BitVec 13) (v : Byte) : (s.gmwWrite pl pg off v).trow = s.trow := rfl
@[simp] theorem gmwWrite_col (s : State) (pl : Plane) (pg : Page) (off : BitVec 13) (v : Byte) : (s.gmwWrite pl pg off v).col = s.col := rfl
@[simp] theorem gmwWrite_widx (s : State) (pl : Plane) (pg : Page) (off : BitVec 13) (v : Byte) : (s.gmwWrite pl pg off v).widx = s.widx := rfl
@[simp] theorem gmwWrite_held (s : State) (pl : Plane) (pg : Page) (off : BitVec 13) (v : Byte) : (s.gmwWrite pl pg off v).held = s.held := rfl
@[simp] theorem gmwWrite_out (s : State) (pl : Plane) (pg : Page) (off : BitVec 13) (v : Byte) : (s.gmwWrite pl pg off v).out = s.out := rfl
@[simp] theorem gmwWrite_mem (s : State) (pl : Plane) (pg : Page) (off : BitVec 13) (v : Byte) : (s.gmwWrite pl pg off v).mem = s.mem.write (pageAddr pl pg off) v := rfl
@[simp] theorem gmwWrite_stale (s : State) (pl : Plane) (pg : Page) (off : BitVec 13) (v : Byte) : (s.gmwWrite pl pg off v).stale = if s.seqState = .busy then (pageAddr pl pg off, s.mem.read (pageAddr pl pg off)) :: s.stale else s.stale := rfl
@[simp] theorem gmwWrite_raced (s : State) (pl : Plane) (pg : Page) (off : BitVec 13) (v : Byte) : (s.gmwWrite pl pg off v).raced = if s.decoding = true then pageAddr pl pg off :: s.raced else s.raced := rfl
@[simp] theorem gmwWrite_drvReady (s : State) (pl : Plane) (pg : Page) (off : BitVec 13) (v : Byte) : (s.gmwWrite pl pg off v).drvReady = s.drvReady := rfl
@[simp] theorem gmwWrite_txtReady (s : State) (pl : Plane) (pg : Page) (off : BitVec 13) (v : Byte) : (s.gmwWrite pl pg off v).txtReady = s.txtReady := rfl
@[simp] theorem gmwWrite_inputs (s : State) (pl : Plane) (pg : Page) (off : BitVec 13) (v : Byte) : (s.gmwWrite pl pg off v).inputs = s.inputs := rfl
@[simp] theorem gmwWrite_rdata (s : State) (pl : Plane) (pg : Page) (off : BitVec 13) (v : Byte) : (s.gmwWrite pl pg off v).rdata = s.rdata := rfl
@[simp] theorem gmwWrite_draws (s : State) (pl : Plane) (pg : Page) (off : BitVec 13) (v : Byte) : (s.gmwWrite pl pg off v).draws = s.draws := rfl

/-! ### State.tick -/

@[simp] theorem tick_params (s : State) : s.tick.params = s.params := by unfold State.tick; split <;> rfl
@[simp] theorem tick_cmd (s : State) : s.tick.cmd = s.cmd := by unfold State.tick; split <;> rfl
@[simp] theorem tick_seqState (s : State) : s.tick.seqState = s.seqState := by unfold State.tick; split <;> rfl
@[simp] theorem tick_done (s : State) : s.tick.done = s.done := by unfold State.tick; split <;> rfl
@[simp] theorem tick_err (s : State) : s.tick.err = s.err := by unfold State.tick; split <;> rfl
@[simp] theorem tick_errcode (s : State) : s.tick.errcode = s.errcode := by unfold State.tick; split <;> rfl
@[simp] theorem tick_mode (s : State) : s.tick.mode = s.mode := by unfold State.tick; split <;> rfl
@[simp] theorem tick_cfg (s : State) : s.tick.cfg = s.cfg := by unfold State.tick; split <;> rfl
@[simp] theorem tick_issueCfg (s : State) : s.tick.issueCfg = s.issueCfg := by unfold State.tick; split <;> rfl
@[simp] theorem tick_fcfg (s : State) : s.tick.fcfg = s.fcfg := by unfold State.tick; split <;> rfl
@[simp] theorem tick_result (s : State) : s.tick.result = s.result := by unfold State.tick; split <;> rfl
@[simp] theorem tick_tselTable (s : State) : s.tick.tselTable = s.tselTable := by unfold State.tick; split <;> rfl
@[simp] theorem tick_tselIndex (s : State) : s.tick.tselIndex = s.tselIndex := by unfold State.tick; split <;> rfl
@[simp] theorem tick_tables (s : State) : s.tick.tables = s.tables := by unfold State.tick; split <;> rfl
@[simp] theorem tick_dp (s : State) : s.tick.dp = s.dp := by unfold State.tick; split <;> rfl
@[simp] theorem tick_point (s : State) : s.tick.point = s.point := by unfold State.tick; split <;> rfl
@[simp] theorem tick_lctr (s : State) : s.tick.lctr = s.lctr := by unfold State.tick; split <;> rfl
@[simp] theorem tick_trow (s : State) : s.tick.trow = s.trow := by unfold State.tick; split <;> rfl
@[simp] theorem tick_col (s : State) : s.tick.col = s.col := by unfold State.tick; split <;> rfl
@[simp] theorem tick_widx (s : State) : s.tick.widx = s.widx := by unfold State.tick; split <;> rfl
@[simp] theorem tick_held (s : State) : s.tick.held = s.held := by unfold State.tick; split <;> rfl
@[simp] theorem tick_out (s : State) : s.tick.out = s.out := by unfold State.tick; split <;> rfl
@[simp] theorem tick_mem (s : State) : s.tick.mem = s.mem := by unfold State.tick; split <;> rfl
@[simp] theorem tick_stale (s : State) : s.tick.stale = s.stale := by unfold State.tick; split <;> rfl
@[simp] theorem tick_raced (s : State) : s.tick.raced = s.raced := by unfold State.tick; split <;> rfl
@[simp] theorem tick_drvReady (s : State) : s.tick.drvReady = s.drvReady := by unfold State.tick; split <;> rfl
@[simp] theorem tick_txtReady (s : State) : s.tick.txtReady = s.txtReady := by unfold State.tick; split <;> rfl
@[simp] theorem tick_rdata (s : State) : s.tick.rdata = s.rdata := by unfold State.tick; split <;> rfl
@[simp] theorem tick_draws (s : State) : s.tick.draws = s.draws := by unfold State.tick; split <;> rfl

/-- The finalised buffer: the tail words appended, and the two counts written. -/
@[simp] theorem finalizeLine_held (s : State) :
    s.finalizeLine.held = s.held.map fun b =>
      { data := b.data ++ tailWords s.fcfg
        length := s.widx + (tailWords s.fcfg).length
        repeatCount := repeatOf s.fcfg } := by
  cases h : s.held <;> simp [State.finalizeLine, State.emits, h, Buffer.append]

theorem tick_of_no_inputs (s : State) (h : s.inputs = []) : s.tick = s := by
  unfold State.tick; rw [h]

@[simp] theorem busy_iff (s : State) : s.busy = true ↔ s.seqState = .busy := by
  unfold State.busy; cases s.seqState <;> simp

theorem idle_of_not_busy {s : State} (h : s.busy = false) : s.seqState = .idle := by
  unfold State.busy at h; cases hs : s.seqState <;> simp_all

end Sys2Proof.Laws
end

