-- ==== Sys2Proof/Laws/Sequencer.lean ====
section
/-! SUPPORT. What a SEQ step and SEQ's run can do: the frame of a step, and the two ways to lift a fact from a step to a run. -/

namespace Sys2Proof.Laws

open Sys2Proof.Machine

/-- What neither a SEQ step nor the passing of time changes, and that OUT only grows. -/
structure SeqFrame (s t : State) : Prop where
  params : t.params = s.params
  cmd : t.cmd = s.cmd
  err : t.err = s.err
  errcode : t.errcode = s.errcode
  cfg : t.cfg = s.cfg
  issueCfg : t.issueCfg = s.issueCfg
  result : t.result = s.result
  tselTable : t.tselTable = s.tselTable
  tselIndex : t.tselIndex = s.tselIndex
  tables : t.tables = s.tables
  mem : t.mem = s.mem
  stale : t.stale = s.stale
  raced : t.raced = s.raced
  drvReady : t.drvReady = s.drvReady
  txtReady : t.txtReady = s.txtReady
  rdata : t.rdata = s.rdata
  out : s.out <+: t.out

theorem SeqFrame.rfl' (s : State) : SeqFrame s s := by
  constructor <;> rfl

theorem SeqFrame.trans' {s t u : State} (h : SeqFrame s t) (k : SeqFrame t u) : SeqFrame s u where
  params := k.params.trans h.params
  cmd := k.cmd.trans h.cmd
  err := k.err.trans h.err
  errcode := k.errcode.trans h.errcode
  cfg := k.cfg.trans h.cfg
  issueCfg := k.issueCfg.trans h.issueCfg
  result := k.result.trans h.result
  tselTable := k.tselTable.trans h.tselTable
  tselIndex := k.tselIndex.trans h.tselIndex
  tables := k.tables.trans h.tables
  mem := k.mem.trans h.mem
  stale := k.stale.trans h.stale
  raced := k.raced.trans h.raced
  drvReady := k.drvReady.trans h.drvReady
  txtReady := k.txtReady.trans h.txtReady
  rdata := k.rdata.trans h.rdata
  out := h.out.trans k.out

/-- The frame says that a line command's settings stay. -/
theorem SeqFrame.sameSettings {s t : State} (h : SeqFrame s t) : State.SameSettings s t where
  params := h.params
  cmd := h.cmd
  err := h.err
  errcode := h.errcode
  cfg := h.cfg
  issueCfg := h.issueCfg
  result := h.result
  tselTable := h.tselTable
  tselIndex := h.tselIndex
  tables := h.tables
  mem := fun a => by rw [h.mem]
  stale := h.stale
  raced := h.raced
  drvReady := h.drvReady
  txtReady := h.txtReady
  rdata := h.rdata

theorem emits_emits (s : State) (ws ws' : List Word) : (s.emits ws).emits ws' = s.emits (ws ++ ws') := by
  cases h : s.held <;> simp [State.emits, h, Buffer.append, Nat.add_assoc]

/-! ### One step, by its point -/

theorem seqTakeBuffer_cases {s t : State} (h : seqTakeBuffer s = .next t) :
    minCapacity ≤ s.params.slCap ∧ t = s.takeBuffer := by
  unfold seqTakeBuffer at h
  split at h
  · cases h
  · cases h
    exact ⟨by omega, rfl⟩

theorem seqPad_cases {l : BitVec 8} {m : Mode} {s t : State} (h : seqPad l m s = .next t) :
    ∃ d, s.engineStart l m = .ok d ∧
      t = { s.emits (padOf m) with dp := d, col := 0, draws := s.draws + 1, point := .content } := by
  unfold seqPad at h
  split at h
  · cases h
  · rename_i d hd
    cases h
    exact ⟨d, hd, rfl⟩

theorem seqColumn_cases {l : BitVec 8} {m : Mode} {s t : State} (h : seqColumn l m s = .next t) :
    ∃ ws d, s.column l m = .ok (ws, d) ∧
      t = { s.emits ws with
        dp := d, col := s.col + 1, draws := s.draws + 1
        point := if s.col + 1 < ncols then .content else .finalize } := by
  unfold seqColumn at h
  split at h
  · cases h
  · rename_i ws d hd
    cases h
    exact ⟨ws, d, hd, rfl⟩

theorem andThen_next {o : Host.Outcome State Fault Refusal} {f : State → Host.Outcome State Fault Refusal} {t : State}
    (h : andThen o f = .next t) : ∃ u, o = .next u ∧ f u = .next t := by
  cases o with
  | next u => exact ⟨u, rfl, h⟩
  | fault e => cases h
  | refused r => cases h

theorem seqColumns_cases {l : BitVec 8} {m : Mode} {k : Nat} {s t : State} (h : seqColumns l m (k + 1) s = .next t)
    (hc : s.col + (k + 1) = ncols) :
    ∃ ws d, t = { s.emits ws with
      dp := d, col := s.col + (k + 1), draws := s.draws + (k + 1), point := .finalize } := by
  induction k generalizing s with
  | zero =>
    obtain ⟨u, hcol, hu⟩ := andThen_next h
    cases hu
    obtain ⟨ws, d, -, rfl⟩ := seqColumn_cases hcol
    exact ⟨ws, d, by rw [if_neg (by omega)]⟩
  | succ k ih =>
    obtain ⟨u, hcol, hu⟩ := andThen_next h
    obtain ⟨ws, d, -, rfl⟩ := seqColumn_cases hcol
    obtain ⟨ws', d', rfl⟩ := ih hu (by simp only; omega)
    refine ⟨ws ++ ws', d', ?_⟩
    rw [← emits_emits]
    simp only [State.emits, State.mk.injEq, true_and]
    omega

/-- What decoding a line once more leaves: a finalised buffer of the line's padding and some content. -/
theorem seqRedecode_cases {l : BitVec 8} {m : Mode} {s t : State} (h : seqRedecode l m s = .next t) :
    ∃ ws d n, t = State.finalizeLine
      { s.rewind.emits (padOf m ++ ws) with dp := d, col := ncols, draws := n, point := .finalize } := by
  obtain ⟨u, hpad, hu⟩ := andThen_next h
  obtain ⟨d0, -, rfl⟩ := seqPad_cases hpad
  obtain ⟨v, hcols, hv⟩ := andThen_next hu
  cases hv
  obtain ⟨ws, d, rfl⟩ := seqColumns_cases (k := 39) hcols rfl
  refine ⟨ws, d, s.draws + 1 + 40, ?_⟩
  rw [← emits_emits]
  rfl

/-- What the submission of a line can do: the held buffer goes out, as it is or decoded once more. -/
theorem seqSubmit_cases {l : BitVec 8} {m : Mode} {s t : State} (h : seqSubmit l m s = .next t) :
    (s.raced = [] ∧ t = s.submitLine) ∨
    ∃ ws d n, t = (State.finalizeLine
      { s.rewind.emits (padOf m ++ ws) with dp := d, col := ncols, draws := n, point := .finalize }).submitLine := by
  unfold seqSubmit at h
  split at h
  · cases h; exact .inl ⟨‹_›, rfl⟩
  · obtain ⟨u, hre, hu⟩ := andThen_next h
    cases hu
    obtain ⟨ws, d, n, rfl⟩ := seqRedecode_cases hre
    exact .inr ⟨ws, d, n, rfl⟩

theorem submitLine_frame (s : State) : SeqFrame s s.submitLine := by
  constructor <;> first | rfl | exact List.prefix_append _ _

theorem redecoded_frame (s : State) (ws : List Word) (d : Datapath) (n : Nat) :
    SeqFrame s (State.finalizeLine
      { s.rewind.emits ws with dp := d, col := ncols, draws := n, point := .finalize }) := by
  constructor <;> simp

theorem seqSubmit_frame {l : BitVec 8} {m : Mode} {s t : State} (h : seqSubmit l m s = .next t) :
    SeqFrame s t ∧ t.fcfg = s.fcfg ∧ t.mode = s.mode := by
  obtain ⟨-, rfl⟩ | ⟨ws, d, n, rfl⟩ := seqSubmit_cases h
  · exact ⟨submitLine_frame s, rfl, rfl⟩
  · exact ⟨(redecoded_frame s _ d n).trans' (submitLine_frame _), by simp, by simp⟩

theorem seqStep_start {job : Job} {s : State} (h : s.point = .start) : seqStep job s = .next (seqBegin job s) := by
  simp only [seqStep, h]

theorem seqBegin_frame (job : Job) (s : State) : SeqFrame s (seqBegin job s) := by
  cases job <;> constructor <;> first | rfl | exact List.prefix_append _ _

theorem seqLineDone_frame (job : Job) (s : State) : SeqFrame s (seqLineDone job s) := by
  cases job with
  | line l m => constructor <;> rfl
  | frame lines text =>
    simp only [seqLineDone]
    split
    · constructor <;> first | rfl | exact List.prefix_append _ _
    · split <;> constructor <;> first | rfl | exact List.prefix_append _ _

theorem seqTextDone_frame (s : State) : SeqFrame s (seqTextDone s) := by
  unfold seqTextDone
  split <;> constructor <;> first | rfl | exact List.prefix_append _ _

/-- The frame of one SEQ step. -/
theorem seqStep_frame {job : Job} {s t : State} (h : seqStep job s = .next t) : SeqFrame s t := by
  unfold seqStep at h
  cases hp : s.point <;> simp only [hp] at h
  case start => cases h; exact seqBegin_frame job s
  case lineAck => obtain ⟨-, rfl⟩ := seqTakeBuffer_cases h; constructor <;> rfl
  case pad => obtain ⟨d, -, rfl⟩ := seqPad_cases h; constructor <;> rfl
  case content => obtain ⟨ws, d, -, rfl⟩ := seqColumn_cases h; constructor <;> rfl
  case submit => exact (seqSubmit_frame h).1
  case submitAck => cases h; exact seqLineDone_frame job s
  case textAck => cases h; exact seqTextDone_frame s
  all_goals cases h; constructor <;> first | rfl | exact List.prefix_append _ _

theorem tick_frame (s : State) : SeqFrame s s.tick := by
  constructor <;> simp

/-- After a command's first step, and in a line command always, a step leaves the snapshot alone
(44_frame_control.md R216). -/
theorem seqStep_snapshot {job : Job} {s t : State} (h : seqStep job s = .next t)
    (hs : s.point ≠ .start ∨ ∃ l m, job = .line l m) : t.fcfg = s.fcfg ∧ t.mode = s.mode := by
  unfold seqStep at h
  cases hp : s.point <;> simp only [hp] at h
  case start =>
    obtain h' | ⟨l, m, rfl⟩ := hs
    · exact absurd hp h'
    · cases h; exact ⟨rfl, rfl⟩
  case lineAck => obtain ⟨-, rfl⟩ := seqTakeBuffer_cases h; exact ⟨rfl, rfl⟩
  case pad => obtain ⟨d, -, rfl⟩ := seqPad_cases h; exact ⟨rfl, rfl⟩
  case content => obtain ⟨ws, d, -, rfl⟩ := seqColumn_cases h; exact ⟨rfl, rfl⟩
  case submit => exact (seqSubmit_frame h).2
  case submitAck =>
    cases h
    cases job with
    | line l m => exact ⟨rfl, rfl⟩
    | frame lines text =>
      simp only [seqLineDone]
      split
      · exact ⟨rfl, rfl⟩
      · split <;> exact ⟨rfl, rfl⟩
  case textAck => cases h; unfold seqTextDone; split <;> exact ⟨rfl, rfl⟩
  all_goals cases h; exact ⟨rfl, rfl⟩

/-! ### From a step to a run -/

/-- A relation that holds across each SEQ step and each tick holds across a run. -/
theorem runSeq_rel {job : Job} {R : State → State → Prop} (hrefl : ∀ s, R s s)
    (htrans : ∀ {a b c : State}, R a b → R b c → R a c)
    (hstep : ∀ {s t : State}, s.runnable = true → seqStep job s = .next t → R s t) (htick : ∀ s, R s s.tick)
    {n : Nat} {s t : State} (h : runSeq job n s = .next t) : R s t := by
  induction n generalizing s with
  | zero => cases h; exact hrefl _
  | succ n ih =>
    unfold runSeq at h
    split at h
    · rename_i hr
      split at h
      · rename_i u hu
        exact htrans (htrans (hstep (by simp_all) hu) (htick u)) (ih h)
      · cases h
      · cases h
    · cases h; exact hrefl _

/-- A predicate that each SEQ step and each tick keeps is kept by a run. -/
theorem runSeq_keeps {job : Job} {P : State → Prop}
    (hstep : ∀ {s t : State}, P s → s.runnable = true → seqStep job s = .next t → P t) (htick : ∀ {s : State}, P s → P s.tick)
    {n : Nat} {s t : State} (hs : P s) (h : runSeq job n s = .next t) : P t :=
  runSeq_rel (R := fun a b => P a → P b) (fun _ h => h) (fun h k p => k (h p)) (fun hr hst p => hstep p hr hst)
    (fun _ p => htick p) h hs

/-- The frame of SEQ's run. -/
theorem runSeq_frame {job : Job} {n : Nat} {s t : State} (h : runSeq job n s = .next t) : SeqFrame s t :=
  runSeq_rel SeqFrame.rfl' SeqFrame.trans' (fun _ hst => seqStep_frame hst) tick_frame h

/-- SEQ can step: it is BUSY and not waiting. -/
theorem runnable_iff (s : State) : s.runnable = true ↔ s.seqState = .busy ∧ s.waiting = false := by
  simp [State.runnable]

/-- One step of an undisturbed run. -/
theorem runSeq_succ {job : Job} {n : Nat} {s t : State} (hb : s.seqState = .busy) (hw : s.waiting = false)
    (hi : s.inputs = []) (h : seqStep job s = .next t) (ht : t.inputs = []) :
    runSeq job (n + 1) s = runSeq job n t := by
  have hd : s.inputDue = false := by simp [State.inputDue, hi]
  rw [runSeq, (runnable_iff s).mpr ⟨hb, hw⟩, hd]
  simp [h, tick_of_no_inputs t ht]

/-- An undisturbed run whose next step stops, stops with it. -/
theorem runSeq_fault {job : Job} {n : Nat} {s : State} {f : Fault} (hb : s.seqState = .busy) (hw : s.waiting = false)
    (hi : s.inputs = []) (h : seqStep job s = .fault f) : runSeq job (n + 1) s = .fault f := by
  have hd : s.inputDue = false := by simp [State.inputDue, hi]
  rw [runSeq, (runnable_iff s).mpr ⟨hb, hw⟩, hd]
  simp [h]

theorem runSeq_refused {job : Job} {n : Nat} {s : State} {r : Refusal} (hb : s.seqState = .busy)
    (hw : s.waiting = false) (hi : s.inputs = []) (h : seqStep job s = .refused r) :
    runSeq job (n + 1) s = .refused r := by
  have hd : s.inputDue = false := by simp [State.inputDue, hi]
  rw [runSeq, (runnable_iff s).mpr ⟨hb, hw⟩, hd]
  simp [h]

/-- A waiting SEQ makes no step. -/
theorem runSeq_waiting {job : Job} {n : Nat} {s : State} (h : s.waiting = true) : runSeq job n s = .next s := by
  cases n with
  | zero => rfl
  | succ n => simp [runSeq, State.runnable, h]

/-- An idle SEQ makes no step. -/
theorem runSeq_idle {job : Job} {n : Nat} {s : State} (h : s.seqState = .idle) : runSeq job n s = .next s := by
  cases n with
  | zero => rfl
  | succ n => simp [runSeq, State.runnable, State.busy, h]

end Sys2Proof.Laws
end

