-- ==== Sys2Proof/Laws/Rank.lean ====
section
/-! SUPPORT. How many SEQ steps a line or frame command has left, and that each step brings the count down (70_reset_and_hazards.md R276). -/

namespace Sys2Proof.Laws

open Sys2Proof.Machine

/-- The steps left after the line at hand. -/
def rankAfterLine (job : Job) (lctr : Nat) : Nat :=
  match job with
  | .line _ _ => 1
  | .frame lines text => 45 * (lines - (lctr + 1)) + (if text then 5 else 1)

/-- The steps a command has left, waiting apart. -/
def rank (job : Job) (s : State) : Nat :=
  match s.point with
  | .start => 48 + rankAfterLine job (match job with | .line _ _ => s.lctr | .frame _ _ => 0)
  | .frameAck => 47 + rankAfterLine job 0
  | .skipAck => 46 + rankAfterLine job 0
  | .lineAck => 45 + rankAfterLine job s.lctr
  | .pad => 44 + rankAfterLine job s.lctr
  | .content => 4 + (39 - s.col) + rankAfterLine job s.lctr
  | .finalize => 3 + rankAfterLine job s.lctr
  | .submit => 2 + rankAfterLine job s.lctr
  | .submitAck => 1 + rankAfterLine job s.lctr
  | .textAck => (23 - s.trow) + 2
  | .complete => 1

/-- Every step brings the rank down, unless it completes the command. -/
theorem seqStep_rank {job : Job} {s t : State} (h : seqStep job s = .next t) :
    rank job t < rank job s ∨ t.seqState = .idle := by
  unfold seqStep at h
  cases hp : s.point <;> simp only [hp] at h
  case start => cases h; left; cases job <;> simp [rank, hp, seqBegin]
  case frameAck => cases h; left; simp [rank, hp]
  case skipAck => cases h; left; simp [rank, hp, State.request]
  case lineAck => obtain ⟨-, rfl⟩ := seqTakeBuffer_cases h; left; simp [rank, hp]
  case pad => obtain ⟨d, -, rfl⟩ := seqPad_cases h; left; simp [rank, hp]
  case content =>
    obtain ⟨ws, d, -, rfl⟩ := seqColumn_cases h
    left
    by_cases hc : s.col + 1 < ncols
    · simp only [rank, hp, hc, if_true, emits_lctr]
      simp only [ncols] at hc
      omega
    · simp only [rank, hp, hc, if_false, emits_lctr]
      omega
  case finalize => cases h; left; simp [rank, hp]
  case submit => obtain ⟨-, rfl⟩ | ⟨ws, d, n, rfl⟩ := seqSubmit_cases h <;> left <;> simp [rank, hp]
  case submitAck =>
    cases h
    left
    cases job with
    | line l m => simp [rank, hp, seqLineDone, rankAfterLine]
    | frame lines text =>
      simp only [seqLineDone]
      split
      · simp only [rank, hp, rankAfterLine, request_point, request_lctr]
        omega
      · split <;> simp_all [rank, rankAfterLine, firstTextRow]
  case textAck =>
    cases h
    left
    unfold seqTextDone
    split
    · rename_i hr
      simp only [rank, hp, request_point, request_trow, lastTextRow] at hr ⊢
      omega
    · simp [rank, hp]
  case complete => cases h; right; rfl

@[simp] theorem rank_tick (job : Job) (s : State) : rank job s.tick = rank job s := by
  simp [rank]

/-- A command's rank is within the bounds of its run. -/
theorem rank_line_le (l : BitVec 8) (m : Mode) (s : State) : rank (.line l m) s ≤ lineFuel := by
  cases hp : s.point <;> simp only [rank, hp, rankAfterLine, lineFuel] <;> omega

theorem rank_frame_le {lines : Nat} (text : Bool) (s : State) (h : lines ≤ nlines) :
    rank (.frame lines text) s ≤ frameFuel := by
  simp only [nlines] at h
  cases hp : s.point <;> cases text <;> simp only [rank, hp, rankAfterLine, frameFuel] <;> simp <;> omega

end Sys2Proof.Laws
end

