-- ==== Sys2Proof/Laws/Run.lean ====
section
/-! SUPPORT. The run of one line: an undisturbed SEQ takes a line from the answer to PREPARE_SCANLINE to its submission, with the words the engines emit column by column. -/

namespace Sys2Proof.Laws

open Sys2Proof.Machine

/-! ### The engines, column by column -/

/-- The words of column c and the engine's registers after it, for the AUX bytes `a` and the MAIN bytes `b`. -/
def columnOf (p : Params) (tb : Tables) (m : Mode) (a b : Nat → Byte) (c : Nat) (d : Datapath) :
    Except Fault (List Word × Datapath) :=
  match m with
  | .base => srColumn p tb (if c + 1 < ncols then b (c + 1) else 0) d
  | .dr sub => drColumn p tb sub (decide (c + 1 = ncols)) (a c) (b c) d

/-- The engine at the start of a line. -/
def startOf (p : Params) (tb : Tables) (m : Mode) (b : Nat → Byte) (d : Datapath) : Except Fault Datapath :=
  match m with
  | .base => srStart p tb (b 0) d
  | .dr _ => .ok (drStart d)

/-- The words of `k` columns from column c on. -/
def engineColumns (p : Params) (tb : Tables) (m : Mode) (a b : Nat → Byte) :
    Nat → Nat → Datapath → Except Fault (List Word × Datapath)
  | 0, _, d => .ok ([], d)
  | k + 1, c, d =>
    match columnOf p tb m a b c d with
    | .error f => .error f
    | .ok (ws, d') =>
      match engineColumns p tb m a b k (c + 1) d' with
      | .error f => .error f
      | .ok (ws', d'') => .ok (ws ++ ws', d'')

/-- The content words of a line as the engines emit them, and their registers after it. -/
def engineLine (p : Params) (tb : Tables) (m : Mode) (a b : Nat → Byte) (d : Datapath) :
    Except Fault (List Word × Datapath) :=
  match startOf p tb m b d with
  | .error f => .error f
  | .ok d' => engineColumns p tb m a b ncols 0 d'

/-! ### Reading where nothing races -/

theorem gread_of_no_race {s : State} (h : s.raced = []) (pl : Plane) (pg : Page) (off : BitVec 13) :
    s.gread pl pg off = s.mem.read (pageAddr pl pg off) := by
  simp [State.gread, h]

theorem lineByte_of_no_race {s : State} (h : s.raced = []) (pl : Plane) (l : BitVec 8) (c : Nat) :
    s.lineByte pl l c = memByte s s.fcfg pl l c :=
  gread_of_no_race h _ _ _

theorem column_of_no_race {s : State} (h : s.raced = []) (l : BitVec 8) (m : Mode) :
    s.column l m
      = columnOf s.params s.tables m (memByte s s.fcfg .aux l) (memByte s s.fcfg .main l) s.col s.dp := by
  cases m <;> simp only [State.column, columnOf, State.srByte, lineByte_of_no_race h]

theorem engineStart_of_no_race {s : State} (h : s.raced = []) (l : BitVec 8) (m : Mode) :
    s.engineStart l m = startOf s.params s.tables m (memByte s s.fcfg .main l) s.dp := by
  cases m <;> simp only [State.engineStart, startOf, lineByte_of_no_race h]

theorem lineIndex_congr (job : Job) {s t : State} (h : t.lctr = s.lctr) : job.lineIndex t = job.lineIndex s := by
  cases job <;> simp [Job.lineIndex, h]

theorem lineMode_congr (job : Job) {s t : State} (h : t.mode = s.mode) : job.lineMode t = job.lineMode s := by
  cases job <;> simp [Job.lineMode, h]

/-! ### The columns -/

/-- The state after the columns of a line. -/
def afterColumns (s : State) (ws : List Word) (d : Datapath) (k : Nat) : State :=
  { s.emits ws with dp := d, col := s.col + k, draws := s.draws + k, point := .finalize }

@[simp] theorem afterColumns_seqState (s : State) (ws : List Word) (d : Datapath) (k : Nat) :
    (afterColumns s ws d k).seqState = s.seqState := rfl
@[simp] theorem afterColumns_inputs (s : State) (ws : List Word) (d : Datapath) (k : Nat) :
    (afterColumns s ws d k).inputs = s.inputs := rfl
@[simp] theorem afterColumns_raced (s : State) (ws : List Word) (d : Datapath) (k : Nat) :
    (afterColumns s ws d k).raced = s.raced := rfl
@[simp] theorem afterColumns_point (s : State) (ws : List Word) (d : Datapath) (k : Nat) :
    (afterColumns s ws d k).point = .finalize := rfl

/-- A run that goes on where a computation gives its value, and stops where it faults. -/
def goesOn {α : Type} (o : Except Fault α) (k : α → Host.Outcome State Fault Refusal) :
    Host.Outcome State Fault Refusal :=
  match o with
  | .error f => .fault f
  | .ok v => k v

/-- SEQ runs through the last `k + 1` columns of a line. -/
theorem runSeq_columns {job : Job} {l : BitVec 8} {m : Mode} (n k : Nat) {s : State}
    (hl : job.lineIndex s = l) (hm : job.lineMode s = m) (hb : s.seqState = .busy) (hp : s.point = .content)
    (hi : s.inputs = []) (hs : s.raced = []) (hc : s.col + (k + 1) = ncols) :
    runSeq job (n + (k + 1)) s
      = goesOn (engineColumns s.params s.tables m (memByte s s.fcfg .aux l) (memByte s s.fcfg .main l) (k + 1) s.col s.dp)
        fun r => runSeq job n (afterColumns s r.1 r.2 (k + 1)) := by
  have hw : s.waiting = false := by simp [State.waiting, hp]
  rw [← Nat.add_assoc]
  induction k generalizing s with
  | zero =>
    simp only [engineColumns]
    split
    · rename_i f hcol
      exact runSeq_fault hb hw hi (by simp only [seqStep, hp, hl, hm, seqColumn, column_of_no_race hs, hcol])
    · rename_i ws1 d1 hcol
      have hstep : seqStep job s = .next (afterColumns s (ws1 ++ []) d1 1) := by
        simp only [seqStep, hp, hl, hm, seqColumn, column_of_no_race hs, hcol, afterColumns, List.append_nil]
        rw [if_neg (by omega)]
      exact runSeq_succ hb hw hi hstep (by simpa [afterColumns] using hi)
  | succ k ih =>
    rw [engineColumns]
    split
    · rename_i f hcol
      exact runSeq_fault hb hw hi (by simp only [seqStep, hp, hl, hm, seqColumn, column_of_no_race hs, hcol])
    · rename_i ws1 d1 hcol
      have hstep : seqStep job s
          = .next { s.emits ws1 with dp := d1, col := s.col + 1, draws := s.draws + 1, point := .content } := by
        simp only [seqStep, hp, hl, hm, seqColumn, column_of_no_race hs, hcol]
        rw [if_pos (by omega)]
      rw [runSeq_succ hb hw hi hstep (by simpa using hi), ← Nat.add_assoc,
        ih (s := { s.emits ws1 with dp := d1, col := s.col + 1, draws := s.draws + 1, point := .content })
          ((lineIndex_congr job rfl).trans hl) ((lineMode_congr job rfl).trans hm) hb rfl hi hs
          (by simp only; omega) (by simp [State.waiting])]
      show goesOn (engineColumns s.params s.tables m (memByte s s.fcfg .aux l) (memByte s s.fcfg .main l) (k + 1)
        (s.col + 1) d1) _ = _
      cases engineColumns s.params s.tables m (memByte s s.fcfg .aux l) (memByte s s.fcfg .main l) (k + 1)
        (s.col + 1) d1 with
      | error f => rfl
      | ok r =>
        simp only [goesOn]
        congr 1
        simp only [afterColumns, ← emits_emits]
        simp only [State.emits, State.mk.injEq, true_and]
        omega

/-! ### The whole line -/

/-- The state in which a line has been submitted and DRV's acceptance is awaited. -/
def afterLine (s : State) (m : Mode) (ws : List Word) (d : Datapath) : State :=
  { s with
    held := none
    out := s.out ++ [.submitScanline (lineBuffer s.fcfg m ws)]
    dp := d
    col := ncols
    widx := (padOf m ++ ws ++ tailWords s.fcfg).length
    draws := s.draws + 1 + 1 + ncols
    point := .submitAck }

/-- The state in which a line's padding is emitted and its engine started. -/
def afterPad (s : State) (m : Mode) (d : Datapath) : State :=
  { s.takeBuffer.emits (padOf m) with dp := d, col := 0, draws := s.draws + 1 + 1, point := .content }

@[simp] theorem afterPad_params (s : State) (m : Mode) (d : Datapath) : (afterPad s m d).params = s.params := rfl
@[simp] theorem afterPad_tables (s : State) (m : Mode) (d : Datapath) : (afterPad s m d).tables = s.tables := rfl
@[simp] theorem afterPad_fcfg (s : State) (m : Mode) (d : Datapath) : (afterPad s m d).fcfg = s.fcfg := rfl
@[simp] theorem afterPad_mem (s : State) (m : Mode) (d : Datapath) : (afterPad s m d).mem = s.mem := rfl
@[simp] theorem afterPad_stale (s : State) (m : Mode) (d : Datapath) : (afterPad s m d).stale = s.stale := rfl
@[simp] theorem afterPad_raced (s : State) (m : Mode) (d : Datapath) : (afterPad s m d).raced = s.raced := rfl
@[simp] theorem afterPad_seqState (s : State) (m : Mode) (d : Datapath) : (afterPad s m d).seqState = s.seqState := rfl
@[simp] theorem afterPad_inputs (s : State) (m : Mode) (d : Datapath) : (afterPad s m d).inputs = s.inputs := rfl
@[simp] theorem afterPad_lctr (s : State) (m : Mode) (d : Datapath) : (afterPad s m d).lctr = s.lctr := rfl
@[simp] theorem afterPad_mode (s : State) (m : Mode) (d : Datapath) : (afterPad s m d).mode = s.mode := rfl
@[simp] theorem afterPad_dp (s : State) (m : Mode) (d : Datapath) : (afterPad s m d).dp = d := rfl
@[simp] theorem afterPad_col (s : State) (m : Mode) (d : Datapath) : (afterPad s m d).col = 0 := rfl
@[simp] theorem afterPad_point (s : State) (m : Mode) (d : Datapath) : (afterPad s m d).point = .content := rfl

theorem memByte_congr {s t : State} (hp : t.params = s.params) (hm : t.mem = s.mem) (f : BitVec 7) (pl : Plane)
    (l : BitVec 8) : memByte t f pl l = memByte s f pl l := by
  funext c
  simp [memByte, hp, hm]

theorem seqStep_pad {job : Job} {l : BitVec 8} {m : Mode} {s : State} {d : Datapath} (hl : job.lineIndex s = l)
    (hm : job.lineMode s = m) (hs : s.raced = [])
    (hd : startOf s.params s.tables m (memByte s s.fcfg .main l) s.dp = .ok d) :
    seqStep job s.takeBuffer = .next (afterPad s m d) := by
  have hl' : job.lineIndex s.takeBuffer = l := (lineIndex_congr job rfl).trans hl
  have hm' : job.lineMode s.takeBuffer = m := (lineMode_congr job rfl).trans hm
  have hd' : s.takeBuffer.engineStart l m = .ok d := (engineStart_of_no_race (s := s.takeBuffer) hs l m).trans hd
  simp only [seqStep, takeBuffer_point, seqPad, hl', hm', hd']
  rfl

theorem submit_afterColumns (s : State) (m : Mode) (ws : List Word) (d0 d : Datapath) :
    (afterColumns (afterPad s m d0) ws d ncols).finalizeLine.submitLine = afterLine s m ws d := by
  simp [afterLine, State.submitLine, State.finalizeLine, afterColumns, afterPad, State.takeBuffer, State.emits,
    State.lent, Buffer.append, lineBuffer, ncols, Nat.add_assoc]

theorem seqStep_finalize {job : Job} {s : State} (h : s.point = .finalize) : seqStep job s = .next s.finalizeLine := by
  simp only [seqStep, h]

theorem seqStep_submit {job : Job} {s : State} (h : s.point = .submit) (hs : s.raced = []) :
    seqStep job s = .next s.submitLine := by
  simp only [seqStep, h, seqSubmit, hs, if_true]

theorem not_waiting_of_point {s : State} (h : s.point = .content ∨ s.point = .finalize ∨ s.point = .submit) :
    s.waiting = false := by
  obtain h | h | h := h <;> simp [State.waiting, h]

/-- The last two steps of a line before DRV's acceptance. -/
theorem runSeq_final {job : Job} (n : Nat) {s : State} (hb : s.seqState = .busy) (hi : s.inputs = [])
    (hs : s.raced = []) (hp : s.point = .finalize) : runSeq job (n + 2) s = runSeq job n s.finalizeLine.submitLine := by
  rw [runSeq_succ hb (not_waiting_of_point (.inr (.inl hp))) hi (seqStep_finalize hp) (by simpa using hi),
    runSeq_succ (by simpa using hb) (not_waiting_of_point (.inr (.inr (by simp)))) (by simpa using hi)
      (seqStep_submit (by simp) (by simpa using hs)) (by simpa using hi)]

/-- SEQ runs through one line, from the answer to PREPARE_SCANLINE to SUBMIT_SCANLINE: 44 steps, unless its engine
faults. -/
theorem runSeq_line {job : Job} {l : BitVec 8} {m : Mode} (n : Nat) {s : State}
    (hl : job.lineIndex s = l) (hm : job.lineMode s = m) (hb : s.seqState = .busy) (hp : s.point = .lineAck)
    (hi : s.inputs = []) (hs : s.raced = []) (hd : s.drvReady = true) (hcap : minCapacity ≤ s.params.slCap) :
    runSeq job (n + 44) s
      = goesOn (engineLine s.params s.tables m (memByte s s.fcfg .aux l) (memByte s s.fcfg .main l) s.dp)
        fun r => runSeq job n (afterLine s m r.1 r.2) := by
  have h1 : seqStep job s = .next s.takeBuffer := by
    simp only [seqStep, hp, seqTakeBuffer]
    rw [if_neg (by omega)]
  rw [runSeq_succ hb (by simp [State.waiting, hp, hd]) hi h1 hi]
  unfold engineLine
  split
  · rename_i f hstart
    have hl' : job.lineIndex s.takeBuffer = l := (lineIndex_congr job rfl).trans hl
    have hm' : job.lineMode s.takeBuffer = m := (lineMode_congr job rfl).trans hm
    have hstart' : s.takeBuffer.engineStart l m = .error f :=
      (engineStart_of_no_race (s := s.takeBuffer) hs l m).trans hstart
    exact runSeq_fault (s := s.takeBuffer) hb (by simp [State.waiting]) hi
      (by simp only [seqStep, takeBuffer_point, seqPad, hl', hm', hstart'])
  · rename_i d0 hstart
    have hcols := runSeq_columns (job := job) (l := l) (m := m) (s := afterPad s m d0) (n + 2) 39
      ((lineIndex_congr job (by simp)).trans hl) ((lineMode_congr job (by simp)).trans hm) (by simpa using hb) (by simp)
      (by simpa using hi) (by simpa using hs) (by simp [ncols])
    rw [runSeq_succ (s := s.takeBuffer) hb (by simp [State.waiting]) hi (seqStep_pad hl hm hs hstart) hi,
      show n + 42 = n + 2 + (39 + 1) by omega, hcols, afterPad_fcfg,
      memByte_congr (afterPad_params s m d0) (afterPad_mem s m d0),
      memByte_congr (afterPad_params s m d0) (afterPad_mem s m d0)]
    show goesOn (engineColumns s.params s.tables m (memByte s s.fcfg .aux l) (memByte s s.fcfg .main l) ncols 0 d0) _ = _
    cases engineColumns s.params s.tables m (memByte s s.fcfg .aux l) (memByte s s.fcfg .main l) ncols 0 d0 with
    | error f => rfl
    | ok r =>
      simp only [goesOn]
      rw [show (39 + 1 : Nat) = ncols from rfl,
        runSeq_final n (by simpa using hb) (by simpa using hi) (by simpa using hs) (by simp), submit_afterColumns]

end Sys2Proof.Laws
end

