-- ==== Sys2Proof/Laws/Reads.lean ====
section
/-! SUPPORT. Table reads in order: a computation that reads the tables gives its value if every entry it reads has been written, and faults at the first that has not. -/

namespace Sys2Proof.Laws

open Sys2Proof.Machine

/-- `o` reads the entries `l` in order: it faults at the first unwritten one, and else gives `v`. -/
def Follows {α : Type} (tb : Tables) (o : Except Fault α) (l : List (TableId × Nat)) (v : α) : Prop :=
  match tb.firstUnwritten l with
  | some e => o = .error (.unwrittenEntry e.1 e.2)
  | none => o = .ok v

theorem firstUnwritten_append (tb : Tables) (l l' : List (TableId × Nat)) :
    tb.firstUnwritten (l ++ l') = (tb.firstUnwritten l).or (tb.firstUnwritten l') := by
  simp [Tables.firstUnwritten, List.find?_append]

@[simp] theorem firstUnwritten_nil (tb : Tables) : tb.firstUnwritten [] = none := rfl

/-- The two things that can happen. -/
theorem Follows.cases {α : Type} {tb : Tables} {o : Except Fault α} {l : List (TableId × Nat)} {v : α}
    (h : Follows tb o l v) :
    (tb.firstUnwritten l = none ∧ o = .ok v) ∨
    ∃ e, tb.firstUnwritten l = some e ∧ o = .error (.unwrittenEntry e.1 e.2) := by
  unfold Follows at h
  split at h
  · rename_i e he
    exact .inr ⟨e, he, h⟩
  · rename_i he
    exact .inl ⟨he, h⟩

theorem follows_ok {α : Type} (tb : Tables) (v : α) : Follows tb (.ok v) [] v := rfl

/-- One computation after another: `o'` goes on where `o` gives its value. -/
theorem Follows.andThen {α β : Type} {tb : Tables} {o : Except Fault α} {o' : Except Fault β}
    {l l' : List (TableId × Nat)} {v : α} {w : β} (h : Follows tb o l v) (herr : ∀ e, o = .error e → o' = .error e)
    (hok : o = .ok v → Follows tb o' l' w) : Follows tb o' (l ++ l') w := by
  unfold Follows
  rw [firstUnwritten_append]
  obtain ⟨h1, h2⟩ | ⟨e, h1, h2⟩ := h.cases
  · rw [h1]
    exact hok h2
  · rw [h1]
    exact herr _ h2

/-- A computation with its value changed. -/
theorem Follows.map {α β : Type} {tb : Tables} {o : Except Fault α} {o' : Except Fault β}
    {l : List (TableId × Nat)} {v : α} {w : β} (h : Follows tb o l v) (herr : ∀ e, o = .error e → o' = .error e)
    (hok : o = .ok v → o' = .ok w) : Follows tb o' l w := by
  rw [← List.append_nil l]
  exact h.andThen herr fun ho => hok ho ▸ follows_ok tb w

theorem Follows.ok {α : Type} {tb : Tables} {o : Except Fault α} {l : List (TableId × Nat)} {v : α}
    (h : Follows tb o l v) (hl : tb.firstUnwritten l = none) : o = .ok v := by
  unfold Follows at h
  rwa [hl] at h

/-! ### One entry -/

/-- A table's RAM as TableId names it. -/
theorem follows_fetch {w : Nat} {tb : Tables} {r : Ram w} {t : TableId} (i : Nat)
    (h : tb.get t i = (r.get i).map (·.setWidth 32)) : Follows tb (r.fetch t i) [(t, i)] (r.at i) := by
  unfold Follows
  cases hr : r.get i <;> simp [Tables.firstUnwritten, h, hr, Ram.fetch, Ram.at]

theorem follows_dot (tb : Tables) (i : Nat) : Follows tb (tb.dot.fetch .dot i) [(.dot, i)] (tb.dot.at i) :=
  follows_fetch i rfl
theorem follows_art (tb : Tables) (i : Nat) : Follows tb (tb.art.fetch .art i) [(.art, i)] (tb.art.at i) :=
  follows_fetch i rfl
theorem follows_pal16 (tb : Tables) (i : Nat) : Follows tb (tb.pal16.fetch .pal16 i) [(.pal16, i)] (tb.pal16.at i) :=
  follows_fetch i rfl
theorem follows_mono4 (tb : Tables) (i : Nat) : Follows tb (tb.mono4.fetch .mono4 i) [(.mono4, i)] (tb.mono4.at i) :=
  follows_fetch i rfl
theorem follows_monobw (tb : Tables) (i : Nat) :
    Follows tb (tb.monobw.fetch .monobw i) [(.monobw, i)] (tb.monobw.at i) :=
  follows_fetch i rfl

/-! ### Loaded tables -/

theorem get_isSome_of_loaded {w n : Nat} {r : Ram w} (h : Ram.loaded n r = true) {i : Nat} (hi : i < n) :
    (r.get i).isSome = true := by
  simp only [Ram.loaded, List.all_eq_true, List.mem_range] at h
  exact h i hi

theorem nibbleAt_lt (s : Nat → Bool) (x : Nat) : nibbleAt s x < 16 := by
  simp only [nibbleAt]
  cases s x <;> cases s (x + 1) <;> cases s (x + 2) <;> cases s (x + 3) <;> simp

theorem dotPairAt_lt (s : Nat → Bool) (x : Nat) : dotPairAt s x < 4 := by
  simp only [dotPairAt]
  cases s x <;> cases s (x + 1) <;> simp

theorem mixReadsFrom_tables (s f : Nat → Bool) (n x : Nat) :
    ∀ e ∈ mixReadsFrom s f n x, (e.1 = .pal16 ∧ e.2 < 16) ∨ (e.1 = .monobw ∧ e.2 < 2) := by
  have hb : ∀ b : Bool, b.toNat < 2 := by decide
  induction n generalizing x with
  | zero => simp [mixReadsFrom]
  | succ n ih =>
    unfold mixReadsFrom
    split
    · simp
    · split
      · rintro e (_ | ⟨_, he⟩)
        · exact .inl ⟨rfl, nibbleAt_lt _ _⟩
        · exact ih _ e he
      · rintro e (_ | ⟨_, _ | ⟨_, he⟩⟩)
        · exact .inr ⟨rfl, hb _⟩
        · exact .inr ⟨rfl, hb _⟩
        · exact ih _ e he

/-- With the tables of its mode loaded, a line reads only written entries. -/
theorem lineReads_written {p : Params} {tb : Tables} {m : Mode} (h : tb.loadedFor m = true) (a b : Nat → Byte) :
    ∀ e ∈ lineReads p tb m a b, (tb.get e.1 e.2).isSome = true := by
  intro e he
  cases m with
  | base =>
    simp only [Tables.loadedFor, Bool.and_eq_true] at h
    simp only [lineReads, srReads, List.mem_cons, List.mem_flatMap, List.mem_map] at he
    have hd : ∀ v : Byte, (tb.get .dot v.toNat).isSome = true := fun v => by
      simpa [Tables.get] using get_isSome_of_loaded h.1 v.isLt
    obtain rfl | ⟨c, -, rfl | ⟨j, -, rfl⟩⟩ := he
    · exact hd _
    · exact hd _
    · simpa [Tables.get] using get_isSome_of_loaded h.2 (BitVec.isLt _)
  | dr sub =>
    cases sub with
    | s140 =>
      simp only [lineReads, reads140, List.mem_flatMap, List.mem_cons, List.not_mem_nil, or_false] at he
      obtain ⟨k, -, rfl | rfl⟩ := he <;> simpa [Tables.get] using get_isSome_of_loaded h (nibbleAt_lt _ _)
    | s560 =>
      simp only [lineReads, reads560, List.mem_flatMap, List.mem_cons, List.not_mem_nil, or_false] at he
      obtain ⟨k, -, rfl⟩ := he
      simpa [Tables.get] using get_isSome_of_loaded h (dotPairAt_lt _ _)
    | s160 =>
      simp only [lineReads, reads160, byteReads, List.mem_flatMap, List.mem_append, List.mem_cons, List.not_mem_nil,
        or_false] at he
      have hp : ∀ v : BitVec 4, (tb.get .pal16 v.toNat).isSome = true := fun v => by
        simpa [Tables.get] using get_isSome_of_loaded h v.isLt
      obtain ⟨c, -, (rfl | rfl) | (rfl | rfl)⟩ := he <;> exact hp _
    | mix =>
      simp only [Tables.loadedFor, Bool.and_eq_true] at h
      obtain ⟨t, k⟩ := e
      obtain ⟨rfl, hk⟩ | ⟨rfl, hk⟩ := mixReadsFrom_tables _ _ _ _ _ he
      · simpa [Tables.get] using get_isSome_of_loaded h.1 hk
      · simpa [Tables.get] using get_isSome_of_loaded h.2 hk

theorem firstUnwritten_of_loaded {p : Params} {tb : Tables} {m : Mode} (h : tb.loadedFor m = true) (a b : Nat → Byte) :
    tb.firstUnwritten (lineReads p tb m a b) = none := by
  simp only [Tables.firstUnwritten, List.find?_eq_none]
  intro e he
  simp [Option.isNone_iff_eq_none, Option.isSome_iff_ne_none.mp (lineReads_written h a b e he)]

end Sys2Proof.Laws
end

