-- ==== Sys2Proof/Laws/Double.lean ====
section
/-! SUPPORT. The double-resolution engine against the streams: the accumulators hold the dots and flags of S and F, and the entries a line reads and the words it emits are the closed forms' (43_double_res.md R191). -/

namespace Sys2Proof.Laws

open Sys2Proof.Machine

/-! ### The accumulators -/

/-- A 32-bit accumulator holds the dots x, x + 1, … up to e of a stream, the earliest in bit 0, and nothing above. -/
def HoldsDots (acc : BitVec 32) (s : Nat → Bool) (x e : Nat) : Prop :=
  ∀ i, i < 32 → acc.getLsbD i = (decide (x + i < e) && s (x + i))

theorem holdsDots_zero (s : Nat → Bool) (x : Nat) : HoldsDots 0 s x x := by
  intro i _
  simp

theorem HoldsDots.shift {acc : BitVec 32} {s : Nat → Bool} {x e k : Nat} (h : HoldsDots acc s x e) (he : e ≤ x + 32) :
    HoldsDots (acc >>> k) s (x + k) e := by
  intro i hi
  rw [BitVec.getLsbD_ushiftRight]
  by_cases hk : k + i < 32
  · rw [h _ hk, show x + (k + i) = x + k + i by omega]
  · rw [BitVec.getLsbD_of_ge _ _ (by omega)]
    simp; omega

theorem HoldsDots.load {acc : BitVec 32} {s : Nat → Bool} {x e : Nat} {v : BitVec 14} (h : HoldsDots acc s x e)
    (hx : x ≤ e) (he : e + 14 ≤ x + 32) (hv : ∀ j, j < 14 → v.getLsbD j = s (e + j)) :
    HoldsDots (acc ||| (v.setWidth 32 <<< (e - x))) s x (e + 14) := by
  intro i hi
  rw [BitVec.getLsbD_or, h i hi, BitVec.getLsbD_shiftLeft, BitVec.getLsbD_setWidth]
  by_cases h1 : x + i < e
  · simp [h1, show i < e - x by omega, show x + i < e + 14 by omega]
  · by_cases h2 : x + i < e + 14
    · have h3 := hv (i - (e - x)) (by omega)
      rw [show e + (i - (e - x)) = x + i by omega] at h3
      simp [h1, h2, h3, hi, show ¬ i < e - x by omega]
      omega
    · simp [h1, h2, BitVec.getLsbD_of_ge v (i - (e - x)) (by omega)]

/-! ### The dots and flags of a column -/

theorem colDots_getLsbD (il : Interleave) (a m : Nat → Byte) (c j : Nat) (hj : j < 14) :
    (colDots il (a c) (m c)).getLsbD j = drDot il a m (14 * c + j) := by
  have hdiv : (14 * c + j) / 14 = c := by omega
  have hmod : (14 * c + j) % 14 = j := by omega
  cases il with
  | group =>
    simp only [colDots, drDot, hdiv, hmod, BitVec.getLsbD_append, BitVec.getLsbD_extractLsb']
    split <;> simp <;> omega
  | bit =>
    have hpar : (14 * c + j) % 2 = j % 2 := by omega
    simp only [colDots, drDot, hdiv, hmod, hpar]
    rw [BitVec.getLsbD_ofFnLE, dif_pos hj]

theorem rep7_getLsbD (b : Byte) (j : Nat) (hj : j < 7) : (rep7 b).getLsbD j = b.getLsbD 7 := by
  unfold rep7
  split
  · rename_i h
    rw [h]
    interval_cases j <;> rfl
  · simp_all

theorem colFlags_getLsbD (il : Interleave) (a m : Nat → Byte) (c j : Nat) (hj : j < 14) :
    (colFlags il (a c) (m c)).getLsbD j = drFlag il a m (14 * c + j) := by
  have h := colDots_getLsbD il (fun c => rep7 (a c)) (fun c => rep7 (m c)) c j hj
  have hdiv : (14 * c + j) / 14 = c := by omega
  have hmod : (14 * c + j) % 14 = j := by omega
  unfold colFlags
  rw [h]
  cases il with
  | group =>
    simp only [drDot, drFlag, hdiv, hmod]
    split <;> rw [rep7_getLsbD _ _ (by omega)]
  | bit =>
    simp only [drDot, drFlag, hdiv, hmod]
    split <;> rw [rep7_getLsbD _ _ (by omega)]

/-! ### The registers between steps -/

/-- ACC and FACC hold the dots and flags from x up to e, and NAVAIL counts them. -/
structure DrHolds (d : Datapath) (s f : Nat → Bool) (x e : Nat) : Prop where
  acc : HoldsDots d.acc s x e
  facc : HoldsDots d.facc f x e
  navail : d.navail = e - x
  le : x ≤ e

theorem drHolds_start (s f : Nat → Bool) (d : Datapath) : DrHolds (drStart d) s f 0 0 :=
  ⟨holdsDots_zero s 0, holdsDots_zero f 0, rfl, Nat.le_refl 0⟩

theorem DrHolds.take {d : Datapath} {s f : Nat → Bool} {x e k : Nat} (h : DrHolds d s f x e) (hk : x + k ≤ e)
    (he : e ≤ x + 32) : DrHolds (d.take k) s f (x + k) e :=
  ⟨h.acc.shift he, h.facc.shift he, by simp only [Datapath.take, h.navail]; omega, hk⟩

theorem DrHolds.load {d : Datapath} {il : Interleave} {a m : Nat → Byte} {x c : Nat}
    (h : DrHolds d (drDot il a m) (drFlag il a m) x (14 * c)) (he : 14 * c + 14 ≤ x + 32) :
    DrHolds (drLoad il (a c) (m c) d) (drDot il a m) (drFlag il a m) x (14 * (c + 1)) := by
  refine ⟨?_, ?_, ?_, ?_⟩
  · have := h.acc.load h.le he (fun j hj => colDots_getLsbD il a m c j hj)
    simpa only [drLoad, h.navail, Nat.mul_add, Nat.mul_one] using this
  · have := h.facc.load h.le he (fun j hj => colFlags_getLsbD il a m c j hj)
    simpa only [drLoad, h.navail, Nat.mul_add, Nat.mul_one] using this
  · have := h.le
    simp only [drLoad, h.navail]
    omega
  · have := h.le
    omega

/-! ### The table indexes -/

theorem toNat_four : ∀ v : BitVec 4, v.toNat
    = (v.getLsbD 0).toNat + 2 * (v.getLsbD 1).toNat + 4 * (v.getLsbD 2).toNat + 8 * (v.getLsbD 3).toNat := by
  decide

theorem toNat_two : ∀ v : BitVec 2, v.toNat = (v.getLsbD 0).toNat + 2 * (v.getLsbD 1).toNat := by decide

theorem toNat_one : ∀ v : BitVec 1, v.toNat = (v.getLsbD 0).toNat := by decide

theorem HoldsDots.bit {acc : BitVec 32} {s : Nat → Bool} {x e i : Nat} (h : HoldsDots acc s x e) (hi : x + i < e)
    (h32 : i < 32) : acc.getLsbD i = s (x + i) := by
  rw [h i h32]
  simp [hi]

theorem nibble_of_holds {acc : BitVec 32} {s : Nat → Bool} {x e : Nat} (h : HoldsDots acc s x e) (k : Nat)
    (hk : x + k + 4 ≤ e) (h32 : k + 4 ≤ 32) : (acc.extractLsb' k 4).toNat = nibbleAt s (x + k) := by
  rw [toNat_four]
  simp only [BitVec.getLsbD_extractLsb', Nat.reduceLT, decide_true, Bool.true_and, Nat.add_zero, nibbleAt]
  rw [h.bit (i := k) (by omega) (by omega), h.bit (i := k + 1) (by omega) (by omega),
    h.bit (i := k + 2) (by omega) (by omega), h.bit (i := k + 3) (by omega) (by omega)]
  simp only [Nat.add_assoc]

theorem dotPair_of_holds {acc : BitVec 32} {s : Nat → Bool} {x e : Nat} (h : HoldsDots acc s x e) (hk : x + 2 ≤ e) :
    (acc.extractLsb' 0 2).toNat = dotPairAt s x := by
  rw [toNat_two]
  simp only [BitVec.getLsbD_extractLsb', Nat.reduceLT, decide_true, Bool.true_and, Nat.add_zero, Nat.zero_add, dotPairAt]
  rw [h.bit (i := 0) (by omega) (by omega), h.bit (i := 1) (by omega) (by omega)]
  simp only [Nat.add_zero]

theorem dot_of_holds {acc : BitVec 32} {s : Nat → Bool} {x e : Nat} (h : HoldsDots acc s x e) (k : Nat)
    (hk : x + k < e) (h32 : k < 32) : (acc.extractLsb' k 1).toNat = (s (x + k)).toNat := by
  rw [toNat_one]
  simp only [BitVec.getLsbD_extractLsb', Nat.reduceLT, decide_true, Bool.true_and, Nat.add_zero]
  rw [h.bit (i := k) (by omega) (by omega)]

theorem pal16_follows (tb : Tables) (n : BitVec 4) :
    Follows tb (pal16 tb n) [(.pal16, n.toNat)] (tb.pal16.at n.toNat) :=
  follows_pal16 tb n.toNat

theorem nibblePair_follows (tb : Tables) (lo hi : BitVec 4) :
    Follows tb (nibblePair tb lo hi) [(.pal16, lo.toNat), (.pal16, hi.toNat)]
      (xpair (tb.pal16.at lo.toNat) (tb.pal16.at hi.toNat)) :=
  (pal16_follows tb lo).andThen (l' := [_])
    (fun e h => by simp [nibblePair, h])
    (fun h => (pal16_follows tb hi).map (fun e h' => by simp [nibblePair, h, h'])
      (fun h' => by simp [nibblePair, h, h']))

/-! ### Sub-modes with a fixed step -/

/-- A sub-mode whose every step takes `q` dots, and whose k-th step reads `rd k` and emits `wd k`. -/
structure FixedStep (tb : Tables) (sub : Sub) (s f : Nat → Bool) (q : Nat)
    (rd : Nat → List (TableId × Nat)) (wd : Nat → Word) : Prop where
  pos : 0 < q
  takes : ∀ last d, drTakes sub last d = if q ≤ d.navail then some q else none
  word : ∀ {d k e}, DrHolds d s f (q * k) e → q * k + q ≤ e → e ≤ q * k + 32 →
    Follows tb (drWord sub tb d) (rd k) (wd k)

theorem drDrain_fixed {tb : Tables} {sub : Sub} {s f : Nat → Bool} {q : Nat} {rd : Nat → List (TableId × Nat)}
    {wd : Nat → Word} (hf : FixedStep tb sub s f q rd wd) (last : Bool) {e : Nat} (n : Nat) {k : Nat} {d : Datapath}
    (h : DrHolds d s f (q * k) e) (he : e ≤ q * k + 32) (hn : (e - q * k) / q ≤ n) :
    ∃ d', Follows tb (drDrain sub last tb n d) ((List.range' k ((e - q * k) / q)).flatMap rd)
        ((List.range' k ((e - q * k) / q)).map wd, d') ∧
      DrHolds d' s f (q * (k + (e - q * k) / q)) e := by
  have hq := hf.pos
  induction n generalizing k d with
  | zero =>
    have h0 : (e - q * k) / q = 0 := Nat.le_zero.mp hn
    exact ⟨d, by simpa [drDrain, h0] using follows_ok tb _, by simpa [h0] using h⟩
  | succ n ih =>
    by_cases hle : q ≤ e - q * k
    · have hx : q * (k + 1) = q * k + q := by rw [Nat.mul_add, Nat.mul_one]
      have hsub : e - q * (k + 1) = e - q * k - q := by omega
      have hdiv : (e - q * k) / q = (e - q * (k + 1)) / q + 1 := by
        rw [hsub, Nat.div_eq (e - q * k) q, if_pos ⟨hq, hle⟩]
      have hle' := h.le
      have htake : DrHolds (d.take q) s f (q * (k + 1)) e := by
        rw [hx]
        exact h.take (by omega) he
      obtain ⟨d', hd', hh'⟩ := ih htake (by omega) (by omega)
      have ht : drTakes sub last d = some q := by rw [hf.takes, h.navail, if_pos hle]
      refine ⟨d', ?_, ?_⟩
      · rw [hdiv, List.range'_succ, List.flatMap_cons, List.map_cons]
        exact (hf.word h (by omega) he).andThen
          (fun e h => by simp [drDrain, ht, h])
          (fun h => hd'.map (fun e h' => by simp [drDrain, ht, h, h'])
            (fun h' => by simp [drDrain, ht, h, h']))
      · rw [hdiv]
        rw [show k + ((e - q * (k + 1)) / q + 1) = k + 1 + (e - q * (k + 1)) / q by omega]
        exact hh'
    · have ht : drTakes sub last d = none := by rw [hf.takes, h.navail, if_neg hle]
      have h0 : (e - q * k) / q = 0 := Nat.div_eq_of_lt (by omega)
      exact ⟨d, by simpa [drDrain, ht, h0] using follows_ok tb _, by simpa [h0] using h⟩

theorem engineColumns_fixed {p : Params} {tb : Tables} {sub : Sub} {a m : Nat → Byte} {q : Nat}
    {rd : Nat → List (TableId × Nat)} {wd : Nat → Word}
    (hf : FixedStep tb sub (drDot p.drInterleave a m) (drFlag p.drInterleave a m) q rd wd) (hq : q ≤ 8) (hq2 : 2 ≤ q)
    (hcol : ∀ last x y d, drColumn p tb sub last x y d = drDrain sub last tb maxDrains (drLoad p.drInterleave x y d))
    (k : Nat) {c : Nat} {d : Datapath}
    (h : DrHolds d (drDot p.drInterleave a m) (drFlag p.drInterleave a m) (q * (14 * c / q)) (14 * c)) :
    ∃ d', Follows tb (engineColumns p tb (.dr sub) a m k c d)
      ((List.range' (14 * c / q) (14 * (c + k) / q - 14 * c / q)).flatMap rd)
      ((List.range' (14 * c / q) (14 * (c + k) / q - 14 * c / q)).map wd, d') := by
  induction k generalizing c d with
  | zero => exact ⟨d, by simpa [engineColumns] using follows_ok tb _⟩
  | succ k ih =>
    have hq0 := hf.pos
    have hmod : 14 * c - q * (14 * c / q) < q := by
      have := Nat.mod_lt (14 * c) hq0
      have := Nat.div_add_mod (14 * c) q
      omega
    have hload := h.load (by omega)
    have hle : q * (14 * c / q) ≤ 14 * c := Nat.mul_div_le _ _
    have hcount : (14 * (c + 1) - q * (14 * c / q)) / q = 14 * (c + 1) / q - 14 * c / q := by
      exact Nat.sub_mul_div ..
    have hmax : (14 * (c + 1) - q * (14 * c / q)) / q ≤ maxDrains := by
      rw [Nat.div_le_iff_le_mul_add_pred hq0, maxDrains]
      omega
    obtain ⟨d1, hd1, hh1⟩ := drDrain_fixed hf (decide (c + 1 = ncols)) maxDrains hload (by omega) hmax
    have hmono : 14 * c / q ≤ 14 * (c + 1) / q := Nat.div_le_div_right (by omega)
    rw [hcount, Nat.add_sub_cancel' hmono] at hh1
    obtain ⟨d2, hd2⟩ := ih hh1
    have hmono2 : 14 * (c + 1) / q ≤ 14 * (c + 1 + k) / q := Nat.div_le_div_right (by omega)
    refine ⟨d2, ?_⟩
    have hsplit := List.range'_append_1 (s := 14 * c / q) (m := 14 * (c + 1) / q - 14 * c / q)
      (n := 14 * (c + 1 + k) / q - 14 * (c + 1) / q)
    rw [Nat.add_sub_cancel' hmono] at hsplit
    have hlen : 14 * (c + 1) / q - 14 * c / q + (14 * (c + 1 + k) / q - 14 * (c + 1) / q)
        = 14 * (c + 1 + k) / q - 14 * c / q := by omega
    rw [hlen] at hsplit
    rw [show c + (k + 1) = c + 1 + k by omega, ← hsplit, List.flatMap_append, List.map_append]
    rw [hcount] at hd1
    have hstep : ∀ o, drDrain sub (decide (c + 1 = ncols)) tb maxDrains (drLoad p.drInterleave (a c) (m c) d) = o →
        columnOf p tb (.dr sub) a m c d = o := fun o ho => by rw [columnOf, hcol, ho]
    exact hd1.andThen
      (fun e h => by simp [engineColumns, hstep _ h])
      (fun h => hd2.map (fun e h' => by simp [engineColumns, hstep _ h, h'])
        (fun h' => by simp [engineColumns, hstep _ h, h']))

/-- The 140 sub-mode (43_double_res.md R182). -/
theorem fixedStep_140 (tb : Tables) (s f : Nat → Bool) :
    FixedStep tb .s140 s f 8
      (fun k => [(.pal16, nibbleAt s (4 * (2 * k))), (.pal16, nibbleAt s (4 * (2 * k + 1)))])
      fun k => xpair (tb.pal16.at (nibbleAt s (4 * (2 * k)))) (tb.pal16.at (nibbleAt s (4 * (2 * k + 1)))) where
  pos := by omega
  takes := fun _ _ => rfl
  word := by
    intro d k e hd hk he
    have h := nibblePair_follows tb (d.acc.extractLsb' 0 4) (d.acc.extractLsb' 4 4)
    rw [nibble_of_holds hd.acc 0 (by omega) (by omega), nibble_of_holds hd.acc 4 (by omega) (by omega)] at h
    rw [show 8 * k + 0 = 4 * (2 * k) by omega, show 8 * k + 4 = 4 * (2 * k + 1) by omega] at h
    exact h

/-- The 560 sub-mode (43_double_res.md R184). -/
theorem fixedStep_560 (tb : Tables) (s f : Nat → Bool) :
    FixedStep tb .s560 s f 2 (fun i => [(.mono4, dotPairAt s (2 * i))])
      fun i => entryPair (tb.mono4.at (dotPairAt s (2 * i))) where
  pos := by omega
  takes := fun _ _ => rfl
  word := by
    intro d k e hd hk he
    have h := follows_mono4 tb (d.acc.extractLsb' 0 2).toNat
    rw [dotPair_of_holds hd.acc hk] at h
    exact h.map (fun e h => by simp [drWord, step560, dotPair_of_holds hd.acc hk, h])
      (fun h => by simp [drWord, step560, dotPair_of_holds hd.acc hk, h])

theorem engineLine_140 (p : Params) (tb : Tables) (a m : Nat → Byte) (d : Datapath) :
    ∃ d', Follows tb (engineLine p tb (.dr .s140) a m d) (lineReads p tb (.dr .s140) a m)
      (lineContent p tb (.dr .s140) a m, d') := by
  obtain ⟨d', hd'⟩ := engineColumns_fixed (p := p) (a := a) (m := m) (fixedStep_140 tb _ _) (by omega) (by omega)
    (fun _ _ _ _ => rfl) ncols (c := 0) (drHolds_start _ _ d)
  exact ⟨d', by
    simpa [engineLine, startOf, lineContent, lineReads, content140, reads140, List.range_eq_range', ncols] using hd'⟩

theorem engineLine_560 (p : Params) (tb : Tables) (a m : Nat → Byte) (d : Datapath) :
    ∃ d', Follows tb (engineLine p tb (.dr .s560) a m d) (lineReads p tb (.dr .s560) a m)
      (lineContent p tb (.dr .s560) a m, d') := by
  obtain ⟨d', hd'⟩ := engineColumns_fixed (p := p) (a := a) (m := m) (fixedStep_560 tb _ _) (by omega) (by omega)
    (fun _ _ _ _ => rfl) ncols (c := 0) (drHolds_start _ _ d)
  exact ⟨d', by
    simpa only [engineLine, startOf, lineContent, lineReads, content560, reads560, List.range_eq_range', ncols] using hd'⟩

/-! ### The 160 sub-mode (43_double_res.md R186) -/

theorem column160_follows (tb : Tables) (a m : Byte) :
    Follows tb (column160 tb a m) (byteReads a ++ byteReads m) [byteWord tb a, byteWord tb m] :=
  (nibblePair_follows tb _ _).andThen
    (fun e h => by simp [column160, h])
    (fun h => (nibblePair_follows tb _ _).map (fun e h' => by simp [column160, h, h'])
      (fun h' => by simp [column160, h, h', byteWord]))

theorem engineColumns_160 (p : Params) (tb : Tables) (a m : Nat → Byte) (k c : Nat) (d : Datapath) :
    Follows tb (engineColumns p tb (.dr .s160) a m k c d)
      ((List.range' c k).flatMap fun c => byteReads (a c) ++ byteReads (m c))
      ((List.range' c k).flatMap fun c => [byteWord tb (a c), byteWord tb (m c)], d) := by
  induction k generalizing c with
  | zero => exact follows_ok tb _
  | succ k ih =>
    rw [List.range'_succ, List.flatMap_cons, List.flatMap_cons]
    exact (column160_follows tb (a c) (m c)).andThen
      (fun e h => by simp [engineColumns, columnOf, drColumn, h])
      (fun h => (ih (c + 1)).map (fun e h' => by simp [engineColumns, columnOf, drColumn, h, h'])
        (fun h' => by simp [engineColumns, columnOf, drColumn, h, h']))

theorem engineLine_160 (p : Params) (tb : Tables) (a m : Nat → Byte) (d : Datapath) :
    ∃ d', Follows tb (engineLine p tb (.dr .s160) a m d) (lineReads p tb (.dr .s160) a m)
      (lineContent p tb (.dr .s160) a m, d') :=
  ⟨drStart d, by
    simpa only [engineLine, startOf, lineContent, lineReads, content160, reads160, List.range_eq_range', ncols]
      using engineColumns_160 p tb a m ncols 0 (drStart d)⟩

/-! ### The mixed sub-mode (43_double_res.md R188) -/

theorem zero_four : ∀ v : BitVec 4, (v == 0) = (!v.getLsbD 0 && !v.getLsbD 1 && !v.getLsbD 2 && !v.getLsbD 3) := by
  decide

/-- The accumulator form takes the colour path where the stream form does. -/
theorem mixColour_of_holds {d : Datapath} {s f : Nat → Bool} {x e : Nat} (h : DrHolds d s f x e) (he : e ≤ 560)
    (hlast : 4 ≤ e - x ∨ e = 560) : mixColour d = mixColourAt f x := by
  have hle := h.le
  unfold mixColour mixColourAt
  rw [h.navail]
  by_cases h4 : 4 ≤ e - x
  · rw [zero_four]
    simp only [BitVec.getLsbD_extractLsb', Nat.reduceLT, decide_true, Bool.true_and, Nat.zero_add]
    rw [h.facc.bit (i := 0) (by omega) (by omega), h.facc.bit (i := 1) (by omega) (by omega),
      h.facc.bit (i := 2) (by omega) (by omega), h.facc.bit (i := 3) (by omega) (by omega)]
    simp [h4, show x + 4 ≤ 560 by omega]
  · simp [h4, show ¬ x + 4 ≤ 560 by omega]

/-- The entries one step of the mixed sub-mode reads. -/
def mixReadsAt (s : Nat → Bool) (colour : Bool) (x : Nat) : List (TableId × Nat) :=
  if colour then [(.pal16, nibbleAt s x)] else [(.monobw, (s x).toNat), (.monobw, (s (x + 1)).toNat)]

/-- The word one step of the mixed sub-mode emits. -/
def mixWordAt (tb : Tables) (s : Nat → Bool) (colour : Bool) (x : Nat) : Word :=
  if colour then w2 (tb.pal16.at (nibbleAt s x)) 1 (tb.pal16.at (nibbleAt s x)) 1
  else pair (tb.monobw.at (s x).toNat) (tb.monobw.at (s (x + 1)).toNat)

/-- The dots one step of the mixed sub-mode takes. -/
def mixTakes (colour : Bool) : Nat := if colour then 4 else 2

theorem mixFrom_succ (tb : Tables) (s f : Nat → Bool) (n x : Nat) (h : x < 560) :
    mixFrom tb s f (n + 1) x
      = mixWordAt tb s (mixColourAt f x) x :: mixFrom tb s f n (x + mixTakes (mixColourAt f x)) := by
  rw [mixFrom, if_neg (by omega)]
  cases mixColourAt f x <;> rfl

theorem mixReadsFrom_succ (s f : Nat → Bool) (n x : Nat) (h : x < 560) :
    mixReadsFrom s f (n + 1) x
      = mixReadsAt s (mixColourAt f x) x ++ mixReadsFrom s f n (x + mixTakes (mixColourAt f x)) := by
  rw [mixReadsFrom, if_neg (by omega)]
  cases mixColourAt f x <;> rfl

theorem drWord_mix (tb : Tables) {d : Datapath} {s f : Nat → Bool} {x e : Nat} (h : DrHolds d s f x e) (h2 : x + 2 ≤ e)
    (h4 : mixColour d = true → x + 4 ≤ e) :
    Follows tb (drWord .mix tb d) (mixReadsAt s (mixColour d) x) (mixWordAt tb s (mixColour d) x) := by
  by_cases hc : mixColour d = true
  · have hn := pal16_follows tb (d.acc.extractLsb' 0 4)
    rw [nibble_of_holds h.acc 0 (by have := h4 hc; omega) (by omega), Nat.add_zero] at hn
    rw [hc]
    exact hn.map (fun e h => by simp [drWord, hc, stepMixColour, h])
      (fun h => by simp [drWord, hc, stepMixColour, h, mixWordAt])
  · rw [Bool.not_eq_true] at hc
    have h0 := follows_monobw tb (d.acc.extractLsb' 0 1).toNat
    have h1 := follows_monobw tb (d.acc.extractLsb' 1 1).toNat
    have i0 := dot_of_holds h.acc 0 (by omega) (by omega)
    have i1 := dot_of_holds h.acc 1 (by omega) (by omega)
    rw [Nat.add_zero] at i0
    rw [i0] at h0
    rw [i1] at h1
    rw [hc]
    exact h0.andThen (l' := [_])
      (fun e h => by simp [drWord, hc, stepMixMono, i0, h])
      (fun h => h1.map (fun e h' => by simp [drWord, hc, stepMixMono, i0, i1, h, h'])
        (fun h' => by simp [drWord, hc, stepMixMono, i0, i1, h, h', mixWordAt]))

/-- The drain of a column is a run of the stream form's steps. -/
theorem drDrain_mix (tb : Tables) {s f : Nat → Bool} {last : Bool} {e : Nat} (he : e ≤ 560)
    (hlast : last = true → e = 560) (heven : e % 2 = 0)
    (n : Nat) {x : Nat} {d : Datapath} (h : DrHolds d s f x e) (hx : x % 2 = 0) (h32 : e ≤ x + 32)
    (hn : e ≤ x + 2 * n) :
    ∃ ws rs d' x', Follows tb (drDrain .mix last tb n d) rs (ws, d') ∧ DrHolds d' s f x' e ∧ x' % 2 = 0 ∧
      (last = true → x' = e) ∧ e < x' + 4 ∧ x + 2 * ws.length ≤ x' ∧
      ∀ N, mixFrom tb s f (ws.length + N) x = ws ++ mixFrom tb s f N x' ∧
        mixReadsFrom s f (ws.length + N) x = rs ++ mixReadsFrom s f N x' := by
  induction n generalizing x d with
  | zero =>
    have hle := h.le
    exact ⟨[], [], d, x, follows_ok tb _, h, hx, fun _ => by omega, by omega, by simp, fun N => by simp⟩
  | succ n ih =>
    have hle := h.le
    by_cases ht : 4 ≤ d.navail ∨ (last = true ∧ 2 ≤ d.navail)
    · have hnav := h.navail
      have h2 : x + 2 ≤ e := by omega
      have hcol : mixColour d = mixColourAt f x := by
        refine mixColour_of_holds h he ?_
        obtain h4 | ⟨hl, -⟩ := ht
        · exact .inl (by omega)
        · exact .inr (hlast hl)
      have h4 : mixColour d = true → x + 4 ≤ e := by
        intro hc
        simp only [mixColour, Bool.and_eq_true, decide_eq_true_eq] at hc
        omega
      have hk : 2 ≤ mixTakes (mixColour d) ∧ mixTakes (mixColour d) % 2 = 0 ∧ x + mixTakes (mixColour d) ≤ e := by
        cases hc : mixColour d
        · exact ⟨by decide, by decide, h2⟩
        · exact ⟨by decide, by decide, h4 hc⟩
      have htakes : drTakes .mix last d = some (mixTakes (mixColour d)) := by simp only [drTakes, if_pos ht, mixTakes]
      obtain ⟨ws, rs, d', x', h1, h2', h3, h5, h6, h7, h8⟩ :=
        ih (h.take hk.2.2 h32) (by omega) (by omega) (by omega)
      refine ⟨mixWordAt tb s (mixColour d) x :: ws, mixReadsAt s (mixColour d) x ++ rs, d', x', ?_, h2', h3, h5, h6, ?_, ?_⟩
      · exact (drWord_mix tb h h2 h4).andThen
          (fun e h => by simp [drDrain, htakes, h])
          (fun h => h1.map (fun e h' => by simp [drDrain, htakes, h, h'])
            (fun h' => by simp [drDrain, htakes, h, h']))
      · simp only [List.length_cons]; omega
      · intro N
        rw [List.length_cons, show ws.length + 1 + N = ws.length + N + 1 by omega,
          mixFrom_succ _ _ _ _ _ (by omega), mixReadsFrom_succ _ _ _ _ (by omega), ← hcol, (h8 N).1, (h8 N).2]
        simp
    · have hnav := h.navail
      have htakes : drTakes .mix last d = none := by simp only [drTakes, if_neg ht]
      refine ⟨[], [], d, x, by simpa [drDrain, htakes] using follows_ok tb _, h, hx, ?_, by omega, by simp,
        fun N => by simp⟩
      intro hl
      by_contra hne
      exact ht (.inr ⟨hl, by omega⟩)

theorem engineColumns_mix (p : Params) (tb : Tables) (a m : Nat → Byte) (k : Nat) {c x : Nat} {d : Datapath}
    (h : DrHolds d (drDot p.drInterleave a m) (drFlag p.drInterleave a m) x (14 * c)) (hx : x % 2 = 0)
    (hlow : 14 * c < x + 4) (hc : c + (k + 1) = ncols) :
    ∃ ws rs d', Follows tb (engineColumns p tb (.dr .mix) a m (k + 1) c d) rs (ws, d') ∧ x + 2 * ws.length ≤ 560 ∧
      ∀ N, mixFrom tb (drDot p.drInterleave a m) (drFlag p.drInterleave a m) (ws.length + N) x
          = ws ++ mixFrom tb (drDot p.drInterleave a m) (drFlag p.drInterleave a m) N 560 ∧
        mixReadsFrom (drDot p.drInterleave a m) (drFlag p.drInterleave a m) (ws.length + N) x
          = rs ++ mixReadsFrom (drDot p.drInterleave a m) (drFlag p.drInterleave a m) N 560 := by
  unfold ncols at hc
  induction k generalizing c x d with
  | zero =>
    obtain ⟨ws, rs, d', x', h1, h2, h3, h5, h6, h7, h8⟩ :=
      drDrain_mix tb (last := decide (c + 1 = ncols)) (e := 14 * (c + 1)) (by omega)
        (fun _ => by omega) (by omega) maxDrains (h.load (by omega)) hx (by omega) (by unfold maxDrains; omega)
    have hx' : x' = 560 := by
      rw [h5 (by simp [ncols]; omega)]
      omega
    subst hx'
    refine ⟨ws, rs, d', ?_, by omega, h8⟩
    exact h1.map (fun e h => by simp [engineColumns, columnOf, drColumn, h])
      (fun h => by simp [engineColumns, columnOf, drColumn, h])
  | succ k ih =>
    obtain ⟨ws1, rs1, d1, x1, h1, h2, h3, h5, h6, h7, h8⟩ :=
      drDrain_mix tb (last := decide (c + 1 = ncols)) (e := 14 * (c + 1)) (by omega)
        (fun hl => by simp [ncols] at hl; omega) (by omega) maxDrains (h.load (by omega)) hx (by omega)
        (by unfold maxDrains; omega)
    obtain ⟨ws2, rs2, d2, g1, g2, g3⟩ := ih h2 h3 h6 (by omega)
    refine ⟨ws1 ++ ws2, rs1 ++ rs2, d2, ?_, ?_, ?_⟩
    · exact h1.andThen
        (fun e h => by rw [engineColumns]; simp [columnOf, drColumn, h])
        (fun h => g1.map (fun e h' => by rw [engineColumns]; simp [columnOf, drColumn, h, h'])
          (fun h' => by rw [engineColumns]; simp [columnOf, drColumn, h, h']))
    · rw [List.length_append]; omega
    · intro N
      rw [List.length_append, Nat.add_assoc, (h8 _).1, (h8 _).2, (g3 N).1, (g3 N).2, List.append_assoc, List.append_assoc]
      exact ⟨rfl, rfl⟩

theorem mixFrom_end (tb : Tables) (s f : Nat → Bool) (N : Nat) : mixFrom tb s f N 560 = [] := by
  cases N <;> simp [mixFrom]

theorem mixReadsFrom_end (s f : Nat → Bool) (N : Nat) : mixReadsFrom s f N 560 = [] := by
  cases N <;> simp [mixReadsFrom]

theorem engineLine_mix (p : Params) (tb : Tables) (a m : Nat → Byte) (d : Datapath) :
    ∃ d', Follows tb (engineLine p tb (.dr .mix) a m d) (lineReads p tb (.dr .mix) a m)
      (lineContent p tb (.dr .mix) a m, d') := by
  obtain ⟨ws, rs, d', h1, h2, h3⟩ := engineColumns_mix p tb a m 39 (c := 0) (drHolds_start _ _ d)
    (by omega) (by omega) rfl
  refine ⟨d', ?_⟩
  have := h3 (280 - ws.length)
  rw [show ws.length + (280 - ws.length) = 280 by omega, mixFrom_end, mixReadsFrom_end, List.append_nil,
    List.append_nil] at this
  rw [lineReads, lineContent, contentMix, this.1, this.2]
  exact h1

end Sys2Proof.Laws
end

