-- ==== Sys2Proof/Laws/Single.lean ====
section
/-! SUPPORT. The single-resolution engine against the stream: ACC holds the dots of D, and the entries a line reads and the words it emits are the closed form's (42_single_res.md R165); and the engine of a line in every mode. -/

namespace Sys2Proof.Laws

open Sys2Proof.Machine

/-! ### The window -/

/-- ACC holds the dots x, x + 1, … up to e of a stream, the earliest in bit 31, and nothing below. -/
def SrHolds (acc : BitVec 32) (s : Nat → Bool) (x e : Nat) : Prop :=
  ∀ i, i < 32 → acc.getLsbD (31 - i) = (decide (x + i < e) && s (x + i))

theorem SrHolds.bit {acc : BitVec 32} {s : Nat → Bool} {x e : Nat} (h : SrHolds acc s x e) {n : Nat} (hn : n < 32)
    (he : x + (31 - n) < e) : acc.getLsbD n = s (x + (31 - n)) := by
  have := h (31 - n) (by omega)
  rw [show 31 - (31 - n) = n by omega] at this
  simpa [he] using this

theorem SrHolds.shift {acc : BitVec 32} {s : Nat → Bool} {x e : Nat} (h : SrHolds acc s x e) (he : e ≤ x + 32) :
    SrHolds (acc <<< 2) s (x + 2) e := by
  intro i hi
  rw [BitVec.getLsbD_shiftLeft]
  by_cases h2 : 31 - i < 2
  · simp [h2]
    omega
  · have := h (i + 2) (by omega)
    rw [show 31 - (i + 2) = 31 - i - 2 by omega, show x + (i + 2) = x + 2 + i by omega] at this
    simp [h2, this]
    omega

/-- Eight dots, the first in bit 7. -/
theorem getLsbD_eight : ∀ (d0 d1 d2 d3 d4 d5 d6 d7 : Bool) (n : Fin 8),
    (BitVec.ofBool d0 ++ BitVec.ofBool d1 ++ BitVec.ofBool d2 ++ BitVec.ofBool d3 ++ BitVec.ofBool d4
      ++ BitVec.ofBool d5 ++ BitVec.ofBool d6 ++ BitVec.ofBool d7).getLsbD n.val
      = [d7, d6, d5, d4, d3, d2, d1, d0].getD n.val false := by decide

theorem window_of_holds {acc : BitVec 32} {s : Nat → Bool} {j e : Nat} (h : SrHolds acc s (2 * j) e)
    (he : 2 * j + 8 ≤ e) : acc.extractLsb' 24 8 = srWindow s j := by
  apply BitVec.eq_of_getLsbD_eq
  intro n hn
  rw [BitVec.getLsbD_extractLsb']
  simp only [hn, decide_true, Bool.true_and]
  rw [h.bit (by omega) (by omega)]
  unfold srWindow
  rw [getLsbD_eight _ _ _ _ _ _ _ _ ⟨n, hn⟩]
  interval_cases n <;> rfl

/-! ### The drain -/

theorem srDrain_follows (tb : Tables) {s : Nat → Bool} {e : Nat} (n : Nat) {j : Nat} {acc : BitVec 32}
    (h : SrHolds acc s (2 * j) e) (h32 : e ≤ 2 * j + 32) (he : 2 * (j + n) + 6 ≤ e) :
    ∃ acc', Follows tb (srDrain tb.art n acc (j % 2 == 1)) ((List.range' j n).map fun k => (.art, srIndex s k))
        ((List.range' j n).map (srWord tb s), acc', (j + n) % 2 == 1) ∧
      SrHolds acc' s (2 * (j + n)) e := by
  induction n generalizing j acc with
  | zero => exact ⟨acc, follows_ok tb _, h⟩
  | succ n ih =>
    obtain ⟨acc', h1, h2⟩ := ih (j := j + 1) (acc := acc <<< 2) (h.shift h32) (by omega) (by omega)
    refine ⟨acc', ?_, by rwa [show j + (n + 1) = j + 1 + n by omega]⟩
    have hphase : (!(j % 2 == 1)) = ((j + 1) % 2 == 1) := by
      obtain h0 | h0 := Nat.mod_two_eq_zero_or_one j <;> simp [Nat.add_mod, h0]
    have hidx : (artIndex (j % 2 == 1) acc).toNat = srIndex s j := by
      rw [artIndex, window_of_holds h (by omega), srIndex]
    have hart := follows_art tb (artIndex (j % 2 == 1) acc).toNat
    rw [hidx] at hart
    rw [show j + (n + 1) = j + 1 + n by omega]
    exact hart.andThen
      (fun e h => by simp only [srDrain, hidx, h])
      (fun h => h1.map (fun e h' => by simp only [srDrain, hidx, h, hphase, h'])
        (fun h' => by simp only [srDrain, hidx, h, hphase, h', List.range'_succ, List.map_cons, srWord]))

/-! ### The load -/

theorem srLoad_getLsbD (p : Fin 5) (acc : BitVec 32) (b : Byte) (e : BitVec 14) (n : Nat) (hn : n < 32) :
    (srLoad p acc b e).getLsbD n
      = (acc.getLsbD n || (b.getLsbD 7 && decide (n = 17 - p.val) && acc.getLsbD (18 - p.val))
        || (decide (4 - p.val ≤ n) && e.getLsbD (n - (4 - p.val)))) := by
  have hp := p.isLt
  have hmask : (((acc >>> 1) &&& ((1 : BitVec 32) <<< (17 - p.val)))).getLsbD n
      = (decide (n = 17 - p.val) && acc.getLsbD (18 - p.val)) := by
    rw [BitVec.getLsbD_and, BitVec.getLsbD_ushiftRight, BitVec.getLsbD_shiftLeft]
    by_cases h : n = 17 - p.val
    · subst h
      rw [show 1 + (17 - p.val) = 18 - p.val by omega]
      simp [hn]
    · have hz : n < 17 - p.val ∨ ¬ n - (17 - p.val) = 0 := by omega
      have hone : (1 : BitVec 32).getLsbD (n - (17 - p.val)) = decide (n - (17 - p.val) = 0) := by
        rw [show (1 : BitVec 32) = 1#32 from rfl, BitVec.getLsbD_one]
        simp
      rw [hone]
      obtain hz | hz := hz <;> simp [h, hz]
  have hentry : (e.setWidth 32 <<< (4 - p.val)).getLsbD n
      = (decide (4 - p.val ≤ n) && e.getLsbD (n - (4 - p.val))) := by
    rw [BitVec.getLsbD_shiftLeft, BitVec.getLsbD_setWidth]
    by_cases h : n < 4 - p.val
    · simp [h, Nat.not_le.mpr h]
    · simp [h, hn, Nat.le_of_not_lt h, show n - (4 - p.val) < 32 by omega]
  unfold srLoad
  by_cases hb : b.getLsbD 7 = true
  · simp only [hb, if_true, BitVec.getLsbD_or, hmask, hentry, Bool.true_and]
  · simp only [hb, if_false, Bool.false_eq_true, BitVec.getLsbD_or, hentry]
    simp

theorem srStream_at (p : Nat) (tb : Tables) (b : Nat → Byte) (k r : Nat) (hk : k ≤ 40) (hr : r < 14) :
    srStream p tb b (p + 14 * k + r) = srDots tb b k r := by
  unfold srStream
  have h1 : (p + 14 * k + r - p) / 14 = k := by omega
  have h2 : (p + 14 * k + r - p) % 14 = r := by omega
  rw [h1, h2]
  simp [hk]
  omega

theorem srHolds_first (p : Fin 5) (tb : Tables) (b : Nat → Byte) :
    SrHolds (srFirst p (tb.dot.at (b 0).toNat)) (srStream p.val tb b) 0 (p.val + 14) := by
  have hp := p.isLt
  intro i hi
  unfold srFirst
  rw [BitVec.getLsbD_shiftLeft, BitVec.getLsbD_setWidth]
  by_cases h1 : i < p.val
  · have : (tb.dot.at (b 0).toNat).getLsbD (31 - i - (18 - p.val)) = false :=
      BitVec.getLsbD_of_ge _ _ (by omega)
    simp [this, srStream]
    omega
  · by_cases h2 : i < p.val + 14
    · have hs := srStream_at p.val tb b 0 (i - p.val) (by omega) (by omega)
      rw [show p.val + 14 * 0 + (i - p.val) = 0 + i by omega] at hs
      rw [hs]
      have h3 : 31 - i - (18 - p.val) = 13 - (i - p.val) := by omega
      simp [h2, h3, srDots, dots14, show ¬ 31 - i < 18 - p.val by omega, show i - p.val < 14 by omega,
        show 31 - i < 32 by omega, show 13 - (i - p.val) < 32 by omega]
    · simp [h2, show 31 - i < 18 - p.val by omega]

theorem SrHolds.load {p : Fin 5} {tb : Tables} {b : Nat → Byte} {c : Nat} {acc : BitVec 32}
    (h : SrHolds acc (srStream p.val tb b) (14 * c) (p.val + 14 * (c + 1))) (hc : c < 40) :
    SrHolds (srLoad p acc (b (c + 1)) (tb.dot.at (b (c + 1)).toNat)) (srStream p.val tb b) (14 * c)
      (p.val + 14 * (c + 2)) := by
  have hp := p.isLt
  intro i hi
  rw [srLoad_getLsbD _ _ _ _ _ (by omega), h i hi]
  by_cases h1 : 14 * c + i < p.val + 14 * (c + 1)
  · have h2 : ¬ 31 - i = 17 - p.val := by omega
    have h3 : (tb.dot.at (b (c + 1)).toNat).getLsbD (31 - i - (4 - p.val)) = false :=
      BitVec.getLsbD_of_ge _ _ (by omega)
    simp [h1, h2, h3]
    omega
  · by_cases h2 : 14 * c + i < p.val + 14 * (c + 2)
    · have hs := srStream_at p.val tb b (c + 1) (14 * c + i - (p.val + 14 * (c + 1))) (by omega) (by omega)
      rw [show p.val + 14 * (c + 1) + (14 * c + i - (p.val + 14 * (c + 1))) = 14 * c + i by omega] at hs
      have hbit : acc.getLsbD (18 - p.val) = srStream p.val tb b (p.val + 14 * c + 13) := by
        rw [h.bit (by omega) (by omega)]
        congr 1
        omega
      rw [srStream_at p.val tb b c 13 (by omega) (by omega)] at hbit
      have hlast : srDots tb b c 13 = dots14 (tb.dot.at (b c).toNat) 13 := by simp [srDots]
      have h3 : 31 - i - (4 - p.val) = 13 - (14 * c + i - (p.val + 14 * (c + 1))) := by omega
      have h4 : (31 - i = 17 - p.val) = (14 * c + i - (p.val + 14 * (c + 1)) = 0) := by
        apply propext; omega
      rw [hs, hbit, hlast, h3]
      simp only [h1, h2, h4, srDots, decide_true, decide_false, Bool.false_and, Bool.false_or, Bool.true_and,
        Nat.add_sub_cancel, show 4 - p.val ≤ 31 - i by omega, show 1 ≤ c + 1 by omega, Bool.and_true]
      simp only [dots14, show 14 * c + i - (p.val + 14 * (c + 1)) < 14 by omega, decide_true, Bool.true_and]
      rw [Bool.or_comm]
      cases (b (c + 1)).getLsbD 7 <;> simp
    · have h3 : ¬ 31 - i = 17 - p.val := by omega
      have h4 : ¬ 4 - p.val ≤ 31 - i := by omega
      simp [h1, h2, h3, h4]

/-! ### The line -/

/-- One column: the next byte's DOT entry, and the seven windows it completes. -/
theorem srColumn_follows {p : Params} {tb : Tables} {b : Nat → Byte} {c : Nat} {d : Datapath} (hc : c < 40)
    (h : SrHolds d.acc (srStream p.srLookback.val tb b) (14 * c) (p.srLookback.val + 14 * (c + 1)))
    (hphase : d.phase = (7 * c % 2 == 1)) :
    ∃ d', Follows tb (srColumn p tb (b (c + 1)) d)
        ((.dot, (b (c + 1)).toNat)
          :: (List.range' (7 * c) 7).map fun j => (.art, srIndex (srStream p.srLookback.val tb b) j))
        ((List.range' (7 * c) 7).map (srWord tb (srStream p.srLookback.val tb b)), d') ∧
      SrHolds d'.acc (srStream p.srLookback.val tb b) (14 * (c + 1)) (p.srLookback.val + 14 * (c + 1 + 1)) ∧
      d'.phase = (7 * (c + 1) % 2 == 1) := by
  have hp := p.srLookback.isLt
  have hload := h.load hc
  rw [show 14 * c = 2 * (7 * c) by omega] at hload
  obtain ⟨acc', h1, h2⟩ := srDrain_follows tb 7 hload (by omega) (by omega)
  rw [show 2 * (7 * c + 7) = 14 * (c + 1) by omega, show c + 2 = c + 1 + 1 by omega] at h2
  refine ⟨{ d with acc := acc', phase := (7 * c + 7) % 2 == 1 }, ?_, h2, by simp only [Nat.mul_add, Nat.mul_one]⟩
  exact (follows_dot tb (b (c + 1)).toNat).andThen
    (fun e h => by simp only [srColumn, h])
    (fun h => h1.map (fun e h' => by simp only [srColumn, h, hphase, h'])
      (fun h' => by simp only [srColumn, h, hphase, h']))

theorem engineColumns_base {p : Params} {tb : Tables} {a m b : Nat → Byte}
    (hb : ∀ k, b k = if k < ncols then m k else 0) (k : Nat) {c : Nat} {d : Datapath} (hk : c + k = ncols)
    (h : SrHolds d.acc (srStream p.srLookback.val tb b) (14 * c) (p.srLookback.val + 14 * (c + 1)))
    (hphase : d.phase = (7 * c % 2 == 1)) :
    ∃ d', Follows tb (engineColumns p tb .base a m k c d)
      ((List.range' c k).flatMap fun c => (.dot, (b (c + 1)).toNat)
        :: (List.range' (7 * c) 7).map fun j => (.art, srIndex (srStream p.srLookback.val tb b) j))
      ((List.range' (7 * c) (7 * k)).map (srWord tb (srStream p.srLookback.val tb b)), d') := by
  unfold ncols at hk
  induction k generalizing c d with
  | zero => exact ⟨d, follows_ok tb _⟩
  | succ k ih =>
    obtain ⟨d1, h1, h2, h3⟩ := srColumn_follows (by omega) h hphase
    obtain ⟨d2, hd2⟩ := ih (c := c + 1) (by omega) h2 h3
    refine ⟨d2, ?_⟩
    have hby : columnOf p tb .base a m c d = srColumn p tb (b (c + 1)) d := by rw [columnOf, hb (c + 1)]
    rw [List.range'_succ, List.flatMap_cons, show 7 * (k + 1) = 7 + 7 * k by omega, ← List.range'_append_1,
      List.map_append]
    rw [show 7 * (c + 1) = 7 * c + 7 by omega] at hd2
    exact h1.andThen
      (fun e h => by simp only [engineColumns, hby, h])
      (fun h => hd2.map (fun e h' => by simp only [engineColumns, hby, h, h'])
        (fun h' => by simp only [engineColumns, hby, h, h']))

theorem engineLine_base (p : Params) (tb : Tables) (a m : Nat → Byte) (d : Datapath) :
    ∃ d', Follows tb (engineLine p tb .base a m d) (lineReads p tb .base a m) (lineContent p tb .base a m, d') := by
  obtain ⟨d', hd'⟩ := engineColumns_base (p := p) (tb := tb) (a := a) (m := m)
    (b := fun k => if k < 40 then m k else 0) (fun _ => rfl) ncols (c := 0)
    (d := { d with acc := srFirst p.srLookback (tb.dot.at (m 0).toNat), phase := false }) rfl
    (srHolds_first p.srLookback tb (fun k => if k < 40 then m k else 0)) rfl
  refine ⟨d', ?_⟩
  rw [lineReads, srReads, List.range_eq_range', lineContent, srContent, List.range_eq_range']
  exact (follows_dot tb (m 0).toNat).andThen (fun e h => by simp only [engineLine, startOf, srStart, h])
    fun h => hd'.map (fun e h' => by simpa only [engineLine, startOf, srStart, h] using h')
      fun h' => by simp only [engineLine, startOf, srStart, h]; exact h'

/-- In every mode the engine of a line reads the entries `lineReads` lists, in that order, and emits the closed form's
content. -/
theorem engineLine_follows (p : Params) (tb : Tables) (m : Mode) (a b : Nat → Byte) (d : Datapath) :
    ∃ d', Follows tb (engineLine p tb m a b d) (lineReads p tb m a b) (lineContent p tb m a b, d') := by
  cases m with
  | base => exact engineLine_base p tb a b d
  | dr sub =>
    cases sub with
    | s140 => exact engineLine_140 p tb a b d
    | s560 => exact engineLine_560 p tb a b d
    | s160 => exact engineLine_160 p tb a b d
    | mix => exact engineLine_mix p tb a b d

/-- In every mode, the engine of a line whose tables are loaded emits the closed form's content. -/
theorem engineLine_content {p : Params} {tb : Tables} {m : Mode} (h : tb.loadedFor m = true) (a b : Nat → Byte)
    (d : Datapath) : ∃ d', engineLine p tb m a b d = .ok (lineContent p tb m a b, d') := by
  obtain ⟨d', hd'⟩ := engineLine_follows p tb m a b d
  exact ⟨d', hd'.ok (firstUnwritten_of_loaded h a b)⟩

end Sys2Proof.Laws
end

