-- ==== Sys2Proof/Laws/Command.lean ====
section
/-! SUPPORT. The run of a whole command, from its start or from any point at which it has waited: it issues the requests it has still to issue and completes, or it faults at the first unwritten entry among those it has still to read. -/

namespace Sys2Proof.Laws

open Sys2Proof.Machine

/-! ### Runs -/

/-- SEQ's run from `s` ends in `o`, whatever the bound, if it covers the steps left. -/
def Runs (job : Job) (s : State) (o : Host.Outcome State Fault Refusal) : Prop :=
  ∀ n, rank job s ≤ n → runSeq job n s = o

/-- Nothing disturbs SEQ: no input is to come, no byte's reads are draws, and DRV answers with large buffers. -/
structure Served (s : State) : Prop where
  busy : s.seqState = .busy
  inputs : s.inputs = []
  raced : s.raced = []
  drv : s.drvReady = true
  cap : minCapacity ≤ s.params.slCap

theorem Runs.step {job : Job} {s t : State} {o : Host.Outcome State Fault Refusal} (h : Runs job t o)
    (hb : s.seqState = .busy) (hi : s.inputs = []) (hw : s.waiting = false) (hst : seqStep job s = .next t)
    (hti : t.inputs = []) (htb : t.seqState = .busy) : Runs job s o := by
  intro n hn
  obtain hr | hr := seqStep_rank hst
  · obtain ⟨n, rfl⟩ : ∃ k, n = k + 1 := ⟨n - 1, by omega⟩
    rw [runSeq_succ hb hw hi hst hti]
    exact h n (by omega)
  · rw [htb] at hr
    cases hr

/-- What one or more steps of a command leave, having issued `reqs`. -/
structure Advance (s : State) (reqs : List Request) (t : State) : Prop where
  frame : SeqFrame s t
  fcfg : t.fcfg = s.fcfg
  mode : t.mode = s.mode
  inputs : s.inputs = [] → t.inputs = []
  held : s.held = none → t.held = none
  out : t.out = s.out ++ reqs

theorem Advance.trans' {s t u : State} {r r' : List Request} (h : Advance s r t) (k : Advance t r' u) :
    Advance s (r ++ r') u where
  frame := h.frame.trans' k.frame
  fcfg := k.fcfg.trans h.fcfg
  mode := k.mode.trans h.mode
  inputs := fun hi => k.inputs (h.inputs hi)
  held := fun hh => k.held (h.held hh)
  out := by rw [k.out, h.out, List.append_assoc]

theorem advance_rfl (s : State) : Advance s [] s :=
  ⟨SeqFrame.rfl' s, rfl, rfl, fun h => h, fun h => h, (List.append_nil _).symm⟩

theorem advance_request (s : State) (r : Request) (p : Point) : Advance s [r] (s.request r p) := by
  refine ⟨?_, rfl, rfl, fun h => h, fun h => h, rfl⟩
  constructor <;> first | rfl | exact List.prefix_append _ _

/-- SEQ_POS is no part of what an advance speaks of. -/
theorem advance_seek (s : State) (p : Point) (L r : Nat) : Advance s [] { s with point := p, lctr := L, trow := r } := by
  refine ⟨?_, rfl, rfl, fun h => h, fun h => h, (List.append_nil _).symm⟩
  constructor <;> rfl

theorem advance_line (s : State) (m : Mode) (ws : List Word) (d : Datapath) :
    Advance s [.submitScanline (lineBuffer s.fcfg m ws)] (afterLine s m ws d) := by
  refine ⟨?_, rfl, rfl, fun h => h, fun _ => rfl, rfl⟩
  constructor <;> first | rfl | exact List.prefix_append _ _

theorem Advance.served {s t : State} {r : List Request} (h : Advance s r t) (hs : Served s)
    (hb : t.seqState = .busy) : Served t where
  busy := hb
  inputs := h.inputs hs.inputs
  raced := h.frame.raced.trans hs.raced
  drv := h.frame.drvReady.trans hs.drv
  cap := by rw [h.frame.params]; exact hs.cap

/-- What a completed command leaves, having issued `reqs`. -/
structure CommandDone (s : State) (reqs : List Request) (t : State) : Prop extends Advance s reqs t where
  idle : t.seqState = .idle
  done : t.done = true

theorem Advance.done' {s t u : State} {r r' : List Request} (h : Advance s r t) (k : CommandDone t r' u) :
    CommandDone s (r ++ r') u :=
  ⟨h.trans' k.toAdvance, k.idle, k.done⟩

/-- From `s` the command reads `reads` and issues `reqs`: it completes, or faults at the first unwritten entry. If it
submits a line (`line`), it ends with no buffer held. -/
structure Completes (job : Job) (s : State) (line : Prop) (reads : List (TableId × Nat)) (reqs : List Request) :
    Prop where
  faults : ∀ e, s.tables.firstUnwritten reads = some e → Runs job s (.fault (.unwrittenEntry e.1 e.2))
  ends : s.tables.firstUnwritten reads = none → s.textServed job →
    ∃ t, Runs job s (.next t) ∧ CommandDone s reqs t ∧ (line → t.held = none)

theorem Completes.noLine {job : Job} {s : State} {line : Prop} {reqs : List Request} {reads : List (TableId × Nat)}
    (h : Completes job s line reads reqs) : Completes job s False reads reqs :=
  ⟨h.faults, fun hn ht => by
    obtain ⟨t, h1, h2, -⟩ := h.ends hn ht
    exact ⟨t, h1, h2, False.elim⟩⟩

/-- What goes before a completion. -/
theorem Completes.after {job : Job} {s t : State} {line : Prop} {r reqs : List Request} {reads : List (TableId × Nat)}
    (h : Completes job t line reads reqs) (ha : Advance s r t) (ht : t.point = .textAck → job.rows ≠ [])
    (hr : ∀ o, Runs job t o → Runs job s o) : Completes job s line reads (r ++ reqs) where
  faults := fun e he => hr _ (h.faults e (by rw [ha.frame.tables]; exact he))
  ends := fun hn htx => by
    obtain ⟨u, h1, h2, h3⟩ := h.ends (by rw [ha.frame.tables]; exact hn) fun hh =>
      ha.frame.txtReady.trans (htx (.inl (hh.elim id ht)))
    exact ⟨u, hr _ h1, ha.done' h2, h3⟩

/-! ### The last step, and the text rows -/

theorem runs_complete {job : Job} {s : State} (hs : Served s) (hp : s.point = .complete) :
    Runs job s (.next s.finish) := by
  intro n hn
  obtain ⟨n, rfl⟩ : ∃ k, n = k + 1 := ⟨n - 1, by simp only [rank, hp] at hn; omega⟩
  rw [runSeq_succ (t := s.finish) hs.busy (by simp [State.waiting, hp]) hs.inputs (by simp only [seqStep, hp]) hs.inputs]
  exact runSeq_idle rfl

theorem commandDone_finish (s : State) : CommandDone s [] s.finish := by
  refine ⟨⟨?_, rfl, rfl, fun h => h, fun h => h, (List.append_nil _).symm⟩, rfl, rfl⟩
  constructor <;> rfl

theorem completes_complete {job : Job} {s : State} (hs : Served s) (hp : s.point = .complete) :
    Completes job s False [] [] where
  faults := fun e he => by simp at he
  ends := fun _ _ => ⟨_, runs_complete hs hp, commandDone_finish s, False.elim⟩

/-- From a text row on. -/
theorem runs_text {job : Job} (k : Nat) {s : State} (hs : Served s) (hp : s.point = .textAck)
    (ht : s.txtReady = true) (hk : lastTextRow - s.trow = k) :
    ∃ t, Runs job s (.next t) ∧ CommandDone s ((List.range' (s.trow + 1) k).map .renderTextLine) t := by
  have hw : s.waiting = false := by simp [State.waiting, hp, ht]
  induction k generalizing s with
  | zero =>
    have hst : seqStep job s = .next { s with point := .complete } := by
      simp only [seqStep, hp, seqTextDone]
      rw [if_neg (by omega)]
    have ha := advance_seek s .complete s.lctr s.trow
    have hs' : Served { s with point := .complete } := ha.served hs hs.busy
    exact ⟨_, (runs_complete hs' rfl).step hs.busy hs.inputs hw hst hs.inputs hs.busy, ha.done' (commandDone_finish _)⟩
  | succ k ih =>
    have hst : seqStep job s
        = .next ({ s with trow := s.trow + 1 }.request (.renderTextLine (s.trow + 1)) .textAck) := by
      simp only [seqStep, hp, seqTextDone]
      rw [if_pos (by omega)]
    have ha : Advance s [.renderTextLine (s.trow + 1)]
        ({ s with trow := s.trow + 1 }.request (.renderTextLine (s.trow + 1)) .textAck) :=
      (advance_seek s s.point s.lctr (s.trow + 1)).trans' (advance_request _ _ _)
    obtain ⟨t, h1, h2⟩ := ih (ha.served hs hs.busy) rfl ht (by simp [State.request]; omega)
      (by simp [State.waiting, State.request, ht])
    refine ⟨t, h1.step hs.busy hs.inputs hw hst hs.inputs hs.busy, ?_⟩
    rw [List.range'_succ]
    exact ha.done' h2

theorem completes_text {job : Job} {s : State} (hs : Served s) (hp : s.point = .textAck) :
    Completes job s False [] ((List.range' (s.trow + 1) (lastTextRow - s.trow)).map .renderTextLine) where
  faults := fun e he => by simp at he
  ends := fun _ ht => by
    obtain ⟨t, h1, h2⟩ := runs_text _ hs hp (ht (.inr hp)) rfl
    exact ⟨t, h1, h2, False.elim⟩

/-! ### The lines -/

theorem lineIndex_eq (job : Job) (s : State) : job.lineIndex s = job.lineAt s.lctr := by
  cases job <;> rfl

/-- One line, from the answer to PREPARE_SCANLINE. -/
theorem completes_line {job : Job} {s : State} {reads : List (TableId × Nat)} {reqs : List Request} (hs : Served s)
    (hp : s.point = .lineAck)
    (h : ∀ ws d, Completes job (afterLine s (job.lineMode s) ws d) False reads reqs) :
    Completes job s True (job.readsOf s s.lctr ++ reads) (job.submits s s.lctr :: reqs) := by
  obtain ⟨d, hf⟩ := engineLine_follows s.params s.tables (job.lineMode s) (memByte s s.fcfg .aux (job.lineAt s.lctr))
    (memByte s s.fcfg .main (job.lineAt s.lctr)) s.dp
  have hrun : ∀ n, runSeq job (n + 44) s = _ := fun n =>
    runSeq_line n (lineIndex_eq job s) rfl hs.busy hp hs.inputs hs.raced hs.drv hs.cap
  have hrank : ∀ ws, rank job (afterLine s (job.lineMode s) ws d) + 44 = rank job s := by
    intro ws
    simp only [rank, hp, afterLine]
    omega
  obtain ⟨hn, he⟩ | ⟨e, hn, he⟩ := hf.cases
  · have hr : ∀ o, Runs job (afterLine s (job.lineMode s) (lineContent s.params s.tables (job.lineMode s)
        (memByte s s.fcfg .aux (job.lineAt s.lctr)) (memByte s s.fcfg .main (job.lineAt s.lctr))) d) o → Runs job s o := by
      intro o ho n hle
      rw [← hrank (lineContent s.params s.tables (job.lineMode s) (memByte s s.fcfg .aux (job.lineAt s.lctr))
        (memByte s s.fcfg .main (job.lineAt s.lctr)))] at hle
      obtain ⟨n, rfl⟩ : ∃ k, n = k + 44 := ⟨n - 44, by omega⟩
      rw [hrun, he]
      exact ho n (by omega)
    have hl : ∀ ws, Completes job (afterLine s (job.lineMode s) ws d) True reads reqs := fun ws =>
      ⟨(h ws d).faults, fun hn ht => by
        obtain ⟨t, h1, h2, -⟩ := (h ws d).ends hn ht
        exact ⟨t, h1, h2, fun _ => h2.held rfl⟩⟩
    have hc := (hl _).after (advance_line s _ _ d) (fun hx => by cases hx) hr
    refine ⟨fun e he => hc.faults e ?_, fun h0 => hc.ends ?_⟩
    · rw [firstUnwritten_append] at he
      simpa only [Job.readsOf, hn, Option.none_or] using he
    · rw [firstUnwritten_append] at h0
      simpa only [Job.readsOf, hn, Option.none_or] using h0
  · have hfu : s.tables.firstUnwritten (job.readsOf s s.lctr ++ reads) = some e := by
      rw [firstUnwritten_append, Job.readsOf, hn, Option.some_or]
    refine ⟨fun e' he' => ?_, fun h0 => by rw [hfu] at h0; cases h0⟩
    rw [hfu] at he'
    cases he'
    intro n hle
    rw [← hrank []] at hle
    obtain ⟨n, rfl⟩ : ∃ k, n = k + 44 := ⟨n - 44, by omega⟩
    rw [hrun, he]
    rfl

/-- The requests of lines after the one at hand, and of the text rows. -/
def laterRequests (job : Job) (s : State) (L : Nat) : List Request :=
  ((job.linesAfter L).flatMap fun k => [.prepareScanline, job.submits s k]) ++ job.rows.map .renderTextLine

/-- From a line's submission. -/
theorem completes_submitted {job : Job} {s : State} (hs : Served s) (hp : s.point = .submitAck) :
    Completes job s False ((job.linesAfter s.lctr).flatMap (job.readsOf s)) (laterRequests job s s.lctr) := by
  have hw : s.waiting = false := by simp [State.waiting, hp, hs.drv]
  have hend : seqStep job s = .next { s with point := .complete } → Completes job s False [] [] := fun hst =>
    (completes_complete ((advance_seek s .complete s.lctr s.trow).served hs hs.busy) rfl).after
      (advance_seek s .complete s.lctr s.trow) (fun hx => by cases hx)
      fun o ho => ho.step hs.busy hs.inputs hw hst hs.inputs hs.busy
  cases job with
  | line l m => exact hend (by simp only [seqStep, hp]; rfl)
  | frame lines text =>
    obtain ⟨k, hk⟩ : ∃ k, lines - (s.lctr + 1) = k := ⟨_, rfl⟩
    simp only [laterRequests, Job.linesAfter, hk]
    clear hend
    induction k generalizing s with
    | zero =>
      cases text with
      | false =>
        have hst : seqStep (.frame lines false) s = .next { s with point := .complete } := by
          simp only [seqStep, hp, seqLineDone]
          rw [if_neg (by omega)]
          rfl
        exact (completes_complete ((advance_seek s .complete s.lctr s.trow).served hs hs.busy) rfl).after
          (advance_seek s .complete s.lctr s.trow) (fun hx => by cases hx)
          fun o ho => ho.step hs.busy hs.inputs hw hst hs.inputs hs.busy
      | true =>
        have hst : seqStep (.frame lines true) s = .next ({ s with trow := 20 }.request (.renderTextLine 20) .textAck) := by
          simp only [seqStep, hp, seqLineDone]
          rw [if_neg (by omega)]
          rfl
        have ha : Advance s [.renderTextLine 20] ({ s with trow := 20 }.request (.renderTextLine 20) .textAck) :=
          (advance_seek s s.point s.lctr 20).trans' (advance_request _ _ _)
        exact (completes_text (ha.served hs hs.busy) rfl).after ha (fun _ => by simp [Job.rows])
          fun o ho => ho.step hs.busy hs.inputs hw hst hs.inputs hs.busy
    | succ k ih =>
      have hst : seqStep (.frame lines text) s
          = .next ({ s with lctr := s.lctr + 1 }.request .prepareScanline .lineAck) := by
        simp only [seqStep, hp, seqLineDone]
        rw [if_pos (by omega)]
      have ha : Advance s [.prepareScanline] ({ s with lctr := s.lctr + 1 }.request .prepareScanline .lineAck) :=
        (advance_seek s s.point (s.lctr + 1) s.trow).trans' (advance_request _ _ _)
      have hs' := ha.served hs hs.busy
      rw [List.range'_succ]
      exact (completes_line hs' rfl fun ws d =>
        ih ((advance_line _ _ ws d).served hs' hs.busy) rfl
          (by simp [State.waiting, afterLine, State.request, hs.drv]) (by simp [afterLine, State.request]; omega)).noLine.after ha
        (fun hx => by cases hx) fun o ho => ho.step hs.busy hs.inputs hw hst hs.inputs hs.busy

/-- From the request for a line's buffer. -/
theorem completes_lineAck {job : Job} {s : State} (hs : Served s) (hp : s.point = .lineAck) :
    Completes job s True (job.readsOf s s.lctr ++ (job.linesAfter s.lctr).flatMap (job.readsOf s))
      (job.submits s s.lctr :: laterRequests job s s.lctr) :=
  completes_line hs hp fun ws d => completes_submitted ((advance_line s _ ws d).served hs hs.busy) rfl

/-- From SKIP_LINES. -/
theorem completes_skipAck {job : Job} {s : State} (hs : Served s) (hp : s.point = .skipAck) :
    Completes job s True (job.readsOf s 0 ++ (job.linesAfter 0).flatMap (job.readsOf s))
      (.prepareScanline :: job.submits s 0 :: laterRequests job s 0) := by
  have ha : Advance s [.prepareScanline] ({ s with lctr := 0 }.request .prepareScanline .lineAck) :=
    (advance_seek s s.point 0 s.trow).trans' (advance_request _ _ _)
  exact (completes_lineAck (ha.served hs hs.busy) rfl).after ha (fun hx => by cases hx) fun o ho =>
    ho.step hs.busy hs.inputs (by simp [State.waiting, hp, hs.drv]) (by simp only [seqStep, hp]) hs.inputs hs.busy

/-- From PREPARE_FRAME. -/
theorem completes_frameAck {job : Job} {s : State} (hs : Served s) (hp : s.point = .frameAck) :
    Completes job s True (job.readsOf s 0 ++ (job.linesAfter 0).flatMap (job.readsOf s))
      (.skipLines s.params.vskip :: .prepareScanline :: job.submits s 0 :: laterRequests job s 0) := by
  have ha := advance_request s (.skipLines s.params.vskip) .skipAck
  exact (completes_skipAck (ha.served hs hs.busy) rfl).after ha (fun hx => by cases hx) fun o ho =>
    ho.step hs.busy hs.inputs (by simp [State.waiting, hp, hs.drv]) (by simp only [seqStep, hp]) hs.inputs hs.busy

/-! ### Commands -/

/-- A command that has waited goes on, once it is served, to its completion. -/
theorem completes_resumed {job : Job} {s : State} (h : s.Resumed) :
    Completes job s False (job.readsToCome s) (job.requestsToCome s) := by
  obtain ⟨hb, hp, hi, hr, hd, hc⟩ := h
  have hs : Served s := ⟨hb, hi, hr, hd, hc⟩
  simp only [List.mem_cons, List.not_mem_nil, or_false] at hp
  unfold Job.readsToCome Job.requestsToCome Job.lineRequests Job.linesToCome
  obtain hp | hp | hp | hp | hp := hp <;> simp only [hp]
  · exact (completes_frameAck hs hp).noLine
  · exact (completes_skipAck hs hp).noLine
  · exact (completes_lineAck hs hp).noLine
  · exact completes_submitted hs hp
  · exact completes_text hs hp

/-- A command that starts runs through. -/
theorem completes_start {job : Job} {s : State} (hs : s.Poised) :
    (∀ e, s.tables.firstUnwritten (job.readsToCome (job.begun s)) = some e →
      Runs job s (.fault (.unwrittenEntry e.1 e.2))) ∧
    (s.tables.firstUnwritten (job.readsToCome (job.begun s)) = none → s.textServed job →
      ∃ t, Runs job s (.next t) ∧ CommandDone (job.begun s) (job.requestsToCome (job.begun s)) t ∧ SeqFrame s t ∧
        t.held = none) := by
  obtain ⟨hb, hp, hi, hr, hd, hc⟩ := hs
  have hw : s.waiting = false := by simp [State.waiting, hp]
  have hsv : Served (job.begun s) := by cases job <;> exact ⟨hb, hi, hr, hd, hc⟩
  cases job with
  | line l m =>
    have ha := advance_request s .prepareScanline .lineAck
    have h := (completes_lineAck (job := .line l m) (ha.served hsv hb) rfl).after ha (fun hx => by cases hx) fun o ho =>
      ho.step hb hi hw (seqStep_start hp) hi hb
    have hreads : Job.readsToCome (.line l m) (Job.begun (.line l m) s) = Job.readsOf (.line l m) s 0 ++ [] := by
      simp [Job.readsToCome, Job.linesToCome, Job.begun, hp, Job.linesAfter]
    have hreqs : Job.requestsToCome (.line l m) (Job.begun (.line l m) s)
        = [.prepareScanline, Job.submits (.line l m) s 0] := by
      simp [Job.requestsToCome, Job.lineRequests, Job.linesToCome, Job.begun, hp, Job.linesAfter, Job.frameRequests,
        Job.rows]
    rw [hreads, hreqs]
    refine ⟨h.faults, fun hn ht => ?_⟩
    obtain ⟨t, h1, h2, h3⟩ := h.ends hn ht
    exact ⟨t, h1, h2, h2.frame, h3 trivial⟩
  | frame lines text =>
    have ha := advance_request s.snapshot .prepareFrame .frameAck
    have h := completes_frameAck (job := .frame lines text) (ha.served hsv hb) rfl
    have hrun : ∀ o, Runs (.frame lines text) (s.snapshot.request .prepareFrame .frameAck) o →
        Runs (.frame lines text) s o := fun o ho => ho.step hb hi hw (seqStep_start hp) hi hb
    have hreads : Job.readsToCome (.frame lines text) (Job.begun (.frame lines text) s)
        = Job.readsOf (.frame lines text) s.snapshot 0
          ++ (Job.linesAfter (.frame lines text) 0).flatMap (Job.readsOf (.frame lines text) s.snapshot) := by
      simp [Job.readsToCome, Job.linesToCome, Job.begun, hp]
    have hreqs : Job.requestsToCome (.frame lines text) (Job.begun (.frame lines text) s)
        = [.prepareFrame] ++ .skipLines s.params.vskip :: .prepareScanline :: Job.submits (.frame lines text) s.snapshot 0
          :: laterRequests (.frame lines text) s.snapshot 0 := by
      simp [Job.requestsToCome, Job.lineRequests, Job.linesToCome, Job.begun, hp, Job.frameRequests, laterRequests]
    rw [hreads, hreqs]
    refine ⟨fun e he => hrun _ (h.faults e he), fun hn ht => ?_⟩
    obtain ⟨t, h1, h2, h3⟩ := h.ends hn fun hx => ht (.inl (hx.elim id fun hx => by cases hx))
    have hf : SeqFrame s.snapshot t := (ha.done' h2).frame
    exact ⟨t, hrun _ h1, ha.done' h2, SeqFrame.trans' (by constructor <;> rfl) hf,
      h3 trivial⟩

/-- With the tables of its mode loaded, a command reads no unwritten entry. -/
theorem readsToCome_of_loaded {job : Job} {s : State} (h : s.tables.loadedFor (job.lineMode s) = true) :
    s.tables.firstUnwritten (job.readsToCome s) = none := by
  simp only [Tables.firstUnwritten, List.find?_eq_none, Job.readsToCome, List.mem_flatMap]
  rintro e ⟨k, -, he⟩
  simp [Option.isNone_iff_eq_none, Option.isSome_iff_ne_none.mp (lineReads_written h _ _ e he)]

/-- What exec answers for a long command. -/
theorem exec_of_runs {i : Instr} {job : Job} {s : State} {o : Host.Outcome State Fault Refusal}
    (hj : Job.ofInstr i = some job) (h : Runs job s o) : exec i s = o := by
  cases i <;> simp only [Job.ofInstr, reduceCtorEq, Option.some.injEq] at hj <;> subst hj
  all_goals first
    | exact h _ (rank_line_le _ _ _)
    | exact h _ (rank_frame_le _ _ (by decide))

end Sys2Proof.Laws
end

