-- ==== Sys2Proof/Laws/PerInstr.lean ====
section
/-! SUPPORT. The per-instruction family: an instruction's encoding matches its own row of spec/opcode_table.json. -/

namespace Sys2Proof.Laws

/-- What a row of spec/opcode_table.json asks of an encoding. -/
inductive RowForm where
  /-- A row of format C: the match and the mask of the command word. -/
  | word (value mask : Word)
  /-- A row of format BUS: an aligned 32-bit write or read at one of the offsets from `lo` to `hi`. -/
  | access (write : Bool) (lo hi : BitVec 8)

/-- Each constructor's row, copied from spec/opcode_table.json. -/
def rowOf : Instr → RowForm
  | .nop => .word 0x00000000 0xFFFFFFFF
  | .fstart => .word 0x10000000 0xFFFFFFFF
  | .laddr _ => .word 0x20000000 0xFFFFFF00
  | .dsr _ => .word 0x30000000 0xFFFFFF00
  | .ddr140 _ => .word 0x40000000 0xFFFFFF00
  | .ddr560 _ => .word 0x40000400 0xFFFFFF00
  | .ddr160 _ => .word 0x40000800 0xFFFFFF00
  | .ddrMix _ => .word 0x40000C00 0xFFFFFF00
  | .ffull => .word 0x50000000 0xFFFFFFFF
  | .fmixed => .word 0x60000000 0xFFFFFFFF
  | .wrCmd _ => .access true 0x00 0x00
  | .wrStatus _ => .access true 0x04 0x04
  | .wrCfg _ => .access true 0x08 0x08
  | .wrTsel _ => .access true 0x14 0x14
  | .wrTdata _ => .access true 0x18 0x18
  | .rdTdata => .access false 0x18 0x18
  | .rdCmd => .access false 0x00 0x00
  | .rdStatus => .access false 0x04 0x04
  | .rdCfg => .access false 0x08 0x08
  | .rdFcfg => .access false 0x0C 0x0C
  | .rdResult => .access false 0x10 0x10
  | .rdTsel => .access false 0x14 0x14
  | .wrFcfg _ => .access true 0x0C 0x0C
  | .wrResult _ => .access true 0x10 0x10
  | .rdUnmapped _ => .access false 0x1C 0xFC
  | .wrUnmapped _ _ => .access true 0x1C 0xFC

/-- An encoding has a row's form. -/
def RowForm.fits : RowForm → Fetch → Prop
  | .word value mask, .command w => w &&& mask = value
  | .access write lo hi, .access a =>
    a.write = write ∧ a.bytes = 4 ∧ lo ≤ a.offset ∧ a.offset ≤ hi ∧ a.offset.extractLsb' 0 2 = 0
  | .word _ _, .access _ => False
  | .access _ _ _, .command _ => False

/-- A well-formed instruction's encoding has the form of its own row. -/
def MatchesRow.Statement (i : Instr) : Prop := i.wellFormed = true → (rowOf i).fits (encode i)

/-- An access at a row's one offset. -/
theorem fits_access (wr : Bool) (off : BitVec 8) (v : Word) (h : off.extractLsb' 0 2 = 0) :
    (RowForm.access wr off off).fits (.access { write := wr, offset := off, bytes := 4, data := v }) :=
  ⟨rfl, rfl, BitVec.le_refl off, BitVec.le_refl off, h⟩

/-- The command words with a line operand, under the mask of their rows. -/
theorem commandWord_mask : ∀ l : BitVec 8,
    commandWord 0x2 0 l &&& 0xFFFFFF00 = 0x20000000 ∧ commandWord 0x3 0 l &&& 0xFFFFFF00 = 0x30000000 ∧
    commandWord 0x4 0b00 l &&& 0xFFFFFF00 = 0x40000000 ∧ commandWord 0x4 0b01 l &&& 0xFFFFFF00 = 0x40000400 ∧
    commandWord 0x4 0b10 l &&& 0xFFFFFF00 = 0x40000800 ∧ commandWord 0x4 0b11 l &&& 0xFFFFFF00 = 0x40000C00 := by
  decide

/-- An unmapped offset lies in the rows' range and is aligned. -/
theorem unmappedOffset_range : ∀ off : BitVec 8, unmappedOffset off = true →
    0x1C ≤ off ∧ off ≤ 0xFC ∧ off.extractLsb' 0 2 = 0 := by decide

theorem MatchesRow.nop : MatchesRow.Statement .nop := fun _ => rfl
theorem MatchesRow.fstart : MatchesRow.Statement .fstart := fun _ => rfl
theorem MatchesRow.laddr (l : BitVec 8) : MatchesRow.Statement (.laddr l) := fun _ => (commandWord_mask l).1
theorem MatchesRow.dsr (l : BitVec 8) : MatchesRow.Statement (.dsr l) := fun _ => (commandWord_mask l).2.1
theorem MatchesRow.ddr140 (l : BitVec 8) : MatchesRow.Statement (.ddr140 l) := fun _ => (commandWord_mask l).2.2.1
theorem MatchesRow.ddr560 (l : BitVec 8) : MatchesRow.Statement (.ddr560 l) := fun _ => (commandWord_mask l).2.2.2.1
theorem MatchesRow.ddr160 (l : BitVec 8) : MatchesRow.Statement (.ddr160 l) := fun _ => (commandWord_mask l).2.2.2.2.1
theorem MatchesRow.ddrMix (l : BitVec 8) : MatchesRow.Statement (.ddrMix l) := fun _ => (commandWord_mask l).2.2.2.2.2
theorem MatchesRow.ffull : MatchesRow.Statement .ffull := fun _ => rfl
theorem MatchesRow.fmixed : MatchesRow.Statement .fmixed := fun _ => rfl
theorem MatchesRow.wrCmd (v : Word) : MatchesRow.Statement (.wrCmd v) := fun _ => fits_access _ _ _ (by decide)
theorem MatchesRow.wrStatus (v : Word) : MatchesRow.Statement (.wrStatus v) := fun _ => fits_access _ _ _ (by decide)
theorem MatchesRow.wrCfg (v : Word) : MatchesRow.Statement (.wrCfg v) := fun _ => fits_access _ _ _ (by decide)
theorem MatchesRow.wrTsel (v : Word) : MatchesRow.Statement (.wrTsel v) := fun _ => fits_access _ _ _ (by decide)
theorem MatchesRow.wrTdata (v : Word) : MatchesRow.Statement (.wrTdata v) := fun _ => fits_access _ _ _ (by decide)
theorem MatchesRow.rdTdata : MatchesRow.Statement .rdTdata := fun _ => fits_access _ _ _ (by decide)
theorem MatchesRow.rdCmd : MatchesRow.Statement .rdCmd := fun _ => fits_access _ _ _ (by decide)
theorem MatchesRow.rdStatus : MatchesRow.Statement .rdStatus := fun _ => fits_access _ _ _ (by decide)
theorem MatchesRow.rdCfg : MatchesRow.Statement .rdCfg := fun _ => fits_access _ _ _ (by decide)
theorem MatchesRow.rdFcfg : MatchesRow.Statement .rdFcfg := fun _ => fits_access _ _ _ (by decide)
theorem MatchesRow.rdResult : MatchesRow.Statement .rdResult := fun _ => fits_access _ _ _ (by decide)
theorem MatchesRow.rdTsel : MatchesRow.Statement .rdTsel := fun _ => fits_access _ _ _ (by decide)
theorem MatchesRow.wrFcfg (v : Word) : MatchesRow.Statement (.wrFcfg v) := fun _ => fits_access _ _ _ (by decide)
theorem MatchesRow.wrResult (v : Word) : MatchesRow.Statement (.wrResult v) := fun _ => fits_access _ _ _ (by decide)
theorem MatchesRow.rdUnmapped (off : BitVec 8) : MatchesRow.Statement (.rdUnmapped off) := fun h =>
  ⟨rfl, rfl, unmappedOffset_range off h⟩
theorem MatchesRow.wrUnmapped (off : BitVec 8) (v : Word) : MatchesRow.Statement (.wrUnmapped off v) := fun h =>
  ⟨rfl, rfl, unmappedOffset_range off h⟩

end Sys2Proof.Laws
end

