-- ==== Sys2Proof/Laws/Decode.lean ====
section
/-! SUPPORT. The pieces of the decoder and the encoder: a word from its bytes, the fields of a command word, and what an accepted word's fields satisfy. -/

namespace Sys2Proof.Laws

/-- A word is its four bytes. -/
theorem wordOfBytes_bytes (w : Word) :
    wordOfBytes (w.extractLsb' 0 8) (w.extractLsb' 8 8) (w.extractLsb' 16 8) (w.extractLsb' 24 8) = w := by
  unfold wordOfBytes
  apply BitVec.eq_of_getLsbD_eq
  intro i hi
  simp only [BitVec.getLsbD_append, BitVec.getLsbD_extractLsb']
  by_cases h1 : i < 8
  · simp [h1]
  · by_cases h2 : i < 16
    · simp [h1, show i - 8 < 8 by omega, show 8 + (i - 8) = i by omega]
    · by_cases h3 : i < 24
      · simp [h1, show ¬ i - 8 < 8 by omega, show i - 8 - 8 < 8 by omega, show 16 + (i - 8 - 8) = i by omega]
      · simp [h1, show ¬ i - 8 < 8 by omega, show ¬ i - 8 - 8 < 8 by omega, show i - 8 - 8 - 8 < 8 by omega,
          show 24 + (i - 8 - 8 - 8) = i by omega]

/-- A field's value is a quotient and a remainder of the word's. -/
theorem field_toNat {w : Nat} (v : BitVec w) (a n : Nat) : (v.extractLsb' a n).toNat = v.toNat / 2 ^ a % 2 ^ n := by
  simp [Nat.shiftRight_eq_div_pow]

/-- A word with zero reserved fields is made of its OP, S and L. -/
theorem commandWord_of_fields (v : Word) (h1 : v.extractLsb' 12 16 = 0) (h2 : v.extractLsb' 8 2 = 0) :
    commandWord (v.extractLsb' 28 4) (v.extractLsb' 10 2) (v.extractLsb' 0 8) = v := by
  have g1 : ∀ k, k < 16 → v.getLsbD (12 + k) = false := by
    intro k hk
    simpa [hk] using congrArg (fun x => x.getLsbD k) h1
  have g2 : ∀ k, k < 2 → v.getLsbD (8 + k) = false := by
    intro k hk
    simpa [hk] using congrArg (fun x => x.getLsbD k) h2
  apply BitVec.eq_of_getLsbD_eq
  intro i hi
  unfold commandWord
  simp only [BitVec.getLsbD_append, BitVec.getLsbD_extractLsb']
  by_cases a1 : i < 8
  · simp [a1]
  · by_cases a2 : i < 10
    · have := g2 (i - 8) (by omega)
      rw [show 8 + (i - 8) = i by omega] at this
      simp [a1, this, show i - 8 < 2 by omega]
    · by_cases a3 : i < 12
      · simp [a1, show ¬ i - 8 < 2 by omega, show i - 8 - 2 < 2 by omega, show 10 + (i - 8 - 2) = i by omega]
      · by_cases a4 : i < 28
        · have := g1 (i - 12) (by omega)
          rw [show 12 + (i - 12) = i by omega] at this
          simp [a1, this, show ¬ i - 8 < 2 by omega, show ¬ i - 8 - 2 < 2 by omega, show i - 8 - 2 - 2 < 16 by omega]
        · simp [a1, show ¬ i - 8 < 2 by omega, show ¬ i - 8 - 2 < 2 by omega, show ¬ i - 8 - 2 - 2 < 16 by omega,
            show i - 8 - 2 - 2 - 16 < 4 by omega, show 28 + (i - 8 - 2 - 2 - 16) = i by omega]

/-- The seven operation codes (30_encoding.md R91). -/
theorem op_cases : ∀ op : BitVec 4, op ≤ 0x6 →
    op = 0x0 ∨ op = 0x1 ∨ op = 0x2 ∨ op = 0x3 ∨ op = 0x4 ∨ op = 0x5 ∨ op = 0x6 := by decide

/-- The four sub-mode codes (30_encoding.md R93). -/
theorem sub_cases : ∀ s : BitVec 2, s = 0b00 ∨ s = 0b01 ∨ s = 0b10 ∨ s = 0b11 := by decide

/-- What the fields of an accepted word satisfy (30_encoding.md R94). -/
theorem decodeCommand_ok {v : Word} {i : Instr} (h : decodeCommand v = .ok i) :
    v.extractLsb' 28 4 ≤ 0x6 ∧ v.extractLsb' 12 16 = 0 ∧ v.extractLsb' 8 2 = 0 ∧
    (v.extractLsb' 28 4 ≠ 0x4 → v.extractLsb' 10 2 = 0) ∧
    (takesLine (v.extractLsb' 28 4) = false → v.extractLsb' 0 8 = 0) ∧
    (takesLine (v.extractLsb' 28 4) = true → (v.extractLsb' 0 8).toNat < 192) ∧
    i = commandOf (v.extractLsb' 28 4) (v.extractLsb' 10 2) (v.extractLsb' 0 8) := by
  simp only [decodeCommand] at h
  split at h
  · cases h
  · split at h
    · cases h
    · split at h
      · cases h
      · split at h
        · cases h
        · split at h
          · cases h
          · rename_i h0 h1 h2 h3 h4
            simp only [not_or, not_not] at h1
            refine ⟨by simpa using h0, h1.1, h1.2, fun ho => ?_, fun ho => ?_, fun ho => ?_, (Except.ok.inj h).symm⟩
            · by_contra hc
              exact h2 ⟨ho, hc⟩
            · by_contra hc
              exact h3 ⟨ho, hc⟩
            · by_contra hc
              exact h4 ⟨ho, by rw [BitVec.le_def]; simpa using hc⟩

/-- The aligned offsets: the seven registers' and the unmapped ones (10_state.md R22). -/
theorem offset_cases : ∀ off : BitVec 8, off.toNat % 4 = 0 →
    off = 0x00 ∨ off = 0x04 ∨ off = 0x08 ∨ off = 0x0C ∨ off = 0x10 ∨ off = 0x14 ∨ off = 0x18 ∨
      unmappedOffset off = true := by decide

/-- An unmapped offset is none of the registers'. -/
theorem unmappedOffset_ne : ∀ off : BitVec 8, unmappedOffset off = true →
    off ≠ 0x00 ∧ off ≠ 0x04 ∧ off ≠ 0x08 ∧ off ≠ 0x0C ∧ off ≠ 0x10 ∧ off ≠ 0x14 ∧ off ≠ 0x18 := by decide

theorem writeOf_unmapped {off : BitVec 8} (h : unmappedOffset off = true) (v : Word) :
    writeOf off v = .wrUnmapped off v := by
  obtain ⟨h0, h1, h2, h3, h4, h5, h6⟩ := unmappedOffset_ne off h
  rw [writeOf, if_neg h0, if_neg h1, if_neg h2, if_neg h3, if_neg h4, if_neg h5, if_neg h6]

theorem readOf_unmapped {off : BitVec 8} (h : unmappedOffset off = true) : readOf off = .rdUnmapped off := by
  obtain ⟨h0, h1, h2, h3, h4, h5, h6⟩ := unmappedOffset_ne off h
  rw [readOf, if_neg h0, if_neg h1, if_neg h2, if_neg h3, if_neg h4, if_neg h5, if_neg h6]

end Sys2Proof.Laws
end

