-- ==== Sys2Proof/Laws/Race.lean ====
section
/-! SUPPORT. A line decoded once more, where GMW has written while lines were decoded: the content submitted is the closed form's over bytes that are draws. -/

namespace Sys2Proof.Laws

open Sys2Proof.Machine

/-- What a read of column c of a line may return: the byte's present value, or, of a raced byte, one it had since the
command was accepted (20_memory.md R72). -/
def Drawn (s : State) (pl : Plane) (l : BitVec 8) (c : Nat) (v : Byte) : Prop :=
  let place := pageAddr pl (pageOf s.fcfg) (lineOffset s.params l + BitVec.ofNat 13 c)
  v = memByte s s.fcfg pl l c ∨ (place ∈ s.raced ∧ v ∈ s.staleAt place)

theorem gread_drawn (s : State) (pl : Plane) (pg : Page) (off : BitVec 13) :
    s.gread pl pg off = s.mem.read (pageAddr pl pg off) ∨
    (pageAddr pl pg off ∈ s.raced ∧ s.gread pl pg off ∈ s.staleAt (pageAddr pl pg off)) := by
  simp only [State.gread]
  split
  · rename_i hr
    generalize Config.raceDraw _ _ % _ = n
    cases n with
    | zero => exact .inl rfl
    | succ n =>
      by_cases hn : n < (s.staleAt (pageAddr pl pg off)).length
      · exact .inr ⟨hr, by simp [hn]⟩
      · exact .inl (by simp at hn; simp [hn])
  · exact .inl rfl

/-- The byte of column c, read with the counter of free values at n. -/
def byteAt (s : State) (n : Nat) (pl : Plane) (l : BitVec 8) (c : Nat) : Byte :=
  State.lineByte { s with draws := n } pl l c

theorem byteAt_drawn (s : State) (n : Nat) (pl : Plane) (l : BitVec 8) (c : Nat) :
    Drawn s pl l c (byteAt s n pl l c) :=
  gread_drawn { s with draws := n } pl (pageOf s.fcfg) (lineOffset s.params l + BitVec.ofNat 13 c)

/-- The columns of a line over the bytes that their reads return. -/
theorem seqColumns_of_bytes {l : BitVec 8} {m : Mode} {a b : Nat → Byte} (k : Nat) {s : State} {ws : List Word}
    {d : Datapath} (hc : s.col + (k + 1) = ncols)
    (hread : ∀ j, j < k + 1 → ∀ e, State.column { s with draws := s.draws + j, col := s.col + j, dp := e } l m
      = columnOf s.params s.tables m a b (s.col + j) e)
    (he : engineColumns s.params s.tables m a b (k + 1) s.col s.dp = .ok (ws, d)) :
    seqColumns l m (k + 1) s = .next (afterColumns s ws d (k + 1)) := by
  have h0 : s.column l m = columnOf s.params s.tables m a b s.col s.dp := hread 0 (by omega) s.dp
  induction k generalizing s ws d with
  | zero =>
    simp only [engineColumns] at he
    split at he
    · cases he
    · rename_i ws1 d1 hcol
      cases he
      simp only [seqColumns, andThen, seqColumn, h0, hcol, afterColumns, List.append_nil]
      rw [if_neg (by omega)]
  | succ k ih =>
    rw [engineColumns] at he
    split at he
    · cases he
    · rename_i ws1 d1 hcol
      split at he
      · cases he
      · rename_i ws2 d2 hrest
        cases he
        have hr : ∀ j, j < k + 1 → ∀ e, State.column
            { ({ s.emits ws1 with
                dp := d1, col := s.col + 1, draws := s.draws + 1, point := .content } : State) with
              draws := s.draws + 1 + j, col := s.col + 1 + j, dp := e } l m
            = columnOf s.params s.tables m a b (s.col + 1 + j) e := by
          intro j hj e
          rw [show s.draws + 1 + j = s.draws + (j + 1) by omega, show s.col + 1 + j = s.col + (j + 1) by omega,
            ← hread (j + 1) (by omega) e]
          rfl
        rw [seqColumns]
        simp only [seqColumn, h0, hcol, andThen]
        rw [if_pos (by omega)]
        rw [ih (s := { s.emits ws1 with dp := d1, col := s.col + 1, draws := s.draws + 1, point := .content })
          (by simp only; omega) hr hrest (hr 0 (by omega) d1)]
        congr 1
        simp only [afterColumns, ← emits_emits]
        simp only [State.emits, State.mk.injEq, true_and]
        omega

/-- The MAIN bytes of a line as its second decode reads them. -/
def againMain (s : State) (m : Mode) (l : BitVec 8) (c : Nat) : Byte :=
  match m with
  | .base => byteAt s (s.draws + c) .main l c
  | .dr _ => byteAt s (s.draws + 1 + c) .main l c

/-- The AUX bytes. -/
def againAux (s : State) (l : BitVec 8) (c : Nat) : Byte := byteAt s (s.draws + 1 + c) .aux l c

/-- With the tables loaded a line decoded once more runs through, and its content is the closed form's over drawn
bytes. -/
theorem seqRedecode_content {l : BitVec 8} {m : Mode} {s : State} (ht : s.tables.loadedFor m = true) :
    ∃ d, seqRedecode l m s = .next (State.finalizeLine
      { s.rewind.emits (padOf m ++ lineContent s.params s.tables m (againAux s l) (againMain s m l)) with
        dp := d, col := ncols, draws := s.draws + 1 + ncols, point := .finalize }) := by
  obtain ⟨d, he⟩ := engineLine_content (p := s.params) ht (againAux s l) (againMain s m l) s.dp
  unfold engineLine at he
  split at he
  · cases he
  · rename_i d0 hstart
    have hs : s.rewind.engineStart l m = .ok d0 := by
      rw [← hstart]
      cases m <;> rfl
    let u : State :=
      { s.rewind.emits (padOf m) with dp := d0, col := 0, draws := s.draws + 1, point := .content }
    have hpad : seqPad l m s.rewind = .next u := by simp only [seqPad, hs]; rfl
    have hcols : seqColumns l m ncols u = .next (afterColumns u
        (lineContent s.params s.tables m (againAux s l) (againMain s m l)) d ncols) := by
      refine seqColumns_of_bytes (s := u) 39 rfl ?_ he
      intro j _ e
      rw [show u.col + j = j from Nat.zero_add j]
      cases m with
      | base =>
        simp only [State.column, columnOf, State.srByte]
        split
        · simp only [againMain]
          rw [show s.draws + (j + 1) = s.draws + 1 + j by omega]
          rfl
        · rfl
      | dr sub => rfl
    refine ⟨d, ?_⟩
    rw [seqRedecode, hpad, andThen, hcols, andThen, ← emits_emits]
    rfl

/-- What goes out where GMW has written while lines were decoded: the line's buffer over drawn bytes. -/
theorem seqSubmit_content {l : BitVec 8} {m : Mode} {s : State} {b : Buffer} (hr : s.raced ≠ [])
    (hb : s.held = some b) (ht : s.tables.loadedFor m = true) :
    ∃ t, seqSubmit l m s = .next t ∧ t.out = s.out ++ [.submitScanline
      (lineBuffer s.fcfg m (lineContent s.params s.tables m (againAux s l) (againMain s m l)))] := by
  obtain ⟨d, he⟩ := seqRedecode_content (l := l) ht
  refine ⟨_, by rw [seqSubmit, if_neg hr, he]; rfl, ?_⟩
  simp [State.submitLine, State.finalizeLine, State.emits, State.rewind, hb, Buffer.append, lineBuffer]
  omega

theorem againMain_drawn (s : State) (m : Mode) (l : BitVec 8) (c : Nat) : Drawn s .main l c (againMain s m l c) := by
  cases m <;> exact byteAt_drawn _ _ _ _ _

theorem againAux_drawn (s : State) (l : BitVec 8) (c : Nat) : Drawn s .aux l c (againAux s l c) :=
  byteAt_drawn _ _ _ _ _

end Sys2Proof.Laws
end

