-- ==== Sys2Proof/Laws/RunWords.lean ====
section
/-! SUPPORT. The fields, slots and colours of a two-item run word (30_encoding.md R110 to R113). -/

namespace Sys2Proof.Laws

open Sys2Proof.Machine

/-- An item's fields. -/
theorem item_fields (c : Colour) (n : BitVec 3) :
    (item c n).getLsbD 15 = false ∧ (item c n).extractLsb' 12 3 = n ∧ (item c n).extractLsb' 0 12 = c := by
  refine ⟨?_, ?_, ?_⟩
  · simp only [item, BitVec.getLsbD_append]
    rfl
  all_goals
    apply BitVec.eq_of_getLsbD_eq
    intro i hi
    simp only [item, BitVec.getLsbD_extractLsb', BitVec.getLsbD_append, hi, decide_true, Bool.true_and]
  · simp [show ¬ 12 + i < 12 by omega, hi]
  · simp [hi]

/-- The low and the high item of a word. -/
theorem w2_items (c0 c1 : Colour) (n0 n1 : BitVec 3) (i : Nat) (hi : i < 16) :
    (w2 c0 n0 c1 n1).getLsbD i = (item c0 n0).getLsbD i ∧ (w2 c0 n0 c1 n1).getLsbD (16 + i) = (item c1 n1).getLsbD i := by
  simp only [w2, BitVec.getLsbD_append]
  simp [hi, show ¬ 16 + i < 16 by omega]

/-- No hold flag is set in a two-item word. -/
theorem w2_hold (c0 c1 : Colour) (n0 n1 : BitVec 3) :
    (w2 c0 n0 c1 n1).getLsbD 15 = false ∧ (w2 c0 n0 c1 n1).getLsbD 31 = false :=
  ⟨(w2_items c0 c1 n0 n1 15 (by omega)).1.trans (item_fields c0 n0).1,
    (w2_items c0 c1 n0 n1 15 (by omega)).2.trans (item_fields c1 n1).1⟩

theorem w2_low (c0 c1 : Colour) (n0 n1 : BitVec 3) (a w : Nat) (h : a + w ≤ 16) :
    (w2 c0 n0 c1 n1).extractLsb' a w = (item c0 n0).extractLsb' a w := by
  apply BitVec.eq_of_getLsbD_eq
  intro i hi
  simp only [BitVec.getLsbD_extractLsb', (w2_items c0 c1 n0 n1 (a + i) (by omega)).1]

theorem w2_high (c0 c1 : Colour) (n0 n1 : BitVec 3) (a w : Nat) (h : a + w ≤ 16) :
    (w2 c0 n0 c1 n1).extractLsb' (16 + a) w = (item c1 n1).extractLsb' a w := by
  apply BitVec.eq_of_getLsbD_eq
  intro i hi
  simp only [BitVec.getLsbD_extractLsb', Nat.add_assoc, (w2_items c0 c1 n0 n1 (a + i) (by omega)).2]

/-- The slots of a two-item word. -/
theorem slots_w2 (c0 c1 : Colour) (n0 n1 : BitVec 3) : slots (w2 c0 n0 c1 n1) = 2 + n0.toNat + n1.toNat := by
  have h1 := w2_low c0 c1 n0 n1 12 3 (by omega)
  have h2 := w2_high c0 c1 n0 n1 12 3 (by omega)
  rw [slots, (w2_hold c0 c1 n0 n1).1, h1, h2, (item_fields c0 n0).2.1, (item_fields c1 n1).2.1]
  simp only [Bool.false_eq_true, if_false]
  omega

/-- The colours of a two-item word's slots. -/
theorem wordColours_w2 (c0 c1 : Colour) (n0 n1 : BitVec 3) :
    wordColours (w2 c0 n0 c1 n1) = List.replicate (1 + n0.toNat) c0 ++ List.replicate (1 + n1.toNat) c1 := by
  have h1 := w2_low c0 c1 n0 n1 12 3 (by omega)
  have h2 := w2_high c0 c1 n0 n1 12 3 (by omega)
  have h3 := w2_low c0 c1 n0 n1 0 12 (by omega)
  have h4 := w2_high c0 c1 n0 n1 0 12 (by omega)
  rw [wordColours, (w2_hold c0 c1 n0 n1).1, h1, h2, h3, h4, (item_fields c0 n0).2.1, (item_fields c1 n1).2.1,
    (item_fields c0 n0).2.2, (item_fields c1 n1).2.2]
  rfl

end Sys2Proof.Laws
end

