-- ==== Sys2Proof/Tests/Slice0.lean ====
section
/-! SUPPORT. Tests: the well-formedness checks, the decoding of words written out from the spec, single steps against 95_test_vectors.md, and a witness for the hypotheses of every statement. -/

namespace Sys2Proof.Tests

open Sys2Proof.Machine

/-! ### Well-formedness: an ill-formed term for each check -/

theorem test_line_192_is_ill_formed : (Instr.laddr 192).wellFormed = false ∧ (Instr.dsr 192).wellFormed = false ∧
    (Instr.ddr140 192).wellFormed = false ∧ (Instr.ddr560 192).wellFormed = false ∧
    (Instr.ddr160 192).wellFormed = false ∧ (Instr.ddrMix 192).wellFormed = false := by decide

theorem test_line_191_is_well_formed : (Instr.laddr 191).wellFormed = true ∧ (Instr.ddrMix 191).wellFormed = true := by
  decide

theorem test_mapped_offset_is_ill_formed :
    (Instr.rdUnmapped 0x18).wellFormed = false ∧ (Instr.wrUnmapped 0x18 0).wellFormed = false := by decide

theorem test_misaligned_offset_is_ill_formed :
    (Instr.rdUnmapped 0x1D).wellFormed = false ∧ (Instr.wrUnmapped 0xFE 0).wellFormed = false := by decide

theorem test_unmapped_offsets_are_well_formed :
    (Instr.rdUnmapped 0x1C).wellFormed = true ∧ (Instr.wrUnmapped 0xFC 0).wellFormed = true := by decide

/-! ### Decoding (30_encoding.md R90 to R97, the words bit by bit; 10_state.md R22) -/

theorem test_decode_nop : decodeCommand 0b00000000000000000000000000000000 = .ok .nop := by decide
theorem test_decode_fstart : decodeCommand 0b00010000000000000000000000000000 = .ok .fstart := by decide
theorem test_decode_laddr : decodeCommand 0b00100000000000000000000000001001 = .ok (.laddr 9) := by decide
theorem test_decode_dsr : decodeCommand 0b00110000000000000000000010111111 = .ok (.dsr 191) := by decide
theorem test_decode_ddr140 : decodeCommand 0b01000000000000000000000000000101 = .ok (.ddr140 5) := by decide
theorem test_decode_ddr560 : decodeCommand 0b01000000000000000000010000000101 = .ok (.ddr560 5) := by decide
theorem test_decode_ddr160 : decodeCommand 0b01000000000000000000100000000101 = .ok (.ddr160 5) := by decide
theorem test_decode_ddrMix : decodeCommand 0b01000000000000000000110010111111 = .ok (.ddrMix 191) := by decide
theorem test_decode_ffull : decodeCommand 0b01010000000000000000000000000000 = .ok .ffull := by decide
theorem test_decode_fmixed : decodeCommand 0b01100000000000000000000000000000 = .ok .fmixed := by decide

/-- 95_test_vectors.md, "command decode and errors": the rejected words. -/
theorem test_decode_rejects :
    decodeCommand 0x00000100 = .error .reservedField ∧ decodeCommand 0x00000001 = .error .reservedField ∧
    decodeCommand 0x10001000 = .error .reservedField ∧ decodeCommand 0x20000409 = .error .reservedField ∧
    decodeCommand 0x200000C0 = .error .lineRange ∧ decodeCommand 0x200010C0 = .error .reservedField ∧
    decodeCommand 0x40000CC0 = .error .lineRange ∧ decodeCommand 0x40000300 = .error .reservedField ∧
    decodeCommand 0x50000400 = .error .reservedField ∧ decodeCommand 0x600000FF = .error .reservedField ∧
    decodeCommand 0x70000000 = .error .illegalOp ∧ decodeCommand 0xF00010FF = .error .illegalOp := by decide

/-- The writes, by offset. -/
theorem test_decode_writes :
    (decodeAccess (hostWrite 0x00 1) = .ok (.wrCmd 1) ∧ decodeAccess (hostWrite 0x04 2) = .ok (.wrStatus 2) ∧
      decodeAccess (hostWrite 0x08 3) = .ok (.wrCfg 3) ∧ decodeAccess (hostWrite 0x0C 4) = .ok (.wrFcfg 4)) ∧
    decodeAccess (hostWrite 0x10 5) = .ok (.wrResult 5) ∧ decodeAccess (hostWrite 0x14 6) = .ok (.wrTsel 6) ∧
    decodeAccess (hostWrite 0x18 7) = .ok (.wrTdata 7) ∧ decodeAccess (hostWrite 0x1C 8) = .ok (.wrUnmapped 0x1C 8) := by
  decide

/-- The reads, by offset. -/
theorem test_decode_reads :
    (decodeAccess (hostRead 0x00) = .ok .rdCmd ∧ decodeAccess (hostRead 0x04) = .ok .rdStatus ∧
      decodeAccess (hostRead 0x08) = .ok .rdCfg ∧ decodeAccess (hostRead 0x0C) = .ok .rdFcfg) ∧
    decodeAccess (hostRead 0x10) = .ok .rdResult ∧ decodeAccess (hostRead 0x14) = .ok .rdTsel ∧
    decodeAccess (hostRead 0x18) = .ok .rdTdata ∧ decodeAccess (hostRead 0xFC) = .ok (.rdUnmapped 0xFC) := by decide

/-- 20_memory.md R66: any other access is rejected by name. -/
theorem test_decode_access_rejects :
    decodeAccess { write := true, offset := 0x04, bytes := 2, data := 0 } = .error .width ∧
    decodeAccess { write := false, offset := 0x06, bytes := 4, data := 0 } = .error .misaligned := by decide

/-- 20_memory.md R65: byte 0 of a word holds bits 7:0. -/
theorem test_decode_bytes_little_endian : decodeBytes .c [0x05, 0x0C, 0x00, 0x40] = .ok (.ddrMix 5) := by decide

theorem test_decode_bytes_rejects :
    decodeBytes .c [0x05] = .error .length ∧ decodeBytes .c [0, 0, 0, 0x70] = .error (.command .illegalOp) ∧
    decodeBytes .bus [0x06, 0, 0, 0, 0, 0] = .error (.access .misaligned) := by decide

/-- spec/opcode_table.json's numbering: a command row has 32 bits, a bus row the 8 of its offset. -/
theorem test_decode_table_words :
    decodeTableWord 32 0x40000405 = some (.ddr560 5) ∧ decodeTableWord 8 0x14 = some (.wrTsel 0) ∧
    decodeTableWord 8 0xFC = some (.wrUnmapped 0xFC 0) ∧ decodeTableWord 32 0x70000000 = none := by decide

/-- 30_encoding.md R98: TLOAD's two accesses, and a command statement as a write of CMD. -/
theorem test_host_statements :
    (tload 1 511 7).map decodeAccess = [.ok (.wrTsel 0x000101FF), .ok (.wrTdata 7)] ∧
    decodeAccess (statement (.ddr560 5)) = .ok (.wrCmd 0x40000405) ∧
    clrst.map decodeAccess = [.ok (.wrStatus 6)] := by decide

/-! ### The fixtures of 95_test_vectors.md -/

/-- DOT_T. -/
def dotT (b : Nat) : BitVec 14 :=
  let v := (List.range 7).foldl (fun (v : Nat) i => if b.testBit i then v ||| (3 <<< (12 - 2 * i)) else v) 0
  BitVec.ofNat 14 (if b.testBit 7 then v >>> 1 else v)

/-- The fixture tables; LORES16 is left unwritten. -/
def fixtures : Tables :=
  { dot := (List.range 256).map fun b => (b, dotT b)
    art := (List.range 512).map fun i => (i, BitVec.ofNat 24 (((0x800 ||| i) <<< 12) ||| i))
    pal16 := (List.range 16).map fun i => (i, BitVec.ofNat 12 (0x100 ||| i))
    mono4 := (List.range 4).map fun i => (i, BitVec.ofNat 24 (((0x340 + i) <<< 12) ||| (0x300 + i)))
    monobw := [(0, 0x3F0), (1, 0x3FF)]
    lores16 := [] }

/-- RND_A and RND_M. -/
def rndA (c : Nat) : Byte := BitVec.ofNat 8 (53 * c + 11)

def rndM (c : Nat) : Byte := BitVec.ofNat 8 (29 * c + 7)

/-- One nonzero byte of a line. -/
def only (k : Nat) (v : Byte) (c : Nat) : Byte := if c = k then v else 0

/-- Line 0 of page 1, with the given AUX and MAIN bytes and every other byte 0. -/
def lineMem (a m : Nat → Byte) : Memory :=
  ((List.range 40).map fun c => (c, m c)).filter (fun x => x.2 != 0)
    ++ ((List.range 40).map fun c => (16384 + c, a c)).filter (fun x => x.2 != 0)

/-- The state after reset with the fixtures loaded, one line of graphics bytes, and CFG and FCFG set. -/
def loaded (f : BitVec 7) (a m : Nat → Byte) : State :=
  { State.reset with tables := fixtures, mem := lineMem a m, cfg := f, fcfg := f, mode := deriveMode f }

/-- The same, with a command word accepted. -/
def accepted (w : Word) (f : BitVec 7) (a m : Nat → Byte) : State := (loaded f a m).accept w

/-- A small state with no table, a command accepted and DRV silent. -/
def silent (w : Word) : State := { State.reset.accept w with drvReady := false }

/-- The buffer a step submits last. -/
def lastBuffer : Host.Outcome State Fault Refusal → Option Buffer
  | .next t =>
    match t.out.getLast? with
    | some (.submitScanline b) => some b
    | _ => none
  | .fault _ => none
  | .refused _ => none

/-- A field of the next state. -/
def after {α : Type} (f : State → α) : Host.Outcome State Fault Refusal → Option α
  | .next t => some (f t)
  | .fault _ => none
  | .refused _ => none

/-- A line summary: n, repeat_count, sum, xor and slots. -/
def summary (b : Buffer) : Nat × Nat × Word × Word × Nat :=
  (b.length, b.repeatCount, b.data.foldl (· + ·) 0, b.data.foldl (· ^^^ ·) 0, totalSlots b.data)

/-! ### One step each, against 95_test_vectors.md -/

/-- V-SR-10. -/
theorem test_dsr_rnd : (lastBuffer (exec (.dsr 0) (accepted 0x30000000 0 (fun _ => 0) rndM))).map summary
    = some (284, 0, 0xE60EA60C, 0x3066B066, 600) := by decide +kernel

/-- V-SR-6: the half-dot replication. -/
theorem test_dsr_replication :
    ((lastBuffer (exec (.dsr 0)
      (accepted 0x30000000 0 (fun _ => 0) fun c => if c = 0 then 0x40 else if c = 1 then 0x80 else 0))).map
        fun b => (b.data.drop 7).take 5) = some [0x08010001, 0x09070107, 0x081C001C, 0x09700170, 0x08C000C0] := by
  decide +kernel

/-- V-140-5. -/
theorem test_ddr140_rnd : (lastBuffer (exec (.ddr140 0) (accepted 0x40000000 0 rndA rndM))).map summary
    = some (74, 0, 0x77E1F878, 0x3005B00A, 600) := by decide +kernel

/-- V-140-2: a nibble that straddles AUX and MAIN. -/
theorem test_ddr140_straddle :
    ((lastBuffer (exec (.ddr140 0) (accepted 0x40000000 0 (only 0 0x70) (only 0 0x01)))).map
      fun b => (b.data.drop 3).take 2) = some [0x310F3100, 0x31003100] := by decide +kernel

/-- V-560-4. -/
theorem test_ddr560_rnd : (lastBuffer (exec (.ddr560 0) (accepted 0x40000400 0 rndA rndM))).map summary
    = some (284, 0, 0x9FACD9A8, 0x3000B000, 600) := by decide +kernel

/-- V-560-2: a pair that straddles AUX bit 6 and MAIN bit 0. -/
theorem test_ddr560_straddle :
    ((lastBuffer (exec (.ddr560 0) (accepted 0x40000400 0 (only 0 0x40) (only 0 0x01)))).map
      fun b => (b.data.drop 5).take 3) = some [0x03400300, 0x03430303, 0x03400300] := by decide +kernel

/-- V-160-4. -/
theorem test_ddr160_rnd : (lastBuffer (exec (.ddr160 0) (accepted 0x40000800 0 rndA rndM))).map summary
    = some (81, 0, 0x5254D258, 0x000D8000, 640) := by decide +kernel

/-- V-160-3: DUP. -/
theorem test_ddr160_dup :
    (lastBuffer (exec (.ddr160 0) (accepted 0x40000800 0x40 (fun _ => 0) fun _ => 0))).map summary
      = some (80, 1, 0x500F5000, 0x00000000, 640) := by decide +kernel

/-- V-MIX-7, with DUP. -/
theorem test_ddrMix_rnd : (lastBuffer (exec (.ddrMix 0) (accepted 0x40000C00 0x40 rndA rndM))).map summary
    = some (222, 1, 0x91C69147, 0x21032103, 600) := by decide +kernel

/-- V-MIX-4: the tail at x = 558. -/
theorem test_ddrMix_tail :
    ((lastBuffer (exec (.ddrMix 0) (accepted 0x40000C00 0 (only 0 0x80) (only 0 0x80)))).map
      fun b => (b.length, b.data.drop 145)) = some (148, [0x11001100, 0x03F003F0, 0x00008000]) := by decide +kernel

/-- V-FR-1: the requests a frame begins with. -/
theorem test_ffull_begins :
    after (fun t => (t.out, t.fcfg, t.mode, t.seqState))
      (exec .ffull { (State.reset.accept 0x50000000) with issueCfg := 0x36, inputs := [⟨3, .drv false⟩] })
      = some ([.prepareFrame, .skipLines 48, .prepareScanline], 0x36, .dr .mix, .busy) := by decide

/-- V-FR-1: after line 191 FFULL is complete. -/
theorem test_ffull_ends :
    after (fun t => (t.out, t.statusWord))
      (exec .ffull { (State.reset.accept 0x50000000) with point := .submitAck, lctr := 191 })
      = some ([], 0x00000002) := by decide

/-- V-FR-2: after line 159 FMIXED asks for the text rows 20 to 23 and is complete. -/
theorem test_fmixed_text_rows :
    after (fun t => (t.out, t.statusWord))
      (exec .fmixed { (State.reset.accept 0x60000000) with point := .submitAck, lctr := 159 })
      = some ([.renderTextLine 20, .renderTextLine 21, .renderTextLine 22, .renderTextLine 23], 0x00000002) := by
  decide

/-- FMIXED's last graphics line is 159 (44_frame_control.md R218): after line 158 it asks for one more buffer. -/
theorem test_fmixed_last_line :
    after (fun t => (t.out, t.lctr))
      (exec .fmixed { (State.reset.accept 0x60000000) with point := .submitAck, lctr := 158, inputs := [⟨1, .drv false⟩] })
      = some ([.prepareScanline], 159) := by decide

/-- LADDR 9 and LADDR 191, PR1. -/
theorem test_laddr : after State.resultWord (exec (.laddr 9) State.reset) = some 0x00000480 ∧
    after State.resultWord (exec (.laddr 191) State.reset) = some 0x00001FD0 := by decide

/-- The other MID_STRIDE: LADDR 127 gives 8048. -/
theorem test_laddr_stride_120 :
    after State.resultWord (exec (.laddr 127) { State.reset with params := { Params.default with midStride := .s120 } })
      = some 8048 := by decide

theorem test_nop : after (fun t => (t.statusWord, t.cmd, t.out)) (exec .nop (State.reset.accept 0)) = some (2, 0, []) := by
  decide

/-- V-FR-4 and V-FR-5. -/
theorem test_fstart :
    after (fun t => (t.statusWord, t.fcfgWord)) (exec .fstart { State.reset with issueCfg := 0x0E }) = some (0x502, 0x0E) ∧
    after State.statusWord (exec .fstart { State.reset with issueCfg := 0x0C }) = some 2 := by decide

theorem test_wrCmd_accepts :
    after (fun t => (t.cmd, t.statusWord)) (exec (.wrCmd 0x20000009) { State.reset with done := true })
      = some (0x20000009, 1) := by decide

/-- "0x70000000, then 0x200000C0": the second code is discarded. -/
theorem test_wrCmd_keeps_the_first_code :
    after State.statusWord (exec (.wrCmd 0x200000C0) { State.reset with err := true, errcode := .illegalOp })
      = some 0x14 := by decide

/-- Bus vector 10. -/
theorem test_wrStatus :
    after State.statusWord (exec (.wrStatus 0xFFFFFFFF) { State.reset with done := true, err := true, errcode := .tableRange })
      = some 0 := by decide

/-- Bus vector 2. -/
theorem test_wrCfg : after State.cfgWord (exec (.wrCfg 0xFFFFFFFF) State.reset) = some 0x7F := by decide

/-- Bus vector 5. -/
theorem test_wrTsel : after State.tselWord (exec (.wrTsel 0xFFFFFFFF) State.reset) = some 0x000701FF := by decide

/-- Bus vector 8: ART[511] keeps 24 bits. -/
theorem test_wrTdata :
    after (fun t => t.tables.get .art 511) (exec (.wrTdata 0xFFFFFFFF) { State.reset with tselTable := 1, tselIndex := 511 })
      = some (some 0x00FFFFFF) := by decide

/-- Bus vector 6: table 7 is reserved. -/
theorem test_wrTdata_range :
    after State.statusWord (exec (.wrTdata 1) { State.reset with tselTable := 7, tselIndex := 511 }) = some 0x54 := by
  decide

/-- 44_frame_control.md R227's example. -/
theorem test_rdTdata :
    after State.rdata (exec .rdTdata { State.reset with
      tselTable := 2, tselIndex := 3, tables := Tables.empty.set .pal16 3 0xABC }) = some 0xABC := by decide

theorem test_rdTdata_busy :
    after State.rdata (exec .rdTdata { State.reset with
      tselTable := 2, tselIndex := 3, tables := Tables.empty.set .pal16 3 0xABC, seqState := .busy }) = some 0 := by
  decide

theorem test_rdCmd : after State.rdata (exec .rdCmd { State.reset with cmd := 0x10000000 }) = some 0x10000000 := by decide

/-- PR1, step 5. -/
theorem test_rdStatus :
    after State.rdata (exec .rdStatus { State.reset with done := true, err := true, errcode := .lineRange }) = some 0x36 := by
  decide

theorem test_rdCfg : after State.rdata (exec .rdCfg { State.reset with cfg := 0x7F, fcfg := 1 }) = some 0x7F := by decide
theorem test_rdFcfg : after State.rdata (exec .rdFcfg { State.reset with cfg := 1, fcfg := 0x7F }) = some 0x7F := by decide
theorem test_rdResult : after State.rdata (exec .rdResult { State.reset with result := 0x1FD0 }) = some 0x1FD0 := by decide

theorem test_rdTsel :
    after State.rdata (exec .rdTsel { State.reset with tselTable := 7, tselIndex := 0x1FF }) = some 0x701FF := by decide

theorem test_wrFcfg : after State.fcfgWord (exec (.wrFcfg 0x12345678) State.reset) = some 0 := by decide
theorem test_wrResult : after State.resultWord (exec (.wrResult 0x12345678) State.reset) = some 0 := by decide

theorem test_rdUnmapped : after State.rdata (exec (.rdUnmapped 0x1C) { State.reset with rdata := 5 }) = some 0 := by decide

theorem test_wrUnmapped : after State.statusWord (exec (.wrUnmapped 0xFC 0xFFFFFFFF) State.reset) = some 0 := by decide

/-! ### Steps, waiting, and stops -/

/-- V-FR-6: a CFG write during a frame is accepted, and leaves the snapshot. -/
theorem test_cfg_write_during_a_frame :
    after (fun t => (t.cfg, t.fcfg, t.mode, t.busy))
      (step { silent 0x50000000 with point := .frameAck, inputs := [⟨0, .host (hostWrite 0x08 0x06)⟩] })
      = some (0x06, 0, .base, true) := by decide

/-- U8: a silent DRV leaves the SLD BUSY. -/
theorem test_silent_driver : after (fun t => (t.out, t.point, t.busy)) (exec (.dsr 0) (silent 0x30000000))
    = some ([.prepareScanline], .lineAck, true) := by decide

/-- 10_state.md R41: the first command that needs a table faults after reset. -/
theorem test_unwritten_dot_faults : exec (.dsr 0) (State.reset.accept 0x30000000) = .fault (.unwrittenEntry .dot 0) := rfl

/-- 41_run_words.md R149. -/
theorem test_small_buffer_is_refused :
    exec (.dsr 0) { State.reset.accept 0x30000000 with params := { Params.default with slCap := 283 } }
      = .refused .smallBuffer := rfl

/-- The very next step runs the instruction placed by withFetchWord. -/
theorem test_placed_words_run :
    after State.resultWord (step (State.reset.withFetchWord 32 0x20000009)) = some 0x480 ∧
    after State.fcfgWord (step ({ State.reset with cfg := 0x3E }.withFetchWord 32 0x10000000)) = some 0x3E := by decide

/-- 20_memory.md R72: a write while a line decode is in progress, here between two columns, keeps the value it replaces
and makes the byte one whose reads are draws. -/
theorem test_racing_write_is_recorded :
    let s := State.gmwWrite { State.reset.accept 0x30000000 with point := .content } .main .one 0 0x7F
    s.staleAt 0 = [0] ∧ s.raced = [0] := by decide

/-- 20_memory.md R60: a write while a frame command waits before its first line is no race; the new byte is read. -/
theorem test_write_before_the_first_line_is_read :
    let s := State.gmwWrite { State.reset.accept 0x50000000 with point := .skipAck } .main .one 0 0x7F
    s.raced = [] ∧ s.gread .main .one 0 = 0x7F := by decide

/-- 70_reset_and_hazards.md R282: TSEL is written between FSTART's acceptance and its step, and rejected with BUSY. -/
theorem test_access_lands_in_fstart :
    after (fun t => (t.statusWord, t.fcfg))
      (step { State.reset.accept 0x10000000 with inputs := [⟨0, .host (hostWrite 0x14 1)⟩] })
      = some (0x00000045, 0) := by decide

/-- 20_memory.md R71: a CFG write after FSTART's CMD write is accepted, and FSTART's snapshot does not see it. -/
theorem test_cfg_write_after_fstart :
    let t := { { State.reset with cfg := 0x3E }.accept 0x10000000 with inputs := [⟨0, .host (hostWrite 0x08 1)⟩] }
    after (fun u => (u.cfg, after (fun v => (v.cfg, v.fcfg)) (step u))) (step t) = some (1, some (1, 0x3E)) := by decide

/-- How a report reads in a test: 0 ended, 1 stuck, 2 running, 3 stopped, with the last word read. -/
def reported : HostReport → Nat × Word
  | .ended s => (0, s.rdata)
  | .stuck s => (1, s.rdata)
  | .running s => (2, s.rdata)
  | .fault _ => (3, 0)
  | .refused _ => (3, 0)

/-- 95_test_vectors.md PR1: LADDR 9, WAIT, RD RESULT. -/
theorem test_program_issue_laddr :
    reported (runHost 2 (issue (.laddr 9) ++ [.access (hostRead 0x10)]) State.reset) = (0, 0x00000480) := by decide

/-- 70_reset_and_hazards.md R273: with DRV silent the WAIT of an ISSUE is reported stuck, BUSY read as 1, and the access
after it is never made. -/
theorem test_program_stuck :
    reported (runHost 4 (issue (.dsr 0) ++ [.access (hostRead 0x10)]) { State.reset with drvReady := false })
      = (1, 0x00000001) := by decide

/-! ### The hypotheses of the statements can be met -/

theorem test_witness_decode_encode : (Instr.laddr 0).wellFormed = true ∧ (Instr.ddrMix 191).wellFormed = true ∧
    (Instr.rdUnmapped 0x1C).wellFormed = true ∧ (Instr.wrUnmapped 0xFC 1).wellFormed = true := by decide

theorem test_witness_accepted_word : decodeCommand 0x400008BF = .ok (.ddr160 191) := by decide

theorem test_witness_defined_access :
    decodeAccess { write := true, offset := 0xFC, bytes := 4, data := 9 } = .ok (.wrUnmapped 0xFC 9) := by decide

/-- Each case of the command decode, at the bounds of its fields. -/
theorem test_witness_priority :
    ((0x70000000 : Word).toNat / 2 ^ 28 = 7 ∧ (0x6FFFFFFF : Word).toNat / 2 ^ 28 = 6) ∧
    ((0x60000001 : Word).toNat % 2 ^ 8 ≠ 0 ∧ (0x30000400 : Word).toNat / 2 ^ 10 % 4 ≠ 0) ∧
    ((0x20000100 : Word).toNat / 2 ^ 8 % 4 ≠ 0 ∧ (0x08000000 : Word).toNat / 2 ^ 12 % 2 ^ 16 ≠ 0) ∧
    ((0x200000C0 : Word).toNat / 2 ^ 28 = 2 ∧ (0x200000C0 : Word).toNat / 2 ^ 12 % 2 ^ 16 = 0 ∧
      (0x200000C0 : Word).toNat / 2 ^ 8 % 4 = 0 ∧ (0x200000C0 : Word).toNat % 2 ^ 8 = 192) ∧
    ((0x40000CBF : Word).toNat / 2 ^ 28 = 4 ∧ (0x40000CBF : Word).toNat / 2 ^ 12 % 2 ^ 16 = 0 ∧
      (0x40000CBF : Word).toNat / 2 ^ 8 % 4 = 0 ∧ (0x40000CBF : Word).toNat % 2 ^ 8 = 191) := by decide

theorem test_witness_accept : State.reset.seqState = .idle ∧ decodeCommand 0x200000BF = .ok (.laddr 191) := by decide

theorem test_witness_rejections :
    (State.reset.accept 0).seqState = .busy ∧
    (State.reset.seqState = .idle ∧ decodeCommand 0x70000000 = .error .illegalOp) ∧
    (State.reset.seqState = .idle ∧ decodeCommand 0x60000001 = .error .reservedField) ∧
    (State.reset.seqState = .idle ∧ decodeCommand 0x200000C0 = .error .lineRange) ∧
    ({ State.reset with tselTable := 3, tselIndex := 4 }.seqState = .idle ∧
      State.selected { State.reset with tselTable := 3, tselIndex := 4 } = none) := by decide

theorem test_witness_selection :
    State.selected { State.reset with tselTable := 3, tselIndex := 3 } = some (.mono4, 3) ∧
    State.selected { State.reset with tselTable := 1, tselIndex := 511 } = some (.art, 511) ∧
    State.selected { State.reset with tselTable := 6, tselIndex := 0 } = none := by decide

theorem test_witness_rdTdata :
    (State.selected { State.reset with tselTable := 2, tselIndex := 15 } = some (.pal16, 15) ∧
      State.reset.tables.get .pal16 15 = none) ∧
    (State.selected { State.reset with tselTable := 4, tselIndex := 1, tables := Tables.empty.set .monobw 1 0x3FF }
      = some (.monobw, 1) ∧ (Tables.empty.set .monobw 1 0x3FF).get .monobw 1 = some 0x3FF) := by decide

theorem test_witness_line_bytes : (0 : BitVec 8).toNat < 192 ∧ (191 : BitVec 8).toNat < 192 ∧ 0 < 40 ∧ 39 < 40 := by decide

/-- DOT and ART are loaded. -/
theorem test_fixtures_dot_art : Ram.loaded 256 fixtures.dot = true ∧ Ram.loaded 512 fixtures.art = true := by
  simp only [fixtures, Laws.ram_loaded_map, and_self]

/-- Every table of every mode is loaded. -/
theorem test_fixtures_loaded_for (m : Mode) : fixtures.loadedFor m = true := by
  cases m with
  | base =>
    simp only [Tables.loadedFor, Bool.and_eq_true]
    exact test_fixtures_dot_art
  | dr sub => cases sub <;> decide

/-- An accepted command is poised to run through, its tables loaded: the hypotheses of the five line commands'
statements. -/
theorem test_witness_line_commands (w : Word) (f : BitVec 7) (m : Mode) :
    (accepted w f rndA rndM).Poised ∧ (accepted w f rndA rndM).tables.loadedFor m = true :=
  ⟨⟨rfl, rfl, rfl, rfl, rfl, Nat.le_refl 284⟩, test_fixtures_loaded_for m⟩

/-- The hypotheses of FFULL's and FMIXED's statements, for every configuration. -/
theorem test_witness_frames (w : Word) (f : BitVec 7) :
    (accepted w f rndA rndM).Poised ∧ (accepted w f rndA rndM).txtReady = true ∧
    (accepted w f rndA rndM).tables.loadedFor (deriveMode (accepted w f rndA rndM).issueCfg) = true :=
  ⟨⟨rfl, rfl, rfl, rfl, rfl, Nat.le_refl 284⟩, rfl, test_fixtures_loaded_for _⟩

theorem test_witness_line_frame : Instr.dsr 0 ∈ [Instr.dsr 0, .ddr140 0, .ddr560 0, .ddr160 0, .ddrMix 0] ∧
    ∃ t, exec (.dsr 0) (silent 0x30000000) = .next t := ⟨by decide, _, rfl⟩

theorem test_witness_frame_frame : Instr.ffull ∈ [Instr.ffull, .fmixed] ∧
    (∃ t, exec .ffull { silent 0x50000000 with issueCfg := 1 } = .next t ∧ t.fcfg = 1) ∧
    ∃ t, exec .fmixed { silent 0x60000000 with point := .skipAck, issueCfg := 1 } = .next t ∧ t.fcfg = 0 :=
  ⟨by decide, ⟨_, rfl, rfl⟩, _, rfl, rfl⟩

/-- Each register and table is changed by the instruction that may change it; DONE and BUSY by acceptance, WR STATUS,
and a completion, also that of a command that has waited. -/
theorem test_witness_changes :
    after State.cmd (exec (.wrCmd 0x10000000) State.reset) = some 0x10000000 ∧
    after State.cfg (exec (.wrCfg 1) State.reset) = some 1 ∧
    after State.mode (exec .fstart { State.reset with issueCfg := 6 }) = some (.dr .s140) ∧
    after State.result (exec (.laddr 1) State.reset) = some 1024 ∧
    after State.tselIndex (exec (.wrTsel 5) State.reset) = some 5 ∧
    after State.tables (exec (.wrTdata 5) State.reset) = some (Tables.empty.set .dot 0 5) ∧
    after State.err (exec (.wrCmd 0x70000000) State.reset) = some true ∧
    after State.out (exec (.dsr 0) (silent 0x30000000)) = some [.prepareScanline] ∧
    after State.point (exec (.dsr 0) (silent 0x30000000)) = some .lineAck ∧
    after (fun t => (t.busy, t.done)) (exec (.wrCmd 0) { State.reset with done := true }) = some (true, false) ∧
    after State.done (exec (.wrStatus 2) { State.reset with done := true }) = some false ∧
    after (fun t => (t.busy, t.done)) (exec .nop (State.reset.accept 0)) = some (false, true) ∧
    after (fun t => (t.busy, t.done)) (exec (.dsr 0) { State.reset.accept 0x30000000 with point := .submitAck })
      = some (false, true) ∧
    after State.lctr (exec .ffull
      { State.reset.accept 0x50000000 with point := .skipAck, lctr := 7, inputs := [⟨1, .drv false⟩] }) = some 0 := by
  decide

/-- Words of a line: the padding and the HOLD. -/
theorem test_witness_line_word : (0x70007000 : Word) ∈ (lineBuffer 0 .base []).data ∧
    (0x00008000 : Word) ∈ (lineBuffer 0 .base []).data := by decide

theorem test_witness_mixed_flags :
    (∀ c, c < 40 → (0x7F : Byte).getLsbD 7 = false ∧ c < 40) ∧ (∀ c, c < 40 → (0x80 : Byte).getLsbD 7 = true ∧ c < 40) :=
  ⟨fun _ h => ⟨by decide, h⟩, fun _ h => ⟨by decide, h⟩⟩

/-- A poised state with given tables and graphics bytes. -/
def poised (tb : Tables) (m : Memory) : State := { State.reset.accept 0x30000000 with tables := tb, mem := m }

theorem test_witness_poised (tb : Tables) (m : Memory) : (poised tb m).Poised :=
  ⟨rfl, rfl, rfl, rfl, rfl, Nat.le_refl 284⟩

/-- For each clause about unwritten entries: the first entry, a later one of each engine, a frame command's, and one of a
line that has waited. -/
theorem test_witness_unwritten :
    (let s := poised Tables.empty [];
      s.tables.firstUnwritten ((Job.line 0 .base).readsToCome s) = some (.dot, 0) ∧
      s.tables.firstUnwritten ((Job.frame 192 false).readsToCome ((Job.frame 192 false).begun s)) = some (.dot, 0)) ∧
    (let s := poised ((Tables.empty.set .dot 0 0).set .art 0 0) [];
      s.tables.firstUnwritten ((Job.line 0 .base).readsToCome s) = some (.art, 256)) ∧
    (let s := poised (Tables.empty.set .pal16 0 0) [(16384, 0x10)];
      s.tables.firstUnwritten ((Job.line 0 (.dr .s140)).readsToCome s) = some (.pal16, 1) ∧
      s.tables.firstUnwritten ((Job.line 0 (.dr .mix)).readsToCome s) = some (.pal16, 1)) ∧
    (let s := poised (Tables.empty.set .mono4 0 0) [(16384, 0x08)];
      s.tables.firstUnwritten ((Job.line 0 (.dr .s560)).readsToCome s) = some (.mono4, 2)) ∧
    (let s := { poised (Tables.empty.set .monobw 0 0) [(16384, 0x82)] with point := .lineAck };
      s.tables.firstUnwritten ((Job.line 0 (.dr .mix)).readsToCome s) = some (.monobw, 1)) := by decide

/-- The machine faults there: the second window of a DSR, the high nibble of a DDR.140 and a DDR.160 (10_state.md R41). -/
theorem test_later_unwritten_entry_faults :
    exec (.dsr 0) (poised ((Tables.empty.set .dot 0 0).set .art 0 0) []) = .fault (.unwrittenEntry .art 256) ∧
    exec (.ddr140 0) (poised (Tables.empty.set .pal16 0 0) [(16384, 0x10)]) = .fault (.unwrittenEntry .pal16 1) ∧
    exec (.ddr160 0) (poised (Tables.empty.set .pal16 0 0) [(16384, 0x10)]) = .fault (.unwrittenEntry .pal16 1) :=
  ⟨rfl, rfl, rfl⟩

/-- A line whose every entry is written, though other entries of its table are not. -/
theorem test_witness_written : (poised (Tables.empty.set .pal16 0 0) []).textServed (.line 0 (.dr .s160)) ∧
    (poised (Tables.empty.set .pal16 0 0) []).tables.firstUnwritten
      ((Job.line 0 (.dr .s160)).readsToCome (poised (Tables.empty.set .pal16 0 0) [])) = none :=
  ⟨fun _ => rfl, by decide⟩

/-- A fault of a command, for the clause from every state. -/
theorem test_witness_fault : exec .ffull (poised Tables.empty []) = .fault (.unwrittenEntry .dot 0) := rfl

theorem test_witness_small_buffer : isLongCommand .fmixed ∧ isLongCommand (.dsr 0) ∧
    (State.reset.accept 0x60000000).seqState = .busy ∧ (State.reset.accept 0x60000000).point = .start ∧
    (State.reset.accept 0x60000000).inputs = [] ∧ (State.reset.accept 0x60000000).drvReady = true ∧
    ({ Params.default with slCap := 283 } : Params).slCap < 284 := ⟨rfl, rfl, rfl, rfl, rfl, rfl, by decide⟩

theorem test_witness_undefined_access :
    State.nextInput { State.reset with inputs := [⟨0, .host ⟨true, 4, 2, 0⟩⟩] } = some (.host ⟨true, 4, 2, 0⟩, State.reset) ∧
    State.nextInput { State.reset with inputs := [⟨0, .host ⟨false, 6, 4, 0⟩⟩] }
      = some (.host ⟨false, 6, 4, 0⟩, State.reset) := by decide

theorem test_witness_silent : (silent 0x30000000).seqState = .busy ∧ (silent 0x30000000).inputs = [] ∧
    (silent 0x30000000).point = .start ∧ (silent 0x30000000).drvReady = false ∧
    Job.ofInstr (.dsr 0) = some (.line 0 .base) ∧ Job.ofInstr .ffull = some (.frame 192 false) ∧
    decodeCommand (silent 0x30000000).cmd = .ok (.dsr 0) ∧
    State.waiting { silent 0x30000000 with point := .lineAck } = true := by decide

theorem test_witness_idle : State.reset.seqState = .idle ∧ State.reset.inputs = [] ∧
    after State.busy (step { State.reset with inputs := [⟨0, .host (hostWrite 0x00 0)⟩] }) = some true := by decide

theorem test_witness_seq_turn : (State.reset.accept 0x20000009).nextInput = none ∧
    (State.reset.accept 0x20000009).seqState = .busy ∧
    decodeCommand (State.reset.accept 0x20000009).cmd = .ok (.laddr 9) := by decide

/-- A due access, and one that comes while SEQ cannot step. -/
theorem test_witness_due_access :
    decodeAccess (hostWrite 0x08 1) = .ok (.wrCfg 1) ∧ State.reset.framePending = false ∧
    (Instr.wrCfg 1 ≠ .rdStatus ∧ Instr.wrCfg 1 ≠ .rdFcfg) ∧
    State.runnable { State.reset with inputs := [⟨7, .host (hostWrite 0x08 1)⟩] } = false := by decide

theorem test_witness_placed : decodeCommand 0x300000BF = .ok (.dsr 191) ∧ (0xFC : BitVec 8).toNat % 4 = 0 ∧
    Instr.wrUnmapped 0xFC 0 = writeOf 0xFC 0 ∧ (0x00 : BitVec 8).toNat % 4 = 0 ∧ Instr.wrCmd 0 = writeOf 0x00 0 := by decide

/-- The host is about to write a DDR.MIX command. -/
def issuing : State := { loaded 0 rndA rndM with inputs := [⟨0, .host (hostWrite 0x00 0x40000C05)⟩] }

theorem test_witness_issue : decodeCommand 0x40000C05 = .ok (.ddrMix 5) ∧
    Job.ofInstr (.ddrMix 5) = some (.line 5 (.dr .mix)) ∧ issuing.seqState = .idle ∧ issuing.drvReady = true ∧
    284 ≤ issuing.params.slCap ∧ issuing.tables.loadedFor (.dr .mix) = true ∧
    issuing.inputs = [⟨0, .host (hostWrite 0x00 0x40000C05)⟩] :=
  ⟨by decide, rfl, rfl, rfl, Nat.le_refl 284, test_fixtures_loaded_for _, rfl⟩

/-- A reset lands while a line command waits, and right after a frame command's acceptance. -/
theorem test_witness_reset_input :
    after (fun t => (t.busy, t.out)) (step { silent 0x30000000 with point := .lineAck, inputs := [⟨0, .reset⟩] })
      = some (false, []) ∧
    after (fun t => (t.busy, t.out)) (step { silent 0x50000000 with inputs := [⟨0, .reset⟩] }) = some (false, []) := by
  decide

/-- 70_reset_and_hazards.md R279: a read right after a frame command's acceptance waits for its snapshot. -/
theorem test_host_access_waits_for_the_snapshot :
    after (fun t => (t.fcfg, t.out))
      (step { silent 0x50000000 with issueCfg := 0x26, inputs := [⟨0, .host (hostRead 0x0C)⟩] })
      = some (0x26, [.prepareFrame]) := by decide

/-- A command that runs until it waits. -/
theorem test_witness_runs_until : isLongCommand (.dsr 0) ∧ ∃ t, exec (.dsr 0) (silent 0x30000000) = .next t :=
  ⟨rfl, _, rfl⟩

/-- SEQ waits for DRV, and nothing is to come. -/
def stuckState : State := { silent 0x30000000 with point := .lineAck, out := [.prepareScanline] }

theorem test_witness_stuck : stuckState.stuck = true ∧ stuckState.Inv ∧ (∃ t, step stuckState = .next t) ∧
    ∃ t, hostAccess (hostRead 0x00) stuckState = .next t := by
  refine ⟨by decide, ?_, ⟨_, rfl⟩, _, rfl⟩
  constructor
  case busyCommand => exact fun _ => ⟨.dsr 0, rfl, rfl⟩
  all_goals first | rfl | decide | simp [stuckState, silent, State.accept, State.reset, Request.wf]

/-- A line command, and a mixed frame at its last row, that have waited and are served again. -/
theorem test_witness_resumed :
    (let s := { accepted 0x40000800 0 rndA rndM with point := .lineAck };
      s.Resumed ∧ s.textServed (.line 0 (.dr .s160)) ∧
        s.tables.firstUnwritten ((Job.line 0 (.dr .s160)).readsToCome s) = none) ∧
    (let s := { accepted 0x60000000 0 rndA rndM with point := .textAck, trow := 23 };
      s.Resumed ∧ s.textServed (.frame 160 true) ∧
        s.tables.firstUnwritten ((Job.frame 160 true).readsToCome s) = none) :=
  ⟨⟨⟨rfl, by decide, rfl, rfl, rfl, Nat.le_refl 284⟩, fun _ => rfl,
      Laws.readsToCome_of_loaded (test_fixtures_loaded_for _)⟩,
    ⟨rfl, by decide, rfl, rfl, rfl, Nat.le_refl 284⟩, fun _ => rfl, rfl⟩

/-- 60_exceptions.md R252: DRV answers a DDR.160 that has waited for its buffer, and the line goes out. -/
theorem test_resumed_ddr160 : after (fun t => (t.busy, t.done, t.out.length))
    (exec (.ddr160 0) { accepted 0x40000800 0 rndA rndM with point := .lineAck }) = some (false, true, 1) := by
  decide +kernel

/-- A due GMW write; and a line about to be submitted, a byte of which GMW has written. -/
theorem test_witness_race :
    ({ State.reset with inputs := [⟨0, .gmw .main .one 0 1⟩] } : State).inputs
      = { after := 0, input := .gmw .main .one 0 1 } :: [] ∧
    let s := { accepted 0x30000000 0 rndA rndM with point := .submit, held := some ⟨[], 0, 0⟩, raced := [0] }
    s.point = .submit ∧ s.held = some ⟨[], 0, 0⟩ ∧ s.raced ≠ [] ∧
      s.tables.loadedFor ((Job.line 0 .base).lineMode s) = true :=
  ⟨rfl, rfl, rfl, by simp, test_fixtures_loaded_for _⟩

theorem test_witness_later_input : State.reset.inputs = [] ∧ 64 ≤ 64 ∧ (0 : Nat) ≤ 0 := by decide

theorem test_witness_memory : State.reset.mem.wf = true ∧ (lineMem rndA rndM).wf = true := by decide

/-- The invariant with the fixtures loaded and inputs to come. -/
def booting : State :=
  { loaded 0 rndA rndM with inputs := asInputs [hostWrite 0x00 0x10000000, hostRead 0x04] ++ [⟨3, .gmw .aux .two 5 9⟩] }

theorem test_witness_invariant : booting.Inv := by
  constructor
  case mem => decide +kernel
  case tables => decide +kernel
  all_goals first | rfl | decide | simp [booting, loaded, State.reset]

theorem test_witness_step : booting.Inv ∧ ∃ t, step booting = .next t := ⟨test_witness_invariant, _, rfl⟩

theorem test_witness_booted : booting.Inv ∧ booting.booted ∧ ∀ x ∈ booting.inputs, x.input.tame = true := by
  refine ⟨test_witness_invariant, ⟨?_, by decide⟩, by decide⟩
  simp only [Tables.loaded, Bool.and_eq_true]
  exact ⟨⟨⟨test_fixtures_dot_art, by decide⟩, by decide⟩, by decide⟩

end Sys2Proof.Tests
end

section
/-! Facts about the decoder and the line address that the proofs below share. -/

namespace Sys2Proof.Proofs

open Sys2Proof.Machine Sys2Proof.Laws

/-! ### Instructions and their formats -/

/-- A line or frame command is a command word. -/
theorem format_of_job {i : Instr} {job : Job} (h : Job.ofInstr i = some job) : (encode i).format = .c := by
  cases i with
  | dsr l => rfl
  | ddr140 l => rfl
  | ddr560 l => rfl
  | ddr160 l => rfl
  | ddrMix l => rfl
  | ffull => rfl
  | fmixed => rfl
  | _ => cases h

theorem command_of_format {i : Instr} (h : (encode i).format = .c) : ∃ w, encode i = .command w := by
  cases he : encode i with
  | command w => exact ⟨w, rfl⟩
  | access a => rw [he] at h; cases h

/-- The two frame commands. -/
theorem eq_of_job_frame {i : Instr} {n : Nat} {x : Bool} (h : Job.ofInstr i = some (.frame n x)) :
    i = .ffull ∨ i = .fmixed := by
  cases i with
  | ffull => exact .inl rfl
  | fmixed => exact .inr rfl
  | _ => cases h

/-- An accepted command word decodes to a well-formed instruction (30_encoding.md R92). -/
theorem decodeCommand_wellFormed {w : Word} {i : Instr} (h : decodeCommand w = .ok i) : i.wellFormed = true := by
  obtain ⟨hop, -, -, -, -, hline, rfl⟩ := decodeCommand_ok h
  obtain hop | hop | hop | hop | hop | hop | hop := op_cases _ hop <;> rw [hop] at hline ⊢
  · rfl
  · rfl
  · exact decide_eq_true (hline rfl)
  · exact decide_eq_true (hline rfl)
  · obtain hs | hs | hs | hs := sub_cases (w.extractLsb' 10 2) <;> rw [hs] <;> exact decide_eq_true (hline rfl)
  · rfl
  · rfl

/-- A bus access decodes to no command word. -/
theorem decodeAccess_format {a : BusAccess} {i : Instr} (h : decodeAccess a = .ok i) : (encode i).format = .bus := by
  unfold decodeAccess at h
  split_ifs at h <;> cases h
  · unfold writeOf
    split_ifs <;> rfl
  · unfold readOf
    split_ifs <;> rfl

/-! ### The line address -/

/-- The line offset's value, for every line operand (40_line_address.md R130): no sum of it wraps. -/
theorem lineOffset_toNat (p : Params) (l : BitVec 8) : (lineOffset p l).toNat
    = l.toNat % 8 * 1024 + l.toNat / 8 % 8 * p.midStride.bytes.toNat + l.toNat / 64 * 40 := by
  have hl := l.isLt
  cases hs : p.midStride <;>
    simp only [lineOffset, hs, MidStride.bytes, BitVec.toNat_add, BitVec.toNat_mul, BitVec.toNat_setWidth, field_toNat,
      BitVec.reduceToNat, Nat.reducePow, Nat.div_one] <;>
    simp (disch := omega) only [Nat.mod_eq_of_lt]

/-- LADDR's result is in its range (40_line_address.md R132). -/
theorem lineOffset_le (p : Params) {l : BitVec 8} (hl : l.toNat < 192) : (lineOffset p l).toNat ≤ 8144 := by
  have hb : p.midStride.bytes.toNat ≤ 128 := by cases p.midStride <;> decide
  have := Nat.mul_le_mul (show l.toNat / 8 % 8 ≤ 7 by omega) hb
  rw [lineOffset_toNat]
  omega

end Sys2Proof.Proofs
end

section
/-! What an instruction that answers a next state can do to it. -/

namespace Sys2Proof.Proofs

open Sys2Proof.Machine Sys2Proof.Laws

/-- The effects an instruction can have: a rejection, an acceptance, the write of a register or an entry, a word
returned to the host, the completion of a one-step command, or a run of SEQ. -/
inductive Effect (s : State) : Instr → State → Prop
  | rejected {i : Instr} (e : ErrCode) (he : e ≠ .none)
      (hi : (∃ v, i = .wrCmd v) ∨ (∃ v, i = .wrTsel v) ∨ ∃ v, i = .wrTdata v) : Effect s i (s.raise e)
  | accepted {v : Word} {j : Instr} (hs : s.seqState = .idle) (hd : decodeCommand v = .ok j) :
      Effect s (.wrCmd v) (s.accept v)
  | status (v : Word) : Effect s (.wrStatus v)
      { s with
        done := s.done && !v.getLsbD 1
        err := s.err && !v.getLsbD 2
        errcode := if v.getLsbD 2 = true then .none else s.errcode }
  | cfg (v : Word) : Effect s (.wrCfg v) { s with cfg := v.extractLsb' 0 7 }
  | tsel (v : Word) (hs : s.seqState = .idle) :
      Effect s (.wrTsel v) { s with tselTable := v.extractLsb' 16 3, tselIndex := v.extractLsb' 0 9 }
  | tdata (v : Word) {tab : TableId} {k : Nat} (hs : s.seqState = .idle) (hsel : s.selected = some (tab, k)) :
      Effect s (.wrTdata v) { s with tables := s.tables.set tab k v }
  | answered {i : Instr} (w : Word) (n : Nat) : Effect s i { s with rdata := w, draws := n }
  | nop : Effect s .nop s.finish
  | fstart : Effect s .fstart s.snapshot.finish
  | laddr (l : BitVec 8) : Effect s (.laddr l) (State.finish { s with result := lineOffset s.params l })
  | ran {i : Instr} {job : Job} {n : Nat} {t : State} (hj : Job.ofInstr i = some job)
      (hr : runSeq job n s = .next t) : Effect s i t

theorem ofCommand_ne_none (e : CommandError) : ErrCode.ofCommand e ≠ .none := by
  cases e <;> simp [ErrCode.ofCommand]

theorem execWrCmd_effect {v : Word} {s t : State} (h : execWrCmd v s = .next t) : Effect s (.wrCmd v) t := by
  unfold execWrCmd at h
  split at h
  · cases h; exact .rejected _ (by simp) (.inl ⟨v, rfl⟩)
  · rename_i hb
    split at h <;> cases h
    · exact .accepted (idle_of_not_busy (eq_false_of_ne_true hb)) ‹_›
    · exact .rejected _ (ofCommand_ne_none _) (.inl ⟨v, rfl⟩)

theorem execWrStatus_eq (v : Word) (s : State) : execWrStatus v s = .next
    { s with
      done := s.done && !v.getLsbD 1
      err := s.err && !v.getLsbD 2
      errcode := if v.getLsbD 2 = true then .none else s.errcode } := by
  cases h1 : v.getLsbD 1 <;> cases h2 : v.getLsbD 2 <;> simp only [execWrStatus, h1, h2] <;> simp [State.clearErr]

theorem execWrTsel_effect {v : Word} {s t : State} (h : execWrTsel v s = .next t) : Effect s (.wrTsel v) t := by
  unfold execWrTsel at h
  split at h
  · cases h; exact .rejected _ (by simp) (.inr (.inl ⟨v, rfl⟩))
  · rename_i hb
    cases h
    exact .tsel v (idle_of_not_busy (eq_false_of_ne_true hb))

theorem execWrTdata_effect {v : Word} {s t : State} (h : execWrTdata v s = .next t) : Effect s (.wrTdata v) t := by
  unfold execWrTdata at h
  split at h
  · cases h; exact .rejected _ (by simp) (.inr (.inr ⟨v, rfl⟩))
  · rename_i hb
    split at h <;> cases h
    · exact .rejected _ (by simp) (.inr (.inr ⟨v, rfl⟩))
    · exact .tdata v (idle_of_not_busy (eq_false_of_ne_true hb)) ‹_›

theorem execRdTdata_effect {s t : State} (h : execRdTdata s = .next t) : Effect s .rdTdata t := by
  unfold execRdTdata at h
  split at h
  · cases h; exact .answered 0 s.draws
  · split at h
    · cases h; exact .answered 0 s.draws
    · split at h <;> cases h <;> exact .answered _ _

/-- A read returns its word. -/
theorem Effect.of_answer {i : Instr} {s t : State} {w : Word}
    (h : (.next (s.returns w) : Host.Outcome State Fault Refusal) = .next t) : Effect s i t := by
  cases h; exact .answered w s.draws

/-- An ignored write leaves the state, the last read's word included. -/
theorem Effect.of_ignored {i : Instr} {s t : State} (h : (.next s : Host.Outcome State Fault Refusal) = .next t) :
    Effect s i t := by
  cases h; exact .answered s.rdata s.draws

/-- Every next state an instruction answers is one of its effects. -/
theorem exec_effect {i : Instr} {s t : State} (h : exec i s = .next t) : Effect s i t := by
  cases i with
  | nop => cases h; exact .nop
  | fstart => cases h; exact .fstart
  | laddr l => cases h; exact .laddr l
  | dsr l => exact .ran rfl h
  | ddr140 l => exact .ran rfl h
  | ddr560 l => exact .ran rfl h
  | ddr160 l => exact .ran rfl h
  | ddrMix l => exact .ran rfl h
  | ffull => exact .ran rfl h
  | fmixed => exact .ran rfl h
  | wrCmd v => exact execWrCmd_effect h
  | wrStatus v => cases (execWrStatus_eq v s).symm.trans h; exact .status v
  | wrCfg v => cases h; exact .cfg v
  | wrTsel v => exact execWrTsel_effect h
  | wrTdata v => exact execWrTdata_effect h
  | rdTdata => exact execRdTdata_effect h
  | rdCmd => exact .of_answer h
  | rdStatus => exact .of_answer h
  | rdCfg => exact .of_answer h
  | rdFcfg => exact .of_answer h
  | rdResult => exact .of_answer h
  | rdTsel => exact .of_answer h
  | rdUnmapped off => exact .of_answer h
  | wrFcfg v => exact .of_ignored h
  | wrResult v => exact .of_ignored h
  | wrUnmapped off v => exact .of_ignored h

/-- Only a line or frame command faults. -/
theorem exec_fault {i : Instr} {s : State} {f : Fault} (h : exec i s = .fault f) :
    ∃ job n, Job.ofInstr i = some job ∧ runSeq job n s = .fault f := by
  cases i with
  | dsr l => exact ⟨_, _, rfl, h⟩
  | ddr140 l => exact ⟨_, _, rfl, h⟩
  | ddr560 l => exact ⟨_, _, rfl, h⟩
  | ddr160 l => exact ⟨_, _, rfl, h⟩
  | ddrMix l => exact ⟨_, _, rfl, h⟩
  | ffull => exact ⟨_, _, rfl, h⟩
  | fmixed => exact ⟨_, _, rfl, h⟩
  | wrCmd v =>
    simp only [exec, execWrCmd] at h
    split at h
    · cases h
    · split at h <;> cases h
  | wrTsel v =>
    simp only [exec, execWrTsel] at h
    split at h <;> cases h
  | wrTdata v =>
    simp only [exec, execWrTdata] at h
    split at h
    · cases h
    · split at h <;> cases h
  | rdTdata =>
    simp only [exec, execRdTdata] at h
    split at h
    · cases h
    · split at h
      · cases h
      · split at h <;> cases h
  | _ => cases h

end Sys2Proof.Proofs
end

section
/-! O12 to O15: the table RAMs as TSEL and TDATA reach them (10_state.md R31, R40). -/

namespace Sys2Proof.Proofs

open Sys2Proof.Machine Sys2Proof.Laws

/-- The ids of the six tables (10_state.md R40). -/
theorem ofCode_eq_some_iff (c : BitVec 3) (t : TableId) : TableId.ofCode c = some t ↔
    (c.toNat, t) ∈ [(0, TableId.dot), (1, TableId.art), (2, TableId.pal16), (3, TableId.mono4), (4, TableId.monobw),
      (5, TableId.lores16)] := by
  cases t <;> revert c <;> decide

theorem selected_eq_some_iff (s : State) (t : TableId) (k : Nat) : s.selected = some (t, k) ↔
    k = s.tselIndex.toNat ∧ TableId.ofCode s.tselTable = some t ∧ k < t.size := by
  unfold State.selected
  cases hc : TableId.ofCode s.tselTable with
  | none => simp
  | some t' =>
    by_cases hlt : s.tselIndex.toNat < t'.size <;> simp only [hlt, if_true, if_false, Option.some.injEq, Prod.mk.injEq]
    · exact ⟨fun ⟨ht, hk⟩ => ⟨hk.symm, ht, by rwa [← ht, ← hk]⟩, fun ⟨hk, ht, _⟩ => ⟨ht, hk.symm⟩⟩
    · exact ⟨nofun, fun ⟨hk, ht, hl⟩ => absurd (by rwa [ht, ← hk]) hlt⟩

theorem selected_lt {s : State} {t : TableId} {k : Nat} (h : s.selected = some (t, k)) : k < t.size :=
  ((selected_eq_some_iff s t k).mp h).2.2

/-- An entry has at most 32 bits. -/
theorem width_le (t : TableId) : t.width ≤ 32 := by cases t <;> decide

theorem busy_eq_false {s : State} (hs : s.seqState = .idle) : s.busy = false := by simp [State.busy, hs]

/-- WR TDATA while BUSY (60_exceptions.md R240). -/
theorem exec_wrTdata_busy (v : Word) {s : State} (hs : s.seqState = .busy) :
    exec (.wrTdata v) s = .next (s.raise .busy) :=
  if_pos ((busy_iff s).mpr hs)

/-- WR TDATA while IDLE, out of range. -/
theorem exec_wrTdata_none (v : Word) {s : State} (hs : s.seqState = .idle) (h : s.selected = none) :
    exec (.wrTdata v) s = .next (s.raise .tableRange) := by
  simp only [exec, execWrTdata, busy_eq_false hs, h, Bool.false_eq_true, if_false]

/-- WR TDATA while IDLE, in range. -/
theorem exec_wrTdata_some (v : Word) {s : State} {t : TableId} {k : Nat} (hs : s.seqState = .idle)
    (h : s.selected = some (t, k)) : exec (.wrTdata v) s = .next { s with tables := s.tables.set t k v } := by
  simp only [exec, execWrTdata, busy_eq_false hs, h, Bool.false_eq_true, if_false]

/-- RD TDATA while BUSY or out of range. -/
theorem exec_rdTdata_zero {s : State} (h : s.seqState = .busy ∨ s.selected = none) :
    exec .rdTdata s = .next (s.returns 0) := by
  simp only [exec, execRdTdata, busy_iff]
  split
  · rfl
  · rw [h.resolve_left ‹_›]

/-- RD TDATA of a written entry. -/
theorem exec_rdTdata_written {s : State} {t : TableId} {k : Nat} {w : Word} (hs : s.seqState = .idle)
    (h : s.selected = some (t, k)) (hw : s.tables.get t k = some w) : exec .rdTdata s = .next (s.returns w) := by
  simp only [exec, execRdTdata, busy_eq_false hs, h, hw, Bool.false_eq_true, if_false]

/-- RD TDATA of a never-written entry: a free value cut to the entry's width (assumption 9). -/
theorem exec_rdTdata_unwritten {s : State} {t : TableId} {k : Nat} (hs : s.seqState = .idle)
    (h : s.selected = some (t, k)) (hw : s.tables.get t k = none) : exec .rdTdata s
      = .next { s with
          rdata := ((Config.unwrittenRead s.draws).setWidth t.width).setWidth 32
          draws := s.draws + 1 } := by
  simp only [exec, execRdTdata, busy_eq_false hs, h, hw, Bool.false_eq_true, if_false]
  rfl

/-- The entry just written. -/
theorem tables_get_set_same (tb : Tables) (t : TableId) (k : Nat) (v : Word) :
    (tb.set t k v).get t k = some (BitVec.ofNat 32 (v.toNat % 2 ^ t.width)) := by
  rw [tables_get_set, if_pos rfl]

/-- Settles O12, by the codes of TSEL.TABLE and the bound on TSEL.INDEX. -/
theorem selectedEntryIsInRange : Obligations.SelectedEntryIsInRange := by
  unfold Obligations.SelectedEntryIsInRange
  refine ⟨fun s t k => ?_, fun t k v s hs h => ⟨_, exec_wrTdata_some v hs h, ?_⟩⟩
  · rw [selected_eq_some_iff, ofCode_eq_some_iff]
    cases t <;> exact Iff.rfl
  · rw [tables_get_set_same]
    cases t <;> rfl

/-- Settles O13, by the law of reading a table after a write. -/
theorem wrTdataWritesTheSelectedEntry : Obligations.WrTdataWritesTheSelectedEntry := by
  unfold Obligations.WrTdataWritesTheSelectedEntry
  intro v s
  refine ⟨exec_wrTdata_busy v, exec_wrTdata_none v, fun t k hs h => ⟨_, exec_wrTdata_some v hs h, ?_, ?_⟩⟩
  · exact tables_get_set_same _ t k v
  · intro t' k' hne
    rw [tables_get_set, if_neg hne]

/-- Settles O14, by the cases of RD TDATA. -/
theorem rdTdataReturnsTheSelectedEntry : Obligations.RdTdataReturnsTheSelectedEntry := by
  unfold Obligations.RdTdataReturnsTheSelectedEntry
  refine fun s => ⟨exec_rdTdata_zero, fun t k hs h => ⟨fun w hw => exec_rdTdata_written hs h hw, fun hw =>
    ⟨_, ?_, exec_rdTdata_unwritten hs h hw⟩⟩⟩
  rw [BitVec.toNat_setWidth]
  exact Nat.lt_of_le_of_lt (Nat.mod_le _ _) (BitVec.isLt _)

/-- Settles O15: the write makes the entry written, and TSEL and SEQ stay. -/
theorem tdataReadAfterWrite : Obligations.TdataReadAfterWrite := by
  unfold Obligations.TdataReadAfterWrite
  intro v t k s hs h
  refine ⟨_, _, exec_wrTdata_some v hs h, exec_rdTdata_written hs h (tables_get_set_same s.tables t k v), ?_, rfl⟩
  have hlt : v.toNat % 2 ^ t.width < 2 ^ 32 :=
    Nat.lt_of_lt_of_le (Nat.mod_lt _ (Nat.two_pow_pos _)) (Nat.pow_le_pow_right (by decide) (width_le t))
  rw [returns_rdata, BitVec.toNat_ofNat, Nat.mod_eq_of_lt hlt]

end Sys2Proof.Proofs
end

section
/-! O59: every step keeps the invariant. -/

namespace Sys2Proof.Proofs

open Sys2Proof.Machine Sys2Proof.Laws

/-! ### A command's run -/

/-- The point at which a command of a job may stand. -/
def FitsAt (job : Job) (p : Point) : Prop :=
  match job with
  | .line _ _ => p.ofFrame = false
  | .frame _ text => text = true ∨ p ≠ .textAck

/-- A point of a line is one of every job. -/
theorem fitsAt_of_line (job : Job) {p : Point} (h : p.ofFrame = false) : FitsAt job p := by
  cases job with
  | line l m => exact h
  | frame n x => exact .inr fun hp => by simp [hp, Point.ofFrame] at h

/-- A buffer is held at points of a line alone. -/
theorem ofFrame_of_holds {p : Point} (h : p.holds = true) : p.ofFrame = false := by
  cases p with
  | pad => rfl
  | content => rfl
  | finalize => rfl
  | submit => rfl
  | _ => cases h

/-- The part of the invariant that speaks of SEQ's registers, while it runs a job. -/
structure Running (job : Job) (s : State) : Prop where
  mode : s.mode = deriveMode s.fcfg
  busyNotDone : s.seqState = .busy → s.done = false
  fits : FitsAt job s.point
  held : s.held.isSome = true ↔ s.seqState = .busy ∧ s.point.holds = true
  widx : ∀ b ∈ s.held, b.data.length = s.widx
  final : ∀ b ∈ s.held, s.point = .submit → b.length = s.widx ∧ b.repeatCount ≤ 1
  lctr : s.lctr < nlines
  col : s.seqState = .busy → s.point = .content → s.col < ncols
  trow : s.seqState = .busy → s.point = .textAck → firstTextRow ≤ s.trow ∧ s.trow ≤ lastTextRow
  out : ∀ r ∈ s.out, r.wf

/-- A frame has at most 192 lines. -/
def Bounded (job : Job) : Prop :=
  match job with
  | .line _ _ => True
  | .frame lines _ => lines ≤ nlines

theorem bounded_of_instr {i : Instr} {job : Job} (h : Job.ofInstr i = some job) : Bounded job := by
  cases i with
  | dsr l => cases h; trivial
  | ddr140 l => cases h; trivial
  | ddr560 l => cases h; trivial
  | ddr160 l => cases h; trivial
  | ddrMix l => cases h; trivial
  | ffull => cases h; exact Nat.le_refl nlines
  | fmixed => cases h; exact (by decide : mixedGfxLines ≤ nlines)
  | _ => cases h

/-- At a point where none is held, there is no buffer. -/
theorem Running.held_none {job : Job} {s : State} (h : Running job s) (hp : s.point.holds = false) : s.held = none := by
  cases hh : s.held with
  | none => rfl
  | some b => exact absurd (h.held.mp (by simp [hh])).2 (by simp [hp])

theorem Running.held_some {job : Job} {s : State} (h : Running job s) (hb : s.seqState = .busy)
    (hp : s.point.holds = true) : ∃ b, s.held = some b ∧ b.data.length = s.widx := by
  obtain ⟨b, hh⟩ := Option.isSome_iff_exists.mp (h.held.mpr ⟨hb, hp⟩)
  exact ⟨b, hh, h.widx b hh⟩

/-- The invariant's part at a point where no buffer is held. -/
theorem Running.of_none {job : Job} {s : State} (hm : s.mode = deriveMode s.fcfg)
    (hd : s.seqState = .busy → s.done = false) (hh : s.held = none) (hp : s.point.holds = false)
    (hf : FitsAt job s.point) (hl : s.lctr < nlines)
    (ht : s.point = .textAck → firstTextRow ≤ s.trow ∧ s.trow ≤ lastTextRow) (ho : ∀ r ∈ s.out, r.wf) :
    Running job s where
  mode := hm
  busyNotDone := hd
  fits := hf
  held := by simp [hh, hp]
  widx := by simp [hh]
  final := by simp [hh]
  lctr := hl
  col := fun _ hc => by simp [hc, Point.holds] at hp
  trow := fun _ => ht
  out := ho

/-- The invariant's part at a point where the buffer `b` is held. -/
theorem Running.of_some {job : Job} {s : State} {b : Buffer} (hm : s.mode = deriveMode s.fcfg)
    (hb : s.seqState = .busy) (hd : s.done = false) (hh : s.held = some b) (hp : s.point.holds = true)
    (hw : b.data.length = s.widx) (hfin : s.point = .submit → b.length = s.widx ∧ b.repeatCount ≤ 1)
    (hl : s.lctr < nlines) (hc : s.point = .content → s.col < ncols) (ho : ∀ r ∈ s.out, r.wf) : Running job s where
  mode := hm
  busyNotDone := fun _ => hd
  fits := fitsAt_of_line job (ofFrame_of_holds hp)
  held := by simp [hh, hb, hp]
  widx := by simpa [hh] using hw
  final := by simpa [hh] using hfin
  lctr := hl
  col := fun _ => hc
  trow := fun _ ht => by simp [ht, Point.holds] at hp
  out := ho

theorem wf_append {l : List Request} {r : Request} (h : ∀ x ∈ l, x.wf) (hr : r.wf) : ∀ x ∈ l ++ [r], x.wf := by
  intro x hx
  obtain hx | hx := List.mem_append.mp hx
  · exact h x hx
  · simpa [List.mem_singleton.mp hx] using hr

theorem nlines_pos : 0 < nlines := by decide

theorem firstTextRow_wf : firstTextRow ≤ firstTextRow ∧ firstTextRow ≤ lastTextRow := by decide

theorem repeatOf_le (c : BitVec 7) : repeatOf c ≤ 1 := by
  unfold repeatOf
  split <;> omega

theorem Running.begun {job : Job} {s : State} (h : Running job s) (hp : s.point = .start) :
    Running job (seqBegin job s) := by
  have hh := h.held_none (by simp [hp, Point.holds])
  cases job with
  | line l m => exact .of_none h.mode h.busyNotDone hh rfl rfl h.lctr nofun (wf_append h.out trivial)
  | frame n x =>
    exact .of_none rfl h.busyNotDone hh rfl (.inr nofun) h.lctr nofun (wf_append h.out trivial)

/-- The request for the next line, the first text row or the completion. -/
theorem Running.lineDone {job : Job} {s : State} (h : Running job s) (hj : Bounded job)
    (hp : s.point = .submitAck) : Running job (seqLineDone job s) := by
  have hh := h.held_none (by simp [hp, Point.holds])
  cases job with
  | line l m => exact .of_none h.mode h.busyNotDone hh rfl rfl h.lctr nofun h.out
  | frame n x =>
    simp only [seqLineDone]
    split
    · rename_i hn
      exact .of_none h.mode h.busyNotDone hh rfl (.inr nofun) (Nat.lt_of_lt_of_le hn hj) nofun (wf_append h.out trivial)
    · split
      · exact .of_none h.mode h.busyNotDone hh rfl (.inl ‹_›) h.lctr (fun _ => firstTextRow_wf)
          (wf_append h.out firstTextRow_wf)
      · exact .of_none h.mode h.busyNotDone hh rfl (.inr nofun) h.lctr nofun h.out

theorem Running.textDone {job : Job} {s : State} (h : Running job s) (hb : s.seqState = .busy)
    (hp : s.point = .textAck) : Running job (seqTextDone s) := by
  have hh := h.held_none (by simp [hp, Point.holds])
  have hf := hp ▸ h.fits
  obtain ⟨h1, h2⟩ := h.trow hb hp
  unfold seqTextDone
  split
  · rename_i hr
    exact .of_none h.mode h.busyNotDone hh rfl hf h.lctr (fun _ => ⟨Nat.le_succ_of_le h1, hr⟩)
      (wf_append h.out ⟨Nat.le_succ_of_le h1, hr⟩)
  · exact .of_none h.mode h.busyNotDone hh rfl (fitsAt_of_line job rfl) h.lctr nofun h.out

/-- The finalisation appends the tail words and makes the counts final. -/
theorem Running.finalize {job : Job} {s : State} (h : Running job s) (hb : s.seqState = .busy)
    (hp : s.point = .finalize) : Running job s.finalizeLine := by
  obtain ⟨b, hh, hw⟩ := h.held_some hb (by simp [hp, Point.holds])
  exact .of_some (b := ⟨b.data ++ tailWords s.fcfg, s.widx + (tailWords s.fcfg).length, repeatOf s.fcfg⟩) h.mode hb
    (h.busyNotDone hb) (by simp [hh]) rfl (by simp [hw]) (fun _ => ⟨rfl, repeatOf_le _⟩) h.lctr nofun h.out

/-- A buffer whose counts are final goes out. -/
theorem Running.submitted {job : Job} {s : State} {b : Buffer} (h : Running job s) (hh : s.held = some b)
    (hp : s.point = .submit) : Running job s.submitLine := by
  obtain ⟨hlen, hrep⟩ := h.final b hh hp
  have hwf := wf_append h.out (r := .submitScanline b) ⟨hlen.trans (h.widx b hh).symm, hrep⟩
  exact .of_none h.mode h.busyNotDone rfl rfl (fitsAt_of_line job rfl) h.lctr nofun (by simpa [hh] using hwf)

/-- A line's submission, decoded once more or not. -/
theorem Running.submit {job : Job} {l : BitVec 8} {m : Mode} {s t : State} (h : Running job s) (hb : s.seqState = .busy)
    (hp : s.point = .submit) (hst : seqSubmit l m s = .next t) : Running job t := by
  obtain ⟨b, hh, -⟩ := h.held_some hb (by simp [hp, Point.holds])
  obtain ⟨-, rfl⟩ | ⟨ws, d, n, rfl⟩ := seqSubmit_cases hst
  · exact h.submitted hh hp
  · have hre : Running job
        { s.rewind.emits (padOf m ++ ws) with dp := d, col := ncols, draws := n, point := .finalize } :=
      .of_some (b := ⟨padOf m ++ ws, b.length, b.repeatCount⟩) h.mode hb (h.busyNotDone hb)
        (by simp [hh, Buffer.append]) rfl (by simp) nofun h.lctr nofun h.out
    have hfin := hre.finalize hb rfl
    obtain ⟨b', hh', -⟩ := hfin.held_some hb rfl
    exact hfin.submitted hh' rfl

/-- Words emitted into the held buffer, on the way to the next column or the finalisation. -/
theorem Running.emitted {job : Job} {s : State} {ws : List Word} {d : Datapath} (h : Running job s)
    (hb : s.seqState = .busy) (hp : s.point.holds = true) {c n : Nat} {p : Point}
    (hq : p = .content ∧ c < ncols ∨ p = .finalize) :
    Running job { s.emits ws with dp := d, col := c, draws := n, point := p } := by
  obtain ⟨b, hh, hw⟩ := h.held_some hb hp
  have hd := h.busyNotDone hb
  have hw' : (b.append ws).data.length = s.widx + ws.length := by simp [Buffer.append, hw]
  obtain ⟨rfl, hc⟩ | rfl := hq
  · exact .of_some (b := b.append ws) h.mode hb hd (by simp [hh]) rfl hw' nofun h.lctr (fun _ => hc) h.out
  · exact .of_some (b := b.append ws) h.mode hb hd (by simp [hh]) rfl hw' nofun h.lctr nofun h.out

/-- A SEQ step keeps the invariant's part. -/
theorem Running.step {job : Job} {s t : State} (h : Running job s) (hj : Bounded job) (hb : s.seqState = .busy)
    (hst : seqStep job s = .next t) : Running job t := by
  unfold seqStep at hst
  have hd := h.busyNotDone hb
  cases hp : s.point <;> simp only [hp] at hst
  case start => cases hst; exact h.begun hp
  case frameAck =>
    cases hst
    have hf := hp ▸ h.fits
    refine .of_none h.mode h.busyNotDone (h.held_none (by simp [hp, Point.holds])) rfl ?_ h.lctr nofun
      (wf_append h.out trivial)
    cases job with
    | line l m => cases hf
    | frame n x => exact .inr nofun
  case skipAck =>
    cases hst
    exact .of_none h.mode h.busyNotDone (h.held_none (by simp [hp, Point.holds])) rfl (fitsAt_of_line job rfl)
      nlines_pos nofun (wf_append h.out trivial)
  case lineAck =>
    obtain ⟨-, rfl⟩ := seqTakeBuffer_cases hst
    exact .of_some h.mode hb hd rfl rfl rfl nofun h.lctr nofun h.out
  case pad =>
    obtain ⟨d, -, rfl⟩ := seqPad_cases hst
    exact h.emitted hb (by simp [hp, Point.holds]) (.inl ⟨rfl, by decide⟩)
  case content =>
    obtain ⟨ws, d, -, rfl⟩ := seqColumn_cases hst
    refine h.emitted hb (by simp [hp, Point.holds]) ?_
    split
    · exact .inl ⟨rfl, ‹_›⟩
    · exact .inr rfl
  case finalize => cases hst; exact h.finalize hb hp
  case submit => exact h.submit hb hp hst
  case submitAck => cases hst; exact h.lineDone hj hp
  case textAck => cases hst; exact h.textDone hb hp
  case complete =>
    cases hst
    exact .of_none h.mode nofun (h.held_none (by simp [hp, Point.holds])) (by simp [hp, Point.holds]) h.fits h.lctr
      (by simp [hp]) h.out

/-! ### From the invariant to a run, and back -/

/-- A command in CMD stands at a point of its job. -/
theorem commandFits_iff {i : Instr} {job : Job} {s : State} (hi : decodeCommand s.cmd = .ok i)
    (hj : Job.ofInstr i = some job) : s.commandFits ↔ FitsAt job s.point := by
  constructor
  · rintro ⟨j, hd, hf⟩
    cases hi.symm.trans hd
    cases job <;> simpa only [hj, FitsAt] using hf
  · intro hf
    refine ⟨i, hi, ?_⟩
    cases job <;> simpa only [hj, FitsAt] using hf

theorem running_of_inv {i : Instr} {job : Job} {s : State} (h : s.Inv) (hb : s.seqState = .busy)
    (hi : decodeCommand s.cmd = .ok i) (hj : Job.ofInstr i = some job) : Running job s where
  mode := h.mode
  busyNotDone := h.busyNotDone
  fits := (commandFits_iff hi hj).mp (h.busyCommand hb)
  held := h.held
  widx := h.widx
  final := h.final
  lctr := h.lctr
  col := h.col
  trow := h.trow
  out := h.out

/-- What a run changes is in `Running`, and the rest of the invariant stays. -/
theorem inv_of_running {i : Instr} {job : Job} {s t : State} (h : s.Inv) (hi : decodeCommand s.cmd = .ok i)
    (hj : Job.ofInstr i = some job) (hf : SeqFrame s t) (hr : Running job t) : t.Inv where
  mem := hf.mem ▸ h.mem
  tables := hf.tables ▸ h.tables
  mode := hr.mode
  errcode := by rw [hf.errcode, hf.err]; exact h.errcode
  result := hf.result ▸ h.result
  busyNotDone := hr.busyNotDone
  busyCommand := fun _ => (commandFits_iff (hf.cmd ▸ hi) hj).mpr hr.fits
  held := hr.held
  widx := hr.widx
  final := hr.final
  raced := by
    simp only [State.staleAt, hf.raced, hf.stale]
    exact h.raced
  lctr := hr.lctr
  col := hr.col
  trow := hr.trow
  out := hr.out

theorem Running.tick {job : Job} {s : State} (h : Running job s) : Running job s.tick := by
  constructor <;> simp only [tick_mode, tick_fcfg, tick_seqState, tick_done, tick_point, tick_held, tick_widx, tick_lctr,
    tick_col, tick_trow, tick_out]
  exacts [h.mode, h.busyNotDone, h.fits, h.held, h.widx, h.final, h.lctr, h.col, h.trow, h.out]

/-- A run keeps the invariant. -/
theorem runSeq_keeps_inv {i : Instr} {job : Job} {n : Nat} {s t : State} (h : s.Inv) (hb : s.seqState = .busy)
    (hi : decodeCommand s.cmd = .ok i) (hj : Job.ofInstr i = some job) (hr : runSeq job n s = .next t) : t.Inv :=
  inv_of_running h hi hj (runSeq_frame hr) <|
    runSeq_keeps (P := Running job)
      (fun h hr hst => h.step (bounded_of_instr hj) ((runnable_iff _).mp hr).1 hst) (fun h => h.tick)
      (running_of_inv h hb hi hj) hr

/-! ### Commands of one step -/

/-- A command of one step holds no buffer. -/
theorem held_none_of_one_step {i : Instr} {s : State} (h : s.Inv) (hb : s.seqState = .busy)
    (hi : decodeCommand s.cmd = .ok i) (hj : Job.ofInstr i = none) : s.held = none := by
  obtain ⟨j, hd, hf⟩ := h.busyCommand hb
  cases hi.symm.trans hd
  simp only [hj] at hf
  cases hh : s.held with
  | none => rfl
  | some b => exact absurd (h.held.mp (by simp [hh])).2 (by simp [hf, Point.holds])

/-- A completion keeps the invariant where no buffer is held. -/
theorem finish_keeps_inv {s : State} (h : s.Inv) (hh : s.held = none) : s.finish.Inv :=
  { h with
    busyNotDone := nofun
    busyCommand := nofun
    held := by simp [hh]
    col := nofun
    trow := nofun }

/-! ### Host accesses -/

/-- A rejection keeps the invariant. -/
theorem raise_keeps_inv {s : State} {e : ErrCode} (h : s.Inv) (he : e ≠ .none) : (s.raise e).Inv :=
  { h with
    errcode := by
      have := h.errcode
      cases hs : s.err <;> simp_all }

/-- While IDLE no buffer is held. -/
theorem held_none_of_idle {s : State} (h : s.Inv) (hs : s.seqState = .idle) : s.held = none := by
  cases hh : s.held with
  | none => rfl
  | some b => exact absurd (h.held.mp (by simp [hh])).1 (by simp [hs])

/-- An accepted command stands at its start. -/
theorem accept_keeps_inv {s : State} {v : Word} {i : Instr} (h : s.Inv) (hs : s.seqState = .idle)
    (hd : decodeCommand v = .ok i) : (s.accept v).Inv :=
  { h with
    busyNotDone := fun _ => rfl
    busyCommand := fun _ => by
      refine ⟨i, hd, ?_⟩
      cases hj : Job.ofInstr i with
      | none => rfl
      | some job =>
        cases job with
        | line l m => rfl
        | frame n x => exact .inr nofun
    held := by simp [held_none_of_idle h hs, Point.holds]
    final := fun _ _ => nofun
    raced := nofun
    col := fun _ => nofun
    trow := fun _ => nofun }

/-- WR STATUS clears DONE, and ERR together with ERRCODE. -/
theorem status_keeps_inv {s : State} (v : Word) (h : s.Inv) :
    State.Inv { s with
      done := s.done && !v.getLsbD 1
      err := s.err && !v.getLsbD 2
      errcode := if v.getLsbD 2 = true then .none else s.errcode } :=
  { h with
    errcode := by
      have := h.errcode
      cases hv : v.getLsbD 2 <;> simp_all
    busyNotDone := fun hb => by simp [h.busyNotDone hb] }

/-- The effects of the bus operations keep the invariant in every state, and those of a command word where it stands in
CMD. -/
theorem effect_keeps_inv {i : Instr} {s t : State} (h : s.Inv) (he : Effect s i t)
    (hc : (encode i).format = .c → s.seqState = .busy ∧ decodeCommand s.cmd = .ok i) : t.Inv := by
  cases he with
  | rejected e he hi => exact raise_keeps_inv h he
  | accepted hs hd => exact accept_keeps_inv h hs hd
  | status v => exact status_keeps_inv v h
  | cfg v => exact { h with }
  | tsel v hs => exact { h with }
  | tdata v hs hsel => exact { h with tables := tables_set_wf v h.tables (selected_lt hsel) }
  | answered w n => exact { h with }
  | nop =>
    obtain ⟨hb, hi⟩ := hc rfl
    exact finish_keeps_inv h (held_none_of_one_step h hb hi rfl)
  | fstart =>
    obtain ⟨hb, hi⟩ := hc rfl
    have hh := held_none_of_one_step h hb hi rfl
    exact finish_keeps_inv { h with mode := rfl } hh
  | laddr l =>
    obtain ⟨hb, hi⟩ := hc rfl
    have hh := held_none_of_one_step h hb hi rfl
    exact finish_keeps_inv { h with result := lineOffset_le _ (of_decide_eq_true (decodeCommand_wellFormed hi)) } hh
  | ran hj hr =>
    obtain ⟨hb, hi⟩ := hc (format_of_job hj)
    exact runSeq_keeps_inv h hb hi hj hr

/-! ### Inputs -/

/-- The values recorded for a byte after a GMW write. -/
theorem staleAt_gmwWrite (s : State) (pl : Plane) (pg : Page) (off : BitVec 13) (v : Byte) (a : Nat) :
    (s.gmwWrite pl pg off v).staleAt a
      = if s.seqState = .busy ∧ a = pageAddr pl pg off then s.mem.read a :: s.staleAt a else s.staleAt a := by
  by_cases hb : s.seqState = .busy <;> by_cases ha : a = pageAddr pl pg off <;>
    simp [State.staleAt, hb, ha, Ne.symm]

theorem staleAt_gmwWrite_ne_nil {s : State} {a : Nat} (pl : Plane) (pg : Page) (off : BitVec 13) (v : Byte)
    (h : s.staleAt a ≠ []) : (s.gmwWrite pl pg off v).staleAt a ≠ [] := by
  rw [staleAt_gmwWrite]
  split
  · exact List.cons_ne_nil _ _
  · exact h

/-- A GMW write keeps the canonical form, and records the value it replaces where it marks a byte. -/
theorem gmwWrite_keeps_inv {s : State} (pl : Plane) (pg : Page) (off : BitVec 13) (v : Byte) (h : s.Inv) :
    (s.gmwWrite pl pg off v).Inv :=
  { h with
    mem := memory_write_wf v h.mem (pageAddr_lt pl pg off)
    raced := by
      intro a ha
      by_cases hd : s.decoding = true
      · have hb : s.seqState = .busy := by simpa [State.decoding] using And.left ((Bool.and_eq_true _ _).mp hd)
        rw [gmwWrite_raced, if_pos hd, List.mem_cons] at ha
        obtain rfl | ha := ha
        · simp [staleAt_gmwWrite, hb]
        · exact staleAt_gmwWrite_ne_nil _ _ _ _ (h.raced a ha)
      · rw [gmwWrite_raced, if_neg hd] at ha
        exact staleAt_gmwWrite_ne_nil _ _ _ _ (h.raced a ha) }

/-- The reset input leads to the reset state's registers, and keeps the page views. -/
theorem afterReset_keeps_inv {s : State} (h : s.Inv) : s.afterReset.Inv where
  mem := h.mem
  tables := rfl
  mode := (by decide : Mode.base = deriveMode 0)
  errcode := ⟨fun _ => rfl, fun _ => rfl⟩
  result := Nat.zero_le _
  busyNotDone := nofun
  busyCommand := nofun
  held := by simp [State.afterReset, State.reset]
  widx := nofun
  final := nofun
  raced := nofun
  lctr := nlines_pos
  col := nofun
  trow := nofun
  out := nofun

theorem deliver_keeps_inv {x : Input} {s t : State} (h : s.Inv) (hd : deliver x s = .next t) : t.Inv := by
  cases x with
  | host a =>
    simp only [deliver] at hd
    split at hd
    · rename_i i hi
      exact effect_keeps_inv h (exec_effect hd) fun hc => by rw [decodeAccess_format hi] at hc; cases hc
    · cases hd
  | gmw pl pg off v => cases hd; exact gmwWrite_keeps_inv pl pg off v h
  | drv r => cases hd; exact { h with }
  | txt r => cases hd; exact { h with }
  | reset => cases hd; exact afterReset_keeps_inv h

theorem seqTurn_keeps_inv {s t : State} (h : s.Inv) (ht : seqTurn s = .next t) : t.Inv := by
  unfold seqTurn at ht
  split at ht
  · cases ht; exact h
  · rename_i hb
    split at ht
    · rename_i i hi
      exact effect_keeps_inv h (exec_effect ht) fun _ => ⟨hb, hi⟩
    · cases ht

/-- Taking an input off the list is no part of the invariant. -/
theorem nextInput_inv {x : Input} {s t : State} (h : s.Inv) (hn : s.nextInput = some (x, t)) : t.Inv := by
  unfold State.nextInput at hn
  split at hn
  · cases hn
  · split at hn <;> cases hn
    exact { h with }

/-- Settles O59: an input delivered keeps the invariant, and so does SEQ's turn. -/
theorem stepKeepsTheInvariant : Obligations.StepKeepsTheInvariant := by
  unfold Obligations.StepKeepsTheInvariant
  intro s t h hst
  unfold step at hst
  split at hst
  · rename_i x u hn
    exact deliver_keeps_inv (nextInput_inv h hn) hst
  · exact seqTurn_keeps_inv h hst

end Sys2Proof.Proofs
end

section
/-! O22, O34, O35 and O57: which registers, tables and bytes change, and by what. -/

namespace Sys2Proof.Proofs

open Sys2Proof.Machine Sys2Proof.Laws

/-! ### The mode derivation -/

/-- The codes of the double-resolution modes (10_state.md R27, 30_encoding.md R93). -/
theorem code_dr_ofCode : ∀ d : BitVec 2, (Mode.dr (Sub.ofCode d)).code = 0b100 ||| d.setWidth 3 := by decide

/-- Settles O22, by the three branches of the derivation. -/
theorem modeDerivation : Obligations.ModeDerivation := by
  unfold Obligations.ModeDerivation
  intro c
  unfold deriveMode
  cases h1 : col80Of c <;> cases h2 : dhiresOf c <;> simp only [col80Of, dhiresOf] at h1 h2 <;> rw [h1, h2]
  case true.true =>
    cases h3 : monoOf c <;> simp only [monoOf] at h3 <;> rw [h3]
    · exact code_dr_ofCode _
    · rfl
  all_goals rfl

/-! ### Graphics memory -/

/-- No effect writes graphics memory or a parameter. -/
theorem Effect.mem_params {i : Instr} {s t : State} (h : Effect s i t) : t.mem = s.mem ∧ t.params = s.params := by
  cases h with
  | ran hj hr => exact ⟨(runSeq_frame hr).mem, (runSeq_frame hr).params⟩
  | _ => exact ⟨rfl, rfl⟩

/-- Settles O34: no effect of an instruction is a write of graphics memory. -/
theorem noInstructionWritesGraphicsMemory : Obligations.NoInstructionWritesGraphicsMemory := by
  unfold Obligations.NoInstructionWritesGraphicsMemory
  intro i s t h
  obtain ⟨hm, hp⟩ := (exec_effect h).mem_params
  exact ⟨fun a => by rw [hm], hp⟩

/-- An input that is due is delivered, but for a read that waits for a snapshot. -/
theorem step_due {x : Input} {r : List TimedInput} {s : State} (hi : s.inputs = { after := 0, input := x } :: r)
    (hx : x.readsSnapshot = false) : step s = deliver x { s with inputs := r } := by
  have hn : s.nextInput = some (x, { s with inputs := r }) := by
    simp [State.nextInput, hi, State.inputDue, hx]
  rw [step, hn]

/-- Settles O57, by the law of reading memory after a write; no two bytes share an address. -/
theorem gmwWritesOneByte : Obligations.GmwWritesOneByte := by
  unfold Obligations.GmwWritesOneByte
  intro pl pl' pg pg' off off' v r s hm hi
  refine ⟨_, _, _, step_due hi rfl, memory_write_wf v hm (pageAddr_lt pl pg off), ?_⟩
  rw [memory_read_write hm]
  by_cases h : (pl', pg', off') = (pl, pg, off)
  · cases h
    rw [if_pos rfl, if_pos rfl]
  · rw [if_neg h, if_neg]
    intro ha
    obtain ⟨rfl, rfl, rfl⟩ := pageAddr_inj ha
    exact h rfl

/-! ### Registers -/

/-- What a run may change of the snapshot, DONE and BUSY. -/
structure RunChanges (job : Job) (s t : State) : Prop where
  issueCfg : t.issueCfg = s.issueCfg
  snapshot : (t.fcfg = s.fcfg ∧ t.mode = s.mode) ∨
    ((∃ n x, job = .frame n x) ∧ t.fcfg = s.issueCfg ∧ t.mode = deriveMode s.issueCfg)
  completion : (t.seqState = s.seqState ∧ t.done = s.done) ∨ (t.seqState = .idle ∧ t.done = true)

theorem RunChanges.refl (job : Job) (s : State) : RunChanges job s s := ⟨rfl, .inl ⟨rfl, rfl⟩, .inl ⟨rfl, rfl⟩⟩

theorem RunChanges.trans {job : Job} {s t u : State} (h : RunChanges job s t) (k : RunChanges job t u) :
    RunChanges job s u where
  issueCfg := k.issueCfg.trans h.issueCfg
  snapshot := by
    obtain ⟨hf, hm⟩ | ⟨hj, hf, hm⟩ := k.snapshot
    · rw [hf, hm]
      exact h.snapshot
    · exact .inr ⟨hj, by rw [hf, h.issueCfg], by rw [hm, h.issueCfg]⟩
  completion := by
    obtain ⟨hs, hd⟩ | hk := k.completion
    · rw [hs, hd]
      exact h.completion
    · exact .inr hk

theorem seqLineDone_completion (job : Job) (s : State) :
    (seqLineDone job s).seqState = s.seqState ∧ (seqLineDone job s).done = s.done := by
  cases job with
  | line l m => exact ⟨rfl, rfl⟩
  | frame n x =>
    simp only [seqLineDone]
    split
    · exact ⟨rfl, rfl⟩
    · split <;> exact ⟨rfl, rfl⟩

/-- A step that is not the completion leaves BUSY and DONE. -/
theorem seqStep_completion {job : Job} {s t : State} (h : seqStep job s = .next t) :
    (t.seqState = s.seqState ∧ t.done = s.done) ∨ (t.seqState = .idle ∧ t.done = true) := by
  unfold seqStep at h
  cases hp : s.point <;> simp only [hp] at h
  case start => cases h; cases job <;> exact .inl ⟨rfl, rfl⟩
  case lineAck => obtain ⟨-, rfl⟩ := seqTakeBuffer_cases h; exact .inl ⟨rfl, rfl⟩
  case pad => obtain ⟨d, -, rfl⟩ := seqPad_cases h; exact .inl ⟨rfl, rfl⟩
  case content => obtain ⟨ws, d, -, rfl⟩ := seqColumn_cases h; exact .inl ⟨rfl, rfl⟩
  case submit => obtain ⟨-, rfl⟩ | ⟨ws, d, n, rfl⟩ := seqSubmit_cases h <;> exact .inl (by simp)
  case submitAck => cases h; exact .inl (seqLineDone_completion job s)
  case textAck => cases h; unfold seqTextDone; split <;> exact .inl ⟨rfl, rfl⟩
  case complete => cases h; exact .inr ⟨rfl, rfl⟩
  all_goals cases h; exact .inl ⟨rfl, rfl⟩

theorem seqStep_changes {job : Job} {s t : State} (h : seqStep job s = .next t) : RunChanges job s t where
  issueCfg := (seqStep_frame h).issueCfg
  snapshot := by
    by_cases hp : s.point = .start
    · rw [seqStep_start hp] at h
      cases h
      cases job with
      | line l m => exact .inl ⟨rfl, rfl⟩
      | frame n x => exact .inr ⟨⟨n, x, rfl⟩, rfl, rfl⟩
    · exact .inl (seqStep_snapshot h (.inl hp))
  completion := seqStep_completion h

theorem runSeq_changes {job : Job} {n : Nat} {s t : State} (h : runSeq job n s = .next t) : RunChanges job s t :=
  runSeq_rel (RunChanges.refl job) RunChanges.trans (fun _ hst => seqStep_changes hst)
    (fun s => ⟨by simp, by simp, by simp⟩) h

/-- Settles O35, by the effects of an instruction: each changes the registers it names, and a run changes FCFG and MODE
by its snapshot, DONE and BUSY by its completion. -/
theorem onlyTheNamedInstructionChangesARegister : Obligations.OnlyTheNamedInstructionChangesARegister := by
  unfold Obligations.OnlyTheNamedInstructionChangesARegister
  intro i s t h
  cases exec_effect h with
  | rejected e he hi =>
    have hcause : (∃ v, i = .wrCmd v) ∨ (∃ v, i = .wrTsel v) ∨ (∃ v, i = .wrTdata v) ∨ ∃ v, i = .wrStatus v :=
      hi.imp_right (Or.imp_right .inl)
    simp [hcause]
  | accepted hs hd => simp [hs, hd]
  | status v => simp +contextual
  | cfg v => simp
  | tsel v hs => simp [hs]
  | tdata v hs hsel => simp [hs]
  | answered w n => simp
  | nop => simp [encode]
  | fstart => simp [encode]
  | laddr l => simp [encode]
  | ran hj hr =>
    obtain ⟨-, hsnap, hend⟩ := runSeq_changes hr
    have hf := runSeq_frame hr
    have hlong : isLongCommand i := by simp [isLongCommand, hj]
    have hw := command_of_format (format_of_job hj)
    refine ⟨absurd hf.cmd, absurd hf.cfg, fun hne => ?snap, absurd hf.issueCfg, absurd hf.result, fun hne => ?selector,
      absurd hf.tables, fun hne => ?failed, fun hne => ?completed, fun hne => ?ended, fun _ => .inl hlong, fun _ => hlong,
      fun _ => hlong, hf.out⟩
    case snap =>
      obtain ⟨hc, hm⟩ | ⟨⟨n, x, rfl⟩, hs⟩ := hsnap
      · simp [hc, hm] at hne
      · exact ⟨.inr (eq_of_job_frame hj), hs⟩
    case selector => simp [hf.tselTable, hf.tselIndex] at hne
    case failed => simp [hf.err, hf.errcode] at hne
    case completed =>
      obtain ⟨-, hd⟩ | ⟨hs, hd⟩ := hend
      · exact absurd hd hne
      · exact .inl ⟨hd, hs, hw⟩
    case ended =>
      obtain ⟨hs, -⟩ | ⟨hs, hd⟩ := hend
      · exact absurd hs hne
      · exact .inr ⟨hs, hd, hw⟩

end Sys2Proof.Proofs
end

section
/-! O41: a command faults at the first unwritten entry its lines read, and from every state only at an unwritten entry of
a table of its mode (10_state.md R41, 70_reset_and_hazards.md R265). -/

namespace Sys2Proof.Proofs

open Sys2Proof.Machine Sys2Proof.Laws

/-- A fault at an entry never written of one of the tables `ts`. -/
def UnwrittenIn (tb : Tables) (ts : List TableId) (f : Fault) : Prop :=
  ∃ t k, f = .unwrittenEntry t k ∧ tb.get t k = none ∧ t ∈ ts

/-! ### The engines, from any registers -/

/-- A computation that reads entries of `ts` in order faults at an unwritten one of them. -/
theorem unwritten_of_follows {α : Type} {tb : Tables} {ts : List TableId} {o : Except Fault α}
    {l : List (TableId × Nat)} {v : α} {f : Fault} (h : Follows tb o l v) (hl : ∀ e ∈ l, e.1 ∈ ts)
    (ho : o = .error f) : UnwrittenIn tb ts f := by
  obtain ⟨-, hv⟩ | ⟨e, he, hv⟩ := h.cases
  · cases ho.symm.trans hv
  · cases ho.symm.trans hv
    exact ⟨e.1, e.2, rfl, by simpa using List.find?_some he, hl e (List.mem_of_find?_eq_some he)⟩

theorem nibblePair_error {tb : Tables} {lo hi : BitVec 4} {f : Fault} (h : nibblePair tb lo hi = .error f) :
    UnwrittenIn tb [.pal16] f :=
  unwritten_of_follows (nibblePair_follows tb lo hi) (by simp) h

theorem step560_error {tb : Tables} {d : Datapath} {f : Fault} (h : step560 tb d = .error f) :
    UnwrittenIn tb [.mono4] f := by
  unfold step560 at h
  split at h <;> cases h
  exact unwritten_of_follows (follows_mono4 tb _) (by simp) ‹_›

theorem stepMixColour_error {tb : Tables} {d : Datapath} {f : Fault} (h : stepMixColour tb d = .error f) :
    UnwrittenIn tb [.pal16, .monobw] f := by
  unfold stepMixColour at h
  split at h <;> cases h
  exact unwritten_of_follows (pal16_follows tb _) (by simp) ‹_›

theorem stepMixMono_error {tb : Tables} {d : Datapath} {f : Fault} (h : stepMixMono tb d = .error f) :
    UnwrittenIn tb [.pal16, .monobw] f := by
  unfold stepMixMono at h
  split at h
  · cases h
    exact unwritten_of_follows (follows_monobw tb _) (by simp) ‹_›
  · split at h <;> cases h
    exact unwritten_of_follows (follows_monobw tb _) (by simp) ‹_›

/-- A double-resolution step reads the tables of its sub-mode. -/
theorem drWord_error {sub : Sub} {tb : Tables} {d : Datapath} {f : Fault} (h : drWord sub tb d = .error f) :
    UnwrittenIn tb (tablesOf (.dr sub)) f := by
  cases sub with
  | s140 => exact nibblePair_error h
  | s560 => exact step560_error h
  | s160 => exact nibblePair_error h
  | mix =>
    simp only [drWord] at h
    split at h
    · exact stepMixColour_error h
    · exact stepMixMono_error h

theorem drDrain_error {sub : Sub} {last : Bool} {tb : Tables} {n : Nat} {d : Datapath} {f : Fault}
    (h : drDrain sub last tb n d = .error f) : UnwrittenIn tb (tablesOf (.dr sub)) f := by
  induction n generalizing d with
  | zero => cases h
  | succ n ih =>
    unfold drDrain at h
    split at h
    · cases h
    · split at h
      · cases h
        exact drWord_error ‹_›
      · split at h <;> cases h
        exact ih ‹_›

theorem column160_error {tb : Tables} {a m : Byte} {f : Fault} (h : column160 tb a m = .error f) :
    UnwrittenIn tb [.pal16] f :=
  unwritten_of_follows (column160_follows tb a m) (by simp [byteReads]) h

theorem drColumn_error {p : Params} {tb : Tables} {sub : Sub} {last : Bool} {a m : Byte} {d : Datapath} {f : Fault}
    (h : drColumn p tb sub last a m d = .error f) : UnwrittenIn tb (tablesOf (.dr sub)) f := by
  cases sub with
  | s160 =>
    simp only [drColumn] at h
    split at h <;> cases h
    exact column160_error ‹_›
  | s140 => exact drDrain_error h
  | s560 => exact drDrain_error h
  | mix => exact drDrain_error h

theorem srDrain_error {tb : Tables} {n : Nat} {acc : BitVec 32} {phase : Bool} {f : Fault}
    (h : srDrain tb.art n acc phase = .error f) : UnwrittenIn tb [.dot, .art] f := by
  induction n generalizing acc phase with
  | zero => cases h
  | succ n ih =>
    unfold srDrain at h
    split at h
    · cases h
      exact unwritten_of_follows (follows_art tb _) (by simp) ‹_›
    · split at h <;> cases h
      exact ih ‹_›

theorem srColumn_error {p : Params} {tb : Tables} {b : Byte} {d : Datapath} {f : Fault}
    (h : srColumn p tb b d = .error f) : UnwrittenIn tb [.dot, .art] f := by
  unfold srColumn at h
  split at h
  · cases h
    exact unwritten_of_follows (follows_dot tb _) (by simp) ‹_›
  · split at h <;> cases h
    exact srDrain_error ‹_›

theorem srStart_error {p : Params} {tb : Tables} {b : Byte} {d : Datapath} {f : Fault}
    (h : srStart p tb b d = .error f) : UnwrittenIn tb [.dot, .art] f := by
  unfold srStart at h
  split at h <;> cases h
  exact unwritten_of_follows (follows_dot tb _) (by simp) ‹_›

/-! ### SEQ's steps -/

theorem column_error {s : State} {l : BitVec 8} {m : Mode} {f : Fault} (h : s.column l m = .error f) :
    UnwrittenIn s.tables (tablesOf m) f := by
  cases m with
  | base => exact srColumn_error h
  | dr sub => exact drColumn_error h

theorem seqPad_fault {s : State} {l : BitVec 8} {m : Mode} {f : Fault} (h : seqPad l m s = .fault f) :
    UnwrittenIn s.tables (tablesOf m) f := by
  unfold seqPad at h
  split at h <;> cases h
  cases m with
  | base => exact srStart_error ‹_›
  | dr sub => cases ‹State.engineStart _ _ _ = _›

theorem seqColumn_fault {s : State} {l : BitVec 8} {m : Mode} {f : Fault} (h : seqColumn l m s = .fault f) :
    UnwrittenIn s.tables (tablesOf m) f := by
  unfold seqColumn at h
  split at h <;> cases h
  exact column_error ‹_›

theorem andThen_fault {o : Host.Outcome State Fault Refusal} {g : State → Host.Outcome State Fault Refusal} {f : Fault}
    (h : andThen o g = .fault f) : o = .fault f ∨ ∃ u, o = .next u ∧ g u = .fault f := by
  cases o with
  | next u => exact .inr ⟨u, rfl, h⟩
  | fault e => exact .inl h
  | refused r => cases h

theorem seqColumns_fault {s : State} {l : BitVec 8} {m : Mode} {n : Nat} {f : Fault}
    (h : seqColumns l m n s = .fault f) : UnwrittenIn s.tables (tablesOf m) f := by
  induction n generalizing s with
  | zero => cases h
  | succ n ih =>
    obtain h | ⟨u, hu, h⟩ := andThen_fault h
    · exact seqColumn_fault h
    · obtain ⟨ws, d, -, rfl⟩ := seqColumn_cases hu
      have hr := ih h
      exact hr

theorem seqRedecode_fault {s : State} {l : BitVec 8} {m : Mode} {f : Fault} (h : seqRedecode l m s = .fault f) :
    UnwrittenIn s.tables (tablesOf m) f := by
  obtain h | ⟨u, hu, h⟩ := andThen_fault h
  · have hr := seqPad_fault h
    exact hr
  · obtain ⟨d, -, rfl⟩ := seqPad_cases hu
    obtain h | ⟨v, -, h⟩ := andThen_fault h
    · have hr := seqColumns_fault h
      exact hr
    · cases h

theorem seqSubmit_fault {s : State} {l : BitVec 8} {m : Mode} {f : Fault} (h : seqSubmit l m s = .fault f) :
    UnwrittenIn s.tables (tablesOf m) f := by
  unfold seqSubmit at h
  split at h
  · cases h
  · obtain h | ⟨u, -, h⟩ := andThen_fault h
    · exact seqRedecode_fault h
    · cases h

theorem seqStep_fault {job : Job} {s : State} {f : Fault} (h : seqStep job s = .fault f) :
    UnwrittenIn s.tables (tablesOf (job.lineMode s)) f := by
  unfold seqStep at h
  cases hp : s.point <;> simp only [hp] at h
  case lineAck => unfold seqTakeBuffer at h; split at h <;> cases h
  case pad => exact seqPad_fault h
  case content => exact seqColumn_fault h
  case submit => exact seqSubmit_fault h
  all_goals cases h

/-! ### SEQ's run -/

/-- No step leads back to a command's start. -/
theorem seqStep_point_ne_start {job : Job} {s t : State} (h : seqStep job s = .next t) : t.point ≠ .start := by
  unfold seqStep at h
  cases hp : s.point <;> simp only [hp] at h
  case start => cases h; cases job <;> exact nofun
  case lineAck => obtain ⟨-, rfl⟩ := seqTakeBuffer_cases h; exact nofun
  case pad => obtain ⟨d, -, rfl⟩ := seqPad_cases h; exact nofun
  case content => obtain ⟨ws, d, -, rfl⟩ := seqColumn_cases h; simp only; split <;> exact nofun
  case submit => obtain ⟨-, rfl⟩ | ⟨ws, d, n, rfl⟩ := seqSubmit_cases h <;> exact nofun
  case submitAck =>
    cases h
    cases job with
    | line l m => exact nofun
    | frame n x => simp only [seqLineDone]; split_ifs <;> exact nofun
  case textAck => cases h; unfold seqTextDone; split <;> exact nofun
  case complete => cases h; simp [hp]
  all_goals cases h; exact nofun

/-- Past its start, a run that faults does so at an unwritten entry of its mode. -/
theorem runSeq_fault_in {job : Job} {n : Nat} {s : State} {f : Fault} (hp : s.point ≠ .start)
    (h : runSeq job n s = .fault f) : UnwrittenIn s.tables (tablesOf (job.lineMode s)) f := by
  induction n generalizing s with
  | zero => cases h
  | succ n ih =>
    unfold runSeq at h
    split at h
    · split at h
      · rename_i u hu
        have hr := ih (by simpa using seqStep_point_ne_start hu) h
        have hm := (seqStep_snapshot hu (.inl hp)).2
        rwa [tick_tables, (seqStep_frame hu).tables, lineMode_congr job ((tick_mode u).trans hm)] at hr
      · cases h
        exact seqStep_fault ‹_›
      · cases h
    · cases h

/-- The mode is that of the state, or the one a frame command's snapshot takes. -/
theorem runSeq_fault_cases {job : Job} {n : Nat} {s : State} {f : Fault} (h : runSeq job n s = .fault f) :
    UnwrittenIn s.tables (tablesOf (job.lineMode s)) f ∨
    (s.point = .start ∧ (∃ n x, job = .frame n x) ∧ UnwrittenIn s.tables (tablesOf (deriveMode s.issueCfg)) f) := by
  by_cases hp : s.point = .start
  · cases n with
    | zero => cases h
    | succ n =>
      rw [runSeq, seqStep_start hp] at h
      split at h
      · have hr := runSeq_fault_in (by simpa using seqStep_point_ne_start (seqStep_start (job := job) hp)) h
        rw [tick_tables, (seqBegin_frame job s).tables, lineMode_congr job (tick_mode _)] at hr
        cases job with
        | line l m => exact .inl hr
        | frame k x => exact .inr ⟨hp, ⟨k, x, rfl⟩, hr⟩
      · cases h
  · exact .inl (runSeq_fault_in hp h)

/-- Settles O41: by the closed forms of a command's reads, and from every state by the engines' faults. -/
theorem unwrittenEntryFaults : Obligations.UnwrittenEntryFaults := by
  unfold Obligations.UnwrittenEntryFaults
  refine ⟨fun i job s hj hs => ⟨fun t k he => ?_, fun hn ht => ?_⟩, fun i job t k s hj hs he => ?_, fun i s f h => ?_⟩
  · exact exec_of_runs hj ((completes_start hs).1 _ he)
  · obtain ⟨t, hr, hd, -⟩ := (completes_start hs).2 hn ht
    refine ⟨t, exec_of_runs hj hr, hd.idle, hd.done, hd.out.trans ?_⟩
    cases job <;> rfl
  · exact exec_of_runs hj ((completes_resumed hs).faults _ he)
  · obtain ⟨job, n, hj, hr⟩ := exec_fault h
    obtain ⟨t, k, hf, hu, ht⟩ | ⟨hp, ⟨n, x, hfr⟩, t, k, hf, hu, ht⟩ := runSeq_fault_cases hr
    · exact ⟨t, k, hf, hu, job, hj, .inl ht⟩
    · exact ⟨t, k, hf, hu, job, hj, .inr ⟨hp, n, x, hfr, ht⟩⟩

end Sys2Proof.Proofs
end

section
/-! O6, O43, O48 and O56: bus accesses, the inputs that are due, and the graphics bytes GMW writes while a line is
decoded (20_memory.md). -/

namespace Sys2Proof.Proofs

open Sys2Proof.Machine Sys2Proof.Laws

/-! ### Bus accesses (R66) -/

/-- The low two bits of an offset are its remainder by 4. -/
theorem extractLsb_two_eq_zero_iff (off : BitVec 8) : off.extractLsb' 0 2 = 0 ↔ off.toNat % 4 = 0 := by
  rw [← BitVec.toNat_inj, field_toNat, Nat.pow_zero, Nat.div_one]
  exact Iff.rfl

theorem decodeAccess_of_width {a : BusAccess} (hb : a.bytes ≠ 4) : decodeAccess a = .error .width :=
  if_pos hb

theorem decodeAccess_of_misaligned {a : BusAccess} (hb : a.bytes = 4) (ho : a.offset.toNat % 4 ≠ 0) :
    decodeAccess a = .error .misaligned := by
  rw [decodeAccess, if_neg (not_not_intro hb), if_pos (mt (extractLsb_two_eq_zero_iff _).mp ho)]

theorem decodeAccess_of_aligned {a : BusAccess} (hb : a.bytes = 4) (ho : a.offset.toNat % 4 = 0) :
    decodeAccess a = .ok (if a.write then writeOf a.offset a.data else readOf a.offset) := by
  rw [decodeAccess, if_neg (not_not_intro hb), if_neg (not_not_intro ((extractLsb_two_eq_zero_iff _).mpr ho))]
  split <;> rfl

/-- What a bus access decodes to, and when. -/
theorem decodeAccess_eq_ok_iff (a : BusAccess) (i : Instr) : decodeAccess a = .ok i ↔
    (a.bytes = 4 ∧ a.offset.toNat % 4 = 0) ∧ (if a.write then writeOf a.offset a.data else readOf a.offset) = i := by
  by_cases hb : a.bytes = 4
  · by_cases ho : a.offset.toNat % 4 = 0
    · simp [decodeAccess_of_aligned hb ho, hb, ho]
    · simp [decodeAccess_of_misaligned hb ho, ho]
  · simp [decodeAccess_of_width hb, hb]

/-- An aligned write is a well-formed instruction that encodes to it (10_state.md R22). -/
theorem writeOf_aligned {off : BitVec 8} (v : Word) (h : off.toNat % 4 = 0) :
    (writeOf off v).wellFormed = true ∧ encode (writeOf off v) = writeAccess off v := by
  obtain rfl | rfl | rfl | rfl | rfl | rfl | rfl | hu := offset_cases off h
  iterate 7 · exact ⟨rfl, rfl⟩
  · rw [writeOf_unmapped hu]
    exact ⟨hu, rfl⟩

/-- An aligned read is a well-formed instruction that encodes to it (10_state.md R22). -/
theorem readOf_aligned {off : BitVec 8} (h : off.toNat % 4 = 0) :
    (readOf off).wellFormed = true ∧ encode (readOf off) = readAccess off := by
  obtain rfl | rfl | rfl | rfl | rfl | rfl | rfl | hu := offset_cases off h
  iterate 7 · exact ⟨rfl, rfl⟩
  · rw [readOf_unmapped hu]
    exact ⟨hu, rfl⟩

/-- Settles O6, by the three branches of the decoder and the aligned offsets. -/
theorem accessDefinedIffAlignedWord : Obligations.AccessDefinedIffAlignedWord := by
  unfold Obligations.AccessDefinedIffAlignedWord
  refine fun a => ⟨by simp [decodeAccess_eq_ok_iff], fun i h => ?_⟩
  obtain ⟨⟨hb, ho⟩, rfl⟩ := (decodeAccess_eq_ok_iff a i).mp h
  obtain ⟨write, offset, bytes, data⟩ := a
  cases hb
  cases write with
  | false => exact readOf_aligned ho
  | true => exact writeOf_aligned data ho

/-! ### Delivering an input (70_reset_and_hazards.md R282) -/

theorem step_of_nextInput {x : Input} {s t : State} (h : s.nextInput = some (x, t)) : step s = deliver x t := by
  rw [step, h]

/-- Settles O43, by the two rejections of the decoder. -/
theorem undefinedAccessIsRefused : Obligations.UndefinedAccessIsRefused := by
  unfold Obligations.UndefinedAccessIsRefused
  refine fun a s t h => ⟨fun hb => ?_, fun hb ho => ?_⟩
  · rw [step_of_nextInput h, deliver, decodeAccess_of_width hb]
  · rw [step_of_nextInput h, deliver, decodeAccess_of_misaligned hb ho]

/-- When the first input is delivered: it is due and no read that waits for a snapshot, or SEQ cannot step. -/
theorem step_of_inputs {x : Input} {n : Nat} {r : List TimedInput} {s : State}
    (hi : s.inputs = { after := n, input := x } :: r)
    (h : (n = 0 ∧ (s.framePending = false ∨ x.readsSnapshot = false)) ∨ s.runnable = false) :
    step s = deliver x { s with inputs := r } := by
  apply step_of_nextInput
  have hc : (s.inputDue || !s.runnable) = true := by
    obtain ⟨rfl, hp | hx⟩ | hr := h
    · simp [State.inputDue, hi, hp]
    · simp [State.inputDue, hi, hx]
    · simp [hr]
  simp only [State.nextInput, hi, hc, if_true]

/-- The two reads a snapshot can hold back are RD STATUS and RD FCFG (R279). -/
theorem readsSnapshot_of_decodeAccess {a : BusAccess} {i : Instr} (h : decodeAccess a = .ok i) (hs : i ≠ .rdStatus)
    (hf : i ≠ .rdFcfg) : (Input.host a).readsSnapshot = false := by
  obtain ⟨-, rfl⟩ := (decodeAccess_eq_ok_iff a i).mp h
  obtain ⟨write, offset, bytes, data⟩ := a
  cases write with
  | true => rfl
  | false =>
    have h4 : offset ≠ 0x04 := by rintro rfl; exact hs rfl
    have hC : offset ≠ 0x0C := by rintro rfl; exact hf rfl
    simpa [Input.readsSnapshot] using And.intro h4 hC

/-- Settles O48: such an input is delivered, and delivering an access executes the instruction it decodes to. -/
theorem stepExecutesTheDueAccess : Obligations.StepExecutesTheDueAccess := by
  unfold Obligations.StepExecutesTheDueAccess
  refine ⟨fun i a n r s hi hd hdue => ?_, fun b n r s hdue => ?_⟩
  · rw [step_of_inputs hi, deliver, hd]
    exact hdue.imp_left (And.imp_right (Or.imp_right fun h => readsSnapshot_of_decodeAccess hd h.1 h.2))
  · have h : ∀ x : Input, x.readsSnapshot = false → s.inputs = { after := n, input := x } :: r →
        step s = deliver x { s with inputs := r } :=
      fun x hx hi => step_of_inputs hi (hdue.imp_left fun hn => ⟨hn, .inr hx⟩)
    exact ⟨h (.drv b) rfl, h (.txt b) rfl⟩

/-! ### Bytes GMW writes while a line is decoded (R72) -/

/-- Two bytes share an address exactly if they are the same byte. -/
theorem pageAddr_eq_iff (pl pl' : Plane) (pg pg' : Page) (off off' : BitVec 13) :
    pageAddr pl' pg' off' = pageAddr pl pg off ↔ (pl', pg', off') = (pl, pg, off) := by
  refine ⟨fun h => ?_, fun h => by cases h; rfl⟩
  obtain ⟨rfl, rfl, rfl⟩ := pageAddr_inj h
  rfl

/-- The points of a line decode, from begin_line's request to DRV's acceptance of end_line's (41_run_words.md R141). -/
theorem ofLine_iff (p : Point) :
    p.ofLine = true ↔ p ∈ [Point.lineAck, .pad, .content, .finalize, .submit, .submitAck] := by
  cases p <;> decide

theorem decoding_iff (s : State) : s.decoding = true ↔
    s.seqState = .busy ∧ s.point ∈ [Point.lineAck, .pad, .content, .finalize, .submit, .submitAck] := by
  rw [State.decoding, Bool.and_eq_true, ofLine_iff, beq_iff_eq]

/-- While a command runs, a GMW write records the value it replaces, of its own byte alone. -/
theorem staleAt_gmwWrite_byte (s : State) (pl pl' : Plane) (pg pg' : Page) (off off' : BitVec 13) (v : Byte) :
    (s.gmwWrite pl pg off v).staleAt (pageAddr pl' pg' off')
      = if s.seqState = .busy ∧ (pl', pg', off') = (pl, pg, off) then
          s.mem.read (pageAddr pl pg off) :: s.staleAt (pageAddr pl pg off)
        else s.staleAt (pageAddr pl' pg' off') := by
  simp only [staleAt_gmwWrite, pageAddr_eq_iff]
  split
  · rename_i h
    rw [(pageAddr_eq_iff ..).mpr h.2]
  · rfl

/-- A GMW write marks its byte, exactly while a line decode is in progress. -/
theorem mem_raced_gmwWrite (s : State) (pl pl' : Plane) (pg pg' : Page) (off off' : BitVec 13) (v : Byte) :
    pageAddr pl' pg' off' ∈ (s.gmwWrite pl pg off v).raced ↔
      pageAddr pl' pg' off' ∈ s.raced ∨
      ((pl', pg', off') = (pl, pg, off) ∧ s.seqState = .busy ∧
        s.point ∈ [Point.lineAck, .pad, .content, .finalize, .submit, .submitAck]) := by
  rw [← decoding_iff, ← pageAddr_eq_iff, gmwWrite_raced]
  by_cases hd : s.decoding = true
  · rw [if_pos hd, List.mem_cons, or_comm, and_iff_left hd]
  · rw [if_neg hd, or_iff_left (not_and_of_not_right _ hd)]

/-- Settles O56: a read is a draw; a GMW write records and marks; and the line decoded once more at its submission is
the closed forms' over drawn bytes. -/
theorem racingReadIsADraw : Obligations.RacingReadIsADraw := by
  unfold Obligations.RacingReadIsADraw
  refine ⟨fun pl pg off s => gread_drawn s pl pg off, fun pl pl' pg pg' off off' v r s hi => ?_,
    fun w a s => ⟨rfl, rfl⟩, fun job b s hp hh hr ht => ?_⟩
  · exact ⟨_, step_due hi rfl, staleAt_gmwWrite_byte .., mem_raced_gmwWrite ..⟩
  · obtain ⟨t, hst, hout⟩ := seqSubmit_content (l := job.lineIndex s) hr hh ht
    refine ⟨againAux s (job.lineIndex s), againMain s (job.lineMode s) (job.lineIndex s), t,
      fun c _ => ⟨?_, ?_⟩, ?_, hout⟩
    · exact (againAux_drawn s _ c).imp_right And.symm
    · exact (againMain_drawn s _ _ c).imp_right And.symm
    · rw [seqStep, hp]
      exact hst

end Sys2Proof.Proofs
end

section
/-! O1 to O5, O37 and O39: the encodings of instructions and of run words (30_encoding.md). -/

namespace Sys2Proof.Proofs

open Sys2Proof.Machine Sys2Proof.Laws

/-! ### Command words (R90 to R94) -/

/-- A field above the low part of a word is a field of the high part. -/
theorem field_append_of_le {m n a k : Nat} {high : BitVec m} {low : BitVec n} {x : BitVec k} (h : n ≤ a)
    (hx : high.extractLsb' (a - n) k = x) : (high ++ low).extractLsb' a k = x :=
  (BitVec.extractLsb'_append_eq_of_le h).trans hx

/-- Format C's fields, read back. -/
theorem commandWord_fields (op : BitVec 4) (sub : BitVec 2) (l : BitVec 8) :
    (commandWord op sub l).extractLsb' 28 4 = op ∧ (commandWord op sub l).extractLsb' 12 16 = 0 ∧
    (commandWord op sub l).extractLsb' 10 2 = sub ∧ (commandWord op sub l).extractLsb' 8 2 = 0 ∧
    (commandWord op sub l).extractLsb' 0 8 = l := by
  refine ⟨?_, ?_, ?_, ?_, BitVec.extractLsb'_append_eq_right⟩
  · exact field_append_of_le (by decide) (field_append_of_le (by decide) (field_append_of_le (by decide)
      BitVec.extractLsb'_append_eq_left))
  · exact field_append_of_le (by decide) (field_append_of_le (by decide) (field_append_of_le (by decide)
      BitVec.extractLsb'_append_eq_right))
  · exact field_append_of_le (by decide) (field_append_of_le (by decide) BitVec.extractLsb'_append_eq_right)
  · exact field_append_of_le (by decide) BitVec.extractLsb'_append_eq_right

/-- The operations with a line operand, by their codes (R92). -/
theorem takesLine_iff : ∀ op : BitVec 4, takesLine op = true ↔ op.toNat = 2 ∨ op.toNat = 3 ∨ op.toNat = 4 := by
  decide

theorem op_le_of_takesLine : ∀ op : BitVec 4, takesLine op = true → op ≤ 0x6 := by decide

/-- R94's decode, in the order of its tests, by the values of the fields OP, RSV1, S, RSV0 and L. -/
theorem decodeCommand_eq (v : Word) : decodeCommand v =
    let op := v.toNat / 2 ^ 28
    let line := v.toNat % 2 ^ 8
    let lined := op = 2 ∨ op = 3 ∨ op = 4
    if 6 < op then .error .illegalOp
    else if v.toNat / 2 ^ 12 % 2 ^ 16 ≠ 0 ∨ v.toNat / 2 ^ 8 % 4 ≠ 0 ∨ (op ≠ 4 ∧ v.toNat / 2 ^ 10 % 4 ≠ 0) ∨
        (¬ lined ∧ line ≠ 0) then .error .reservedField
    else if lined ∧ 192 ≤ line then .error .lineRange
    else .ok (commandOf (v.extractLsb' 28 4) (v.extractLsb' 10 2) (v.extractLsb' 0 8)) := by
  have hop : v.toNat / 2 ^ 28 % 2 ^ 4 = v.toNat / 2 ^ 28 := Nat.mod_eq_of_lt (by have := v.isLt; omega)
  simp only [decodeCommand, ite_or, BitVec.lt_def, BitVec.le_def, takesLine_iff, ← Bool.not_eq_true, ne_eq,
    ← BitVec.toNat_inj, field_toNat, hop]
  simp

/-- The operation an OP and S name is the one whose encoding they make, where the operands it lacks are 0 (R90, R91). -/
theorem encode_commandOf {op : BitVec 4} {sub : BitVec 2} {l : BitVec 8} (hop : op ≤ 0x6) (hs : op ≠ 0x4 → sub = 0)
    (hl : takesLine op = false → l = 0) : encode (commandOf op sub l) = .command (commandWord op sub l) := by
  obtain rfl | rfl | rfl | rfl | rfl | rfl | rfl := op_cases op hop
  · rw [hs (by decide), hl rfl]; rfl
  · rw [hs (by decide), hl rfl]; rfl
  · rw [hs (by decide)]; rfl
  · rw [hs (by decide)]; rfl
  · obtain rfl | rfl | rfl | rfl := sub_cases sub <;> rfl
  · rw [hs (by decide), hl rfl]; rfl
  · rw [hs (by decide), hl rfl]; rfl

/-- Settles O5: an accepted word's reserved fields are 0, so that it is made of its OP, S and L. -/
theorem acceptedWordIsItsEncoding : Obligations.AcceptedWordIsItsEncoding := by
  unfold Obligations.AcceptedWordIsItsEncoding
  intro v i h
  obtain ⟨hop, hrsv1, hrsv0, hsub, hline, -, rfl⟩ := decodeCommand_ok h
  exact ⟨decodeCommand_wellFormed h, by rw [encode_commandOf hop hsub hline, commandWord_of_fields v hrsv1 hrsv0]⟩

/-- A word of format C with legal operands decodes to the operation its OP and S name (R94). -/
theorem decodeCommand_commandWord {op : BitVec 4} {sub : BitVec 2} {l : BitVec 8} (hop : op ≤ 0x6)
    (hs : op ≠ 0x4 → sub = 0) (hl : takesLine op = false → l = 0) (hr : takesLine op = true → lineInRange l = true) :
    decodeCommand (commandWord op sub l) = .ok (commandOf op sub l) := by
  obtain ⟨fop, frsv1, fsub, frsv0, fline⟩ := commandWord_fields op sub l
  have hrange : ¬ (takesLine op = true ∧ 192 ≤ l) := fun ⟨ht, hge⟩ =>
    Nat.not_lt.mpr (BitVec.le_def.mp hge) (of_decide_eq_true (hr ht))
  simp only [decodeCommand, fop, frsv1, fsub, frsv0, fline]
  rw [if_neg (by simpa using hop), if_neg (by simp), if_neg (fun h => h.2 (hs h.1)), if_neg (fun h => h.2 (hl h.1)),
    if_neg hrange]

/-- A command without a line operand. -/
theorem decode_commandWord_bare (op : BitVec 4) (hop : op ≤ 0x6) (h : takesLine op = false) :
    decode (.command (commandWord op 0 0)) = .ok (commandOf op 0 0) := by
  rw [decode, decodeCommand_commandWord hop (fun _ => rfl) (fun _ => rfl) (fun ht => absurd (h.symm.trans ht) nofun)]

/-- A command with a line operand. -/
theorem decode_commandWord_line {op : BitVec 4} {sub : BitVec 2} {l : BitVec 8} (h : takesLine op = true)
    (hs : op ≠ 0x4 → sub = 0) (hl : lineInRange l = true) :
    decode (.command (commandWord op sub l)) = .ok (commandOf op sub l) := by
  rw [decode, decodeCommand_commandWord (op_le_of_takesLine op h) hs (fun ht => absurd (h.symm.trans ht) nofun)
    (fun _ => hl)]

/-! ### Bus accesses (10_state.md R22) -/

theorem decode_writeAccess {off : BitVec 8} (v : Word) (ho : off.toNat % 4 = 0) :
    decode (writeAccess off v) = .ok (writeOf off v) := by
  rw [writeAccess, decode, decodeAccess_of_aligned rfl ho]
  rfl

theorem decode_readAccess {off : BitVec 8} (ho : off.toNat % 4 = 0) : decode (readAccess off) = .ok (readOf off) := by
  rw [readAccess, decode, decodeAccess_of_aligned rfl ho]
  rfl

theorem unmappedOffset_aligned {off : BitVec 8} (h : unmappedOffset off = true) : off.toNat % 4 = 0 :=
  (extractLsb_two_eq_zero_iff off).mp (unmappedOffset_range off h).2.2

/-! ### The round trip -/

/-- Settles O1, by the instruction: a command word's fields read back, or an access at an aligned offset. -/
theorem decodeOfEncodeIsTheInstruction : Obligations.DecodeOfEncodeIsTheInstruction := by
  unfold Obligations.DecodeOfEncodeIsTheInstruction
  intro i hwf
  cases i with
  | nop => exact decode_commandWord_bare 0x0 (by decide) rfl
  | fstart => exact decode_commandWord_bare 0x1 (by decide) rfl
  | laddr l => exact decode_commandWord_line (op := 0x2) rfl (fun _ => rfl) hwf
  | dsr l => exact decode_commandWord_line (op := 0x3) rfl (fun _ => rfl) hwf
  | ddr140 l => exact decode_commandWord_line (op := 0x4) rfl (absurd rfl) hwf
  | ddr560 l => exact decode_commandWord_line (op := 0x4) rfl (absurd rfl) hwf
  | ddr160 l => exact decode_commandWord_line (op := 0x4) rfl (absurd rfl) hwf
  | ddrMix l => exact decode_commandWord_line (op := 0x4) rfl (absurd rfl) hwf
  | ffull => exact decode_commandWord_bare 0x5 (by decide) rfl
  | fmixed => exact decode_commandWord_bare 0x6 (by decide) rfl
  | wrCmd v => exact decode_writeAccess v rfl
  | wrStatus v => exact decode_writeAccess v rfl
  | wrCfg v => exact decode_writeAccess v rfl
  | wrFcfg v => exact decode_writeAccess v rfl
  | wrResult v => exact decode_writeAccess v rfl
  | wrTsel v => exact decode_writeAccess v rfl
  | wrTdata v => exact decode_writeAccess v rfl
  | wrUnmapped off v =>
    rw [encode, decode_writeAccess v (unmappedOffset_aligned hwf), writeOf_unmapped hwf]
  | rdCmd => exact decode_readAccess rfl
  | rdStatus => exact decode_readAccess rfl
  | rdCfg => exact decode_readAccess rfl
  | rdFcfg => exact decode_readAccess rfl
  | rdResult => exact decode_readAccess rfl
  | rdTsel => exact decode_readAccess rfl
  | rdTdata => exact decode_readAccess rfl
  | rdUnmapped off =>
    rw [encode, decode_readAccess (unmappedOffset_aligned hwf), readOf_unmapped hwf]

/-! ### Bytes (20_memory.md R65) -/

/-- An encoded bus access is 32 bits wide. -/
theorem bytes_of_encode {i : Instr} {a : BusAccess} (h : encode i = .access a) : a.bytes = 4 := by
  cases i <;> cases h <;> rfl

/-- The control byte gives back the direction and the width of a 32-bit access (assumption 16). -/
theorem controlByte_fields {a : BusAccess} (hb : a.bytes = 4) :
    frameWidth (controlByte a) = 4 ∧ (controlByte a).getLsbD 0 = !a.write := by
  simp only [controlByte, hb, if_true]
  cases a.write <;> decide

/-- A command word, and a 32-bit access, from their own bytes. -/
theorem ofBytes_toBytes (x : Fetch) (h : ∀ a, x = .access a → a.bytes = 4) :
    Fetch.ofBytes x.format x.toBytes = some x := by
  cases x with
  | command w => simp only [Fetch.format, Fetch.toBytes, bytesOfWord, Fetch.ofBytes, wordOfBytes_bytes]
  | access a =>
    have hb := h a rfl
    obtain ⟨hwidth, hdir⟩ := controlByte_fields hb
    simp only [Fetch.format, Fetch.toBytes, bytesOfWord, Fetch.ofBytes, wordOfBytes_bytes, hwidth, hdir, Bool.not_not,
      ← hb]

/-- Settles O2: the bytes give back the encoding, which decodes to the instruction. -/
theorem decodeOfEncodedBytesIsTheInstruction : Obligations.DecodeOfEncodedBytesIsTheInstruction := by
  unfold Obligations.DecodeOfEncodedBytesIsTheInstruction
  intro i hwf
  rw [decodeBytes, ofBytes_toBytes _ fun _ => bytes_of_encode]
  exact decodeOfEncodeIsTheInstruction i hwf

/-! ### WR CMD (44_frame_control.md R210) -/

theorem exec_wrCmd_busy (v : Word) {s : State} (hs : s.seqState = .busy) :
    exec (.wrCmd v) s = .next (s.raise .busy) :=
  if_pos ((busy_iff s).mpr hs)

theorem exec_wrCmd_error {v : Word} {s : State} {e : CommandError} (hs : s.seqState = .idle)
    (h : decodeCommand v = .error e) : exec (.wrCmd v) s = .next (s.raise (ErrCode.ofCommand e)) := by
  simp only [exec, execWrCmd, busy_eq_false hs, h, Bool.false_eq_true, if_false]

theorem exec_wrCmd_ok {v : Word} {s : State} {i : Instr} (hs : s.seqState = .idle) (h : decodeCommand v = .ok i) :
    exec (.wrCmd v) s = .next (s.accept v) := by
  simp only [exec, execWrCmd, busy_eq_false hs, h, Bool.false_eq_true, if_false]

/-- Settles O4, by the tests of the decode in their order; an accepted word is its encoding by O5. -/
theorem commandDecodePriority : Obligations.CommandDecodePriority := by
  unfold Obligations.CommandDecodePriority
  intro v s op rsv1 sub rsv0 line lined reserved rejected
  have hd := decodeCommand_eq v
  refine ⟨exec_wrCmd_busy v, fun hs => ⟨fun hop => ?_, fun hop hres => ?_, fun hop hres hl hline => ?_,
    fun hop hres hline => ?_⟩⟩
  · exact exec_wrCmd_error hs (hd.trans (if_pos hop))
  · have hd := hd.trans (if_neg (Nat.not_lt.mpr hop))
    exact exec_wrCmd_error hs (hd.trans (if_pos hres))
  · have hd := (hd.trans (if_neg (Nat.not_lt.mpr hop))).trans (if_neg hres)
    exact exec_wrCmd_error hs (hd.trans (if_pos ⟨hl, hline⟩))
  · have hd := (hd.trans (if_neg (Nat.not_lt.mpr hop))).trans (if_neg hres)
    have hok := hd.trans (if_neg fun h => Nat.not_lt.mpr h.2 (hline h.1))
    exact ⟨⟨_, hok, (acceptedWordIsItsEncoding v _ hok).2⟩, exec_wrCmd_ok hs hok⟩

/-! ### Run words (R110 to R113) -/

/-- A word made of two items. -/
def IsItemPair (w : Word) : Prop := ∃ c0 n0 c1 n1, w = w2 c0 n0 c1 n1

theorem isItemPair_w2 (c0 c1 : Colour) (n0 n1 : BitVec 3) : IsItemPair (w2 c0 n0 c1 n1) := ⟨c0, n0, c1, n1, rfl⟩

theorem isItemPair_of_mem_mixFrom (tb : Tables) (s f : Nat → Bool) (n : Nat) :
    ∀ x, ∀ w ∈ mixFrom tb s f n x, IsItemPair w := by
  induction n with
  | zero => exact fun _ _ hw => nomatch hw
  | succ n ih =>
    intro x w hw
    rw [mixFrom] at hw
    split_ifs at hw
    · cases hw
    all_goals
      obtain rfl | hw := List.mem_cons.mp hw
      · exact isItemPair_w2 ..
      · exact ih _ w hw

/-- Every content word of a line is made of two items, in every mode (41_run_words.md R147). -/
theorem isItemPair_of_mem_lineContent {p : Params} {tb : Tables} {m : Mode} {a b : Nat → Byte} {w : Word}
    (hw : w ∈ lineContent p tb m a b) : IsItemPair w := by
  cases m with
  | base =>
    obtain ⟨j, -, rfl⟩ := List.mem_map.mp hw
    exact isItemPair_w2 ..
  | dr sub =>
    cases sub with
    | s140 =>
      obtain ⟨k, -, rfl⟩ := List.mem_map.mp hw
      exact isItemPair_w2 ..
    | s560 =>
      obtain ⟨i, -, rfl⟩ := List.mem_map.mp hw
      exact isItemPair_w2 ..
    | s160 =>
      obtain ⟨c, -, hc⟩ := List.mem_flatMap.mp hw
      obtain rfl | rfl : w = byteWord tb (a c) ∨ w = byteWord tb (b c) := by simpa using hc
      all_goals exact isItemPair_w2 ..
    | mix => exact isItemPair_of_mem_mixFrom tb _ _ 280 0 w hw

theorem isItemPair_of_mem_padOf {m : Mode} {w : Word} (hw : w ∈ padOf m) : IsItemPair w := by
  have hpad : ∀ u ∈ padWords, IsItemPair u := by
    simp only [padWords, List.forall_mem_cons]
    exact ⟨isItemPair_w2 .., isItemPair_w2 .., isItemPair_w2 .., nofun⟩
  cases m with
  | base => exact hpad w hw
  | dr sub =>
    cases sub with
    | s140 => exact hpad w hw
    | s560 => exact hpad w hw
    | s160 => cases hw
    | mix => exact hpad w hw

/-- The finalisation emits at most HOLD (41_run_words.md R146). -/
theorem eq_holdWord_of_mem_tailWords {f : BitVec 7} {w : Word} (hw : w ∈ tailWords f) : w = holdWord := by
  unfold tailWords at hw
  split at hw
  · cases hw
  · exact List.mem_singleton.mp hw

/-- Settles O39: padding and content are made of items, which have no hold flag, and the tail is HOLD. -/
theorem everyLineWordIsAnItemPairOrHold : Obligations.EveryLineWordIsAnItemPairOrHold := by
  unfold Obligations.EveryLineWordIsAnItemPairOrHold
  intro p tb m a b f w hw
  obtain hw | hw := List.mem_append.mp hw
  · have hpair : IsItemPair w :=
      (List.mem_append.mp hw).elim isItemPair_of_mem_padOf isItemPair_of_mem_lineContent
    obtain ⟨c0, n0, c1, n1, rfl⟩ := hpair
    obtain ⟨h15, h31⟩ := w2_hold c0 c1 n0 n1
    exact ⟨h31, fun h => absurd (h15.symm.trans h) nofun⟩
  · cases eq_holdWord_of_mem_tailWords hw
    exact ⟨rfl, fun _ => rfl⟩

/-- Settles O3, by evaluating the decoder at the thirteen words and accesses. -/
theorem specEncodingsDecode : Obligations.SpecEncodingsDecode := by
  unfold Obligations.SpecEncodingsDecode
  decide

/-- Settles O37, by the slots and colours of a two-item word. -/
theorem runWordSlots : Obligations.RunWordSlots := by
  unfold Obligations.RunWordSlots
  exact fun c d => ⟨slots_w2 .., wordColours_w2 .., slots_w2 .., wordColours_w2 .., slots_w2 .., wordColours_w2 ..⟩

end Sys2Proof.Proofs
end

section
/-! The line address mapper (40_line_address.md). -/

namespace Sys2Proof.Proofs

open Sys2Proof.Machine

theorem midStride_bytes_toNat (m : MidStride) : m.bytes.toNat = 120 ∨ m.bytes.toNat = 128 := by
  cases m with
  | s120 => exact .inl rfl
  | s128 => exact .inr rfl

/-- Settles O23: RESULT holds the line offset, whose value is `lineOffset_toNat`. -/
theorem laddrWritesTheLineOffset : Obligations.LaddrWritesTheLineOffset := by
  unfold Obligations.LaddrWritesTheLineOffset
  exact fun l s _ => ⟨lineOffset s.params l, rfl, lineOffset_toNat s.params l⟩

/-- The page view's upper bound, the three fields of the line and the column at their greatest. -/
theorem lineOffset_add_column_le (p : Params) {l : BitVec 8} {c : Nat} (hl : l.toNat < 192) (hc : c < 40) :
    (lineOffset p l).toNat + c ≤ 7 * 1024 + 7 * p.midStride.bytes.toNat + 2 * 40 + 39 := by
  have hmid : l.toNat / 8 % 8 * p.midStride.bytes.toNat ≤ 7 * p.midStride.bytes.toNat :=
    Nat.mul_le_mul_right _ (by omega)
  rw [lineOffset_toNat]
  omega

theorem lineOffset_add_column_toNat (p : Params) {l : BitVec 8} {c : Nat} (hl : l.toNat < 192) (hc : c < 40) :
    (lineOffset p l + BitVec.ofNat 13 c).toNat = (lineOffset p l).toNat + c := by
  have hle := lineOffset_le p hl
  have hcol : (BitVec.ofNat 13 c).toNat = c := Nat.mod_eq_of_lt (by omega)
  rw [BitVec.toNat_add_of_lt (by omega), hcol]

/-- The top field and the column make the last digit of an offset, which is less than either stride. -/
theorem topField_add_column_lt {l : BitVec 8} {c : Nat} (hl : l.toNat < 192) (hc : c < 40) :
    l.toNat / 64 * 40 + c < 120 := by
  omega

/-- A number with digits of weight 1024, the stride and 1 has those digits only: 8 strides are at most 1024. -/
theorem strideDigits_unique (m : MidStride) {a b x a' b' x' : Nat} (hb : b < 8) (hb' : b' < 8) (hx : x < 120)
    (hx' : x' < 120) (h : a * 1024 + b * m.bytes.toNat + x = a' * 1024 + b' * m.bytes.toNat + x') :
    a = a' ∧ b = b' ∧ x = x' := by
  obtain hm | hm := midStride_bytes_toNat m
  all_goals
    rw [hm] at h
    have ha : a = a' := by omega
    have hbb : b = b' := by omega
    exact ⟨ha, hbb, by omega⟩

/-- No two (line, column) pairs read the same byte: the offset's digits give back the line's fields and the column. -/
theorem lineOffset_add_column_inj (p : Params) {l l' : BitVec 8} {c c' : Nat} (hl : l.toNat < 192)
    (hl' : l'.toNat < 192) (hc : c < 40) (hc' : c' < 40)
    (h : (lineOffset p l).toNat + c = (lineOffset p l').toNat + c') : l = l' ∧ c = c' := by
  rw [lineOffset_toNat, lineOffset_toNat, Nat.add_assoc, Nat.add_assoc _ _ c'] at h
  obtain ⟨hlow, hmid, hlast⟩ := strideDigits_unique p.midStride (Nat.mod_lt _ (by decide)) (Nat.mod_lt _ (by decide))
    (topField_add_column_lt hl hc) (topField_add_column_lt hl' hc') h
  have htop : l.toNat / 64 = l'.toNat / 64 := by omega
  exact ⟨BitVec.eq_of_toNat_eq (by omega), by omega⟩

/-- With MID_STRIDE 128 the two higher digits are multiples of 128, so the last digit is the residue. -/
theorem lineOffset_add_column_mod (p : Params) {l : BitVec 8} {c : Nat} (hl : l.toNat < 192) (hc : c < 40)
    (hp : p.midStride = .s128) : ((lineOffset p l).toNat + c) % 128 < 120 := by
  have hstride : p.midStride.bytes.toNat = 128 := by rw [hp]; rfl
  have hlast := topField_add_column_lt hl hc
  have hsplit : (lineOffset p l).toNat + c
      = 128 * (l.toNat % 8 * 8 + l.toNat / 8 % 8) + (l.toNat / 64 * 40 + c) := by
    rw [lineOffset_toNat, hstride]
    ring
  rw [hsplit, Nat.mul_add_mod, Nat.mod_eq_of_lt (hlast.trans (by decide))]
  exact hlast

/-- Settles O24, by the bound, the digits and the residue of a byte's offset. -/
theorem lineBytesAreDistinctAndInside : Obligations.LineBytesAreDistinctAndInside := by
  unfold Obligations.LineBytesAreDistinctAndInside
  exact fun p l l' c c' hl hl' hc hc' =>
    ⟨lineOffset_add_column_le p hl hc, lineOffset_add_column_toNat p hl hc,
      lineOffset_add_column_inj p hl hl' hc hc', lineOffset_add_column_mod p hl hc⟩

end Sys2Proof.Proofs
end

section
/-! The words and slots of a line, in every mode (41_run_words.md R142 to R147). -/

namespace Sys2Proof.Proofs

open Sys2Proof.Machine Sys2Proof.Laws

/-! ### The slots of lists of words (R147) -/

@[simp] theorem totalSlots_nil : totalSlots [] = 0 := rfl

@[simp] theorem totalSlots_cons (w : Word) (ws : List Word) : totalSlots (w :: ws) = slots w + totalSlots ws := rfl

@[simp] theorem totalSlots_append (ws ws' : List Word) : totalSlots (ws ++ ws') = totalSlots ws + totalSlots ws' := by
  simp [totalSlots]

/-- Words of `n` slots each. -/
theorem totalSlots_eq_length_mul {n : Nat} {ws : List Word} (h : ∀ w ∈ ws, slots w = n) :
    totalSlots ws = ws.length * n := by
  have hmap : ∀ x ∈ ws.map slots, x = n := List.forall_mem_map.mpr h
  simpa [totalSlots] using List.sum_eq_card_nsmul _ n hmap

theorem totalSlots_pairs {ws : List Word} (h : ∀ w ∈ ws, ∃ c d, w = pair c d) : totalSlots ws = ws.length * 2 :=
  totalSlots_eq_length_mul fun w hw => by
    obtain ⟨c, d, rfl⟩ := h w hw
    exact slots_w2 ..

theorem totalSlots_xpairs {ws : List Word} (h : ∀ w ∈ ws, ∃ c d, w = xpair c d) : totalSlots ws = ws.length * 8 :=
  totalSlots_eq_length_mul fun w hw => by
    obtain ⟨c, d, rfl⟩ := h w hw
    exact slots_w2 ..

/-! ### The content words (R147) -/

theorem length_srContent (k : Nat) (tb : Tables) (b : Nat → Byte) : (srContent k tb b).length = 280 := by
  simp [srContent]

theorem pair_of_mem_srContent {k : Nat} {tb : Tables} {b : Nat → Byte} : ∀ w ∈ srContent k tb b, ∃ c d, w = pair c d :=
  List.forall_mem_map.mpr fun _ _ => ⟨_, _, rfl⟩

theorem length_content140 (tb : Tables) (s : Nat → Bool) : (content140 tb s).length = 70 := by
  simp [content140]

theorem xpair_of_mem_content140 {tb : Tables} {s : Nat → Bool} : ∀ w ∈ content140 tb s, ∃ c d, w = xpair c d :=
  List.forall_mem_map.mpr fun _ _ => ⟨_, _, rfl⟩

theorem length_content560 (tb : Tables) (s : Nat → Bool) : (content560 tb s).length = 280 := by
  simp [content560]

theorem pair_of_mem_content560 {tb : Tables} {s : Nat → Bool} : ∀ w ∈ content560 tb s, ∃ c d, w = pair c d :=
  List.forall_mem_map.mpr fun _ _ => ⟨_, _, rfl⟩

theorem length_content160 (tb : Tables) (a b : Nat → Byte) : (content160 tb a b).length = 80 := by
  simp [content160, List.length_flatMap]

theorem xpair_of_mem_content160 {tb : Tables} {a b : Nat → Byte} : ∀ w ∈ content160 tb a b, ∃ c d, w = xpair c d := by
  intro w hw
  obtain ⟨c, -, hc⟩ := List.mem_flatMap.mp hw
  obtain rfl | rfl : w = byteWord tb (a c) ∨ w = byteWord tb (b c) := by simpa using hc
  all_goals exact ⟨_, _, rfl⟩

/-! ### The mixed sub-mode (43_double_res.md R188) -/

/-- The word of a step shows a slot for each dot the step takes. -/
theorem slots_mixWordAt (tb : Tables) (s : Nat → Bool) (colour : Bool) (x : Nat) :
    slots (mixWordAt tb s colour x) = mixTakes colour := by
  cases colour <;> exact slots_w2 ..

/-- A step, at an even dot, stays within the line. -/
theorem mixTakes_le {f : Nat → Bool} {x : Nat} (hx : x < 560) (heven : x % 2 = 0) :
    x + mixTakes (mixColourAt f x) ≤ 560 := by
  cases hc : mixColourAt f x with
  | false =>
    show x + 2 ≤ 560
    omega
  | true =>
    simp only [mixColourAt, Bool.and_eq_true, decide_eq_true_eq] at hc
    obtain ⟨⟨⟨⟨hroom, -⟩, -⟩, -⟩, -⟩ := hc
    exact hroom

/-- From an even dot on, with steps enough, every dot is shown in one slot. -/
theorem totalSlots_mixFrom (tb : Tables) (s f : Nat → Bool) (n : Nat) :
    ∀ x, x % 2 = 0 → x ≤ 560 → 560 ≤ x + 2 * n → totalSlots (mixFrom tb s f n x) = 560 - x := by
  induction n with
  | zero => intro x _ _ hn; simp only [mixFrom, totalSlots_nil]; omega
  | succ n ih =>
    intro x heven hx hn
    obtain rfl | hlt := hx.eq_or_lt
    · rw [mixFrom_end]; rfl
    · have hle := mixTakes_le (f := f) hlt heven
      rw [mixFrom_succ tb s f n x hlt, totalSlots_cons, slots_mixWordAt]
      obtain h | h : mixTakes (mixColourAt f x) = 2 ∨ mixTakes (mixColourAt f x) = 4 := by
        cases mixColourAt f x <;> simp [mixTakes]
      all_goals
        rw [h] at hle ⊢
        rw [ih _ (by omega) hle (by omega)]
        omega

theorem totalSlots_contentMix (tb : Tables) (s f : Nat → Bool) : totalSlots (contentMix tb s f) = 560 :=
  totalSlots_mixFrom tb s f 280 0 rfl (by omega) (by omega)

theorem step_of_mem_mixFrom {tb : Tables} {s f : Nat → Bool} (n : Nat) :
    ∀ x, ∀ w ∈ mixFrom tb s f n x, (∃ c, w = w2 c 1 c 1) ∨ ∃ c d, w = pair c d := by
  induction n with
  | zero => exact fun _ _ hw => nomatch hw
  | succ n ih =>
    intro x w hw
    rw [mixFrom] at hw
    split_ifs at hw
    · cases hw
    · obtain rfl | hw := List.mem_cons.mp hw
      · exact .inl ⟨_, rfl⟩
      · exact ih _ w hw
    · obtain rfl | hw := List.mem_cons.mp hw
      · exact .inr ⟨_, _, rfl⟩
      · exact ih _ w hw

/-- A step shows 2 or 4 slots, so the 560 slots take 140 to 280 steps. -/
theorem length_contentMix (tb : Tables) (s f : Nat → Bool) :
    140 ≤ (contentMix tb s f).length ∧ (contentMix tb s f).length ≤ 280 := by
  have hslots : ∀ x ∈ (contentMix tb s f).map slots, 2 ≤ x ∧ x ≤ 4 := by
    refine List.forall_mem_map.mpr fun w hw => ?_
    obtain ⟨c, rfl⟩ | ⟨c, d, rfl⟩ := step_of_mem_mixFrom 280 0 w hw
    · rw [slots_w2]; decide
    · rw [pair, slots_w2]; decide
  have hlow := List.card_nsmul_le_sum _ 2 fun x hx => (hslots x hx).1
  have hhigh := List.sum_le_card_nsmul _ 4 fun x hx => (hslots x hx).2
  have htotal : ((contentMix tb s f).map slots).sum = 560 := totalSlots_contentMix tb s f
  simp only [List.length_map, smul_eq_mul, htotal] at hlow hhigh
  omega

/-! ### A line and its buffer (R142 to R147) -/

theorem totalSlots_lineContent (p : Params) (tb : Tables) (m : Mode) (a b : Nat → Byte) :
    totalSlots (lineContent p tb m a b) = if m = .dr .s160 then 640 else 560 := by
  cases m with
  | base => exact (totalSlots_pairs pair_of_mem_srContent).trans (congrArg (· * 2) (length_srContent ..))
  | dr sub =>
    cases sub with
    | s140 => exact (totalSlots_xpairs xpair_of_mem_content140).trans (congrArg (· * 8) (length_content140 ..))
    | s560 => exact (totalSlots_pairs pair_of_mem_content560).trans (congrArg (· * 2) (length_content560 ..))
    | s160 => exact (totalSlots_xpairs xpair_of_mem_content160).trans (congrArg (· * 8) (length_content160 ..))
    | mix => exact totalSlots_contentMix ..

theorem length_padOf (m : Mode) : (padOf m).length = if m = .dr .s160 then 0 else 3 := by
  cases m with
  | base => rfl
  | dr sub => cases sub <;> rfl

theorem totalSlots_padOf (m : Mode) : totalSlots (padOf m) = if m = .dr .s160 then 0 else 40 := by
  have hpad : totalSlots padWords = 40 := by
    simp only [padWords, totalSlots_cons, slots_w2]
    rfl
  cases m with
  | base => exact hpad
  | dr sub =>
    cases sub with
    | s160 => rfl
    | _ => exact hpad

theorem totalSlots_tailWords (f : BitVec 7) : totalSlots (tailWords f) = 0 := by
  unfold tailWords
  split <;> rfl

/-- A line ends with HOLD, or with a repeat count of 1 in its place (R146). -/
theorem length_tailWords_add_repeatOf (f : BitVec 7) : (tailWords f).length + repeatOf f = 1 := by
  unfold tailWords repeatOf
  split <;> rfl

theorem repeatOf_eq (f : BitVec 7) : repeatOf f = (f.getLsbD 6).toNat := by
  unfold repeatOf dupOf
  cases f.getLsbD 6 <;> rfl

theorem totalSlots_lineBuffer (f : BitVec 7) (m : Mode) (ws : List Word) :
    totalSlots (lineBuffer f m ws).data = totalSlots (padOf m) + totalSlots ws := by
  simp only [lineBuffer, totalSlots_append, totalSlots_tailWords, Nat.add_zero]

theorem lineBuffer_length_add_repeatOf (f : BitVec 7) (m : Mode) (ws : List Word) :
    (lineBuffer f m ws).length + repeatOf f = (padOf m).length + ws.length + 1 := by
  simp only [lineBuffer, List.length_append, Nat.add_assoc, length_tailWords_add_repeatOf]

/-- Settles O36, by evaluating the four words and their slots. -/
theorem paddingAndHoldWords : Obligations.PaddingAndHoldWords := by
  unfold Obligations.PaddingAndHoldWords
  decide

/-- Settles O38: the content by its mode's closed form, and the buffer by its padding and its tail. -/
theorem wordsAndSlotsPerLine : Obligations.WordsAndSlotsPerLine := by
  unfold Obligations.WordsAndSlotsPerLine
  intro p tb m a b f content buf dup
  have hslots : totalSlots content = if m = .dr .s160 then 640 else 560 := totalSlots_lineContent p tb m a b
  have hdup : repeatOf f = dup := repeatOf_eq f
  have hlen : buf.length + dup = (padOf m).length + content.length + 1 :=
    hdup ▸ lineBuffer_length_add_repeatOf f m content
  refine ⟨hslots, ?_, rfl, hdup, ?_, ?_, ?_, ?_, ?_⟩
  · rw [totalSlots_lineBuffer, totalSlots_padOf, hslots]
    split <;> rfl
  · rintro rfl
    have hc : content.length = 280 := length_srContent ..
    exact ⟨hc, by rw [hlen, hc]; rfl, pair_of_mem_srContent⟩
  · rintro rfl
    have hc : content.length = 70 := length_content140 ..
    exact ⟨hc, by rw [hlen, hc]; rfl, xpair_of_mem_content140⟩
  · rintro rfl
    have hc : content.length = 280 := length_content560 ..
    exact ⟨hc, by rw [hlen, hc]; rfl, pair_of_mem_content560⟩
  · rintro rfl
    have hc : content.length = 80 := length_content160 ..
    exact ⟨hc, by rw [hlen, hc]; rfl, xpair_of_mem_content160⟩
  · rintro rfl
    obtain ⟨hmin, hmax⟩ := length_contentMix tb (drDot p.drInterleave a b) (drFlag p.drInterleave a b)
    exact ⟨hmin, hmax, by rw [hlen, length_padOf, if_neg nofun]; omega, step_of_mem_mixFrom 280 0⟩

end Sys2Proof.Proofs
end

section
/-! The refusal of a buffer of fewer than 284 words (41_run_words.md R149). -/

namespace Sys2Proof.Proofs

open Sys2Proof.Machine Sys2Proof.Laws

/-- Nothing disturbs SEQ, and DRV answers, but with buffers that are too small. -/
structure ServedSmall (s : State) : Prop where
  busy : s.seqState = .busy
  inputs : s.inputs = []
  drv : s.drvReady = true
  cap : s.params.slCap < minCapacity

theorem runs_smallBuffer_of_lineAck {job : Job} {s : State} (hs : ServedSmall s) (hp : s.point = .lineAck) :
    Runs job s (.refused .smallBuffer) := by
  intro n hn
  obtain ⟨n, rfl⟩ : ∃ k, n = k + 1 := ⟨n - 1, by simp only [rank, hp] at hn; omega⟩
  exact runSeq_refused hs.busy (by simp [State.waiting, hp, hs.drv]) hs.inputs
    (by simp only [seqStep, hp, seqTakeBuffer, if_pos hs.cap])

theorem runs_smallBuffer_of_skipAck {job : Job} {s : State} (hs : ServedSmall s) (hp : s.point = .skipAck) :
    Runs job s (.refused .smallBuffer) := by
  have ht : ServedSmall ({ s with lctr := 0 }.request .prepareScanline .lineAck) := ⟨hs.busy, hs.inputs, hs.drv, hs.cap⟩
  exact (runs_smallBuffer_of_lineAck ht rfl).step hs.busy hs.inputs (by simp [State.waiting, hp, hs.drv])
    (by simp only [seqStep, hp]) ht.inputs ht.busy

theorem runs_smallBuffer_of_frameAck {job : Job} {s : State} (hs : ServedSmall s) (hp : s.point = .frameAck) :
    Runs job s (.refused .smallBuffer) := by
  have ht : ServedSmall (s.request (.skipLines s.params.vskip) .skipAck) := ⟨hs.busy, hs.inputs, hs.drv, hs.cap⟩
  exact (runs_smallBuffer_of_skipAck ht rfl).step hs.busy hs.inputs (by simp [State.waiting, hp, hs.drv])
    (by simp only [seqStep, hp]) ht.inputs ht.busy

/-- A line command comes to its buffer at once, a frame command after its snapshot and the skipped lines. -/
theorem runs_smallBuffer_of_start {job : Job} {s : State} (hs : ServedSmall s) (hp : s.point = .start) :
    Runs job s (.refused .smallBuffer) := by
  have ht : ServedSmall (seqBegin job s) := by cases job <;> exact ⟨hs.busy, hs.inputs, hs.drv, hs.cap⟩
  have hrun : Runs job (seqBegin job s) (.refused .smallBuffer) := by
    cases job with
    | line l m => exact runs_smallBuffer_of_lineAck ht rfl
    | frame lines text => exact runs_smallBuffer_of_frameAck ht rfl
  exact hrun.step hs.busy hs.inputs (by simp [State.waiting, hp]) (seqStep_start hp) ht.inputs ht.busy

/-- Settles O42, by the command's run from its start to the answer to PREPARE_SCANLINE. -/
theorem smallBufferIsRefused : Obligations.SmallBufferIsRefused := by
  unfold Obligations.SmallBufferIsRefused
  intro i s hlong hbusy hstart hinputs hdrv hcap
  obtain ⟨job, hjob⟩ := Option.isSome_iff_exists.mp hlong
  exact exec_of_runs hjob (runs_smallBuffer_of_start ⟨hbusy, hinputs, hdrv, hcap⟩ hstart)

end Sys2Proof.Proofs
end

section
/-! O25 and O32: a line command from its start, its tables loaded, and the frame of the line commands from every state
(42_single_res.md R160, 43_double_res.md R190). -/

namespace Sys2Proof.Proofs

open Sys2Proof.Machine Sys2Proof.Laws

/-! ### A line command is a run of SEQ -/

theorem ofInstr_lineCommand (m : Mode) (l : BitVec 8) : Job.ofInstr (lineCommand m l) = some (.line l m) := by
  cases m with
  | base => rfl
  | dr sub => cases sub <;> rfl

theorem exec_lineCommand (m : Mode) (l : BitVec 8) (s : State) :
    exec (lineCommand m l) s = runSeq (.line l m) lineFuel s := by
  cases m with
  | base => rfl
  | dr sub => cases sub <;> rfl

/-- The five forms are the line commands of the five modes. -/
theorem eq_lineCommand_of_mem {l : BitVec 8} {i : Instr}
    (h : i ∈ [Instr.dsr l, .ddr140 l, .ddr560 l, .ddr160 l, .ddrMix l]) : ∃ m, i = lineCommand m l := by
  simp only [List.mem_cons, List.not_mem_nil, or_false] at h
  obtain rfl | rfl | rfl | rfl | rfl := h
  · exact ⟨.base, rfl⟩
  · exact ⟨.dr .s140, rfl⟩
  · exact ⟨.dr .s560, rfl⟩
  · exact ⟨.dr .s160, rfl⟩
  · exact ⟨.dr .mix, rfl⟩

/-! ### From its start -/

/-- A line command that starts has its line's two requests to issue. -/
theorem requestsToCome_line {s : State} (hp : s.point = .start) (l : BitVec 8) (m : Mode) :
    Job.requestsToCome (.line l m) s = [.prepareScanline, .submitScanline (expectedBuffer s s.fcfg m l)] := by
  simp only [Job.requestsToCome, Job.lineRequests, Job.linesToCome, hp]
  rfl

/-- A line command asks nothing of TXT. -/
theorem textServed_line {s : State} (hp : s.point = .start) (l : BitVec 8) (m : Mode) : s.textServed (.line l m) := by
  rintro (h | h)
  · exact absurd rfl h
  · cases hp.symm.trans h

/-- In every mode, a line command whose tables are loaded runs through and submits the closed form's buffer. -/
theorem lineCommand_completes {s : State} {m : Mode} (l : BitVec 8) (hs : s.Poised)
    (hl : s.tables.loadedFor m = true) : lineCompletes (lineCommand m l) m l s := by
  have hreads : s.tables.firstUnwritten (Job.readsToCome (.line l m) s) = none := readsToCome_of_loaded hl
  obtain ⟨t, hrun, hdone, hframe, hheld⟩ :=
    (completes_start (job := .line l m) hs).2 hreads (textServed_line hs.start l m)
  have hout : t.out = s.out ++ Job.requestsToCome (.line l m) s := hdone.out
  rw [requestsToCome_line hs.start] at hout
  exact ⟨t, exec_of_runs (ofInstr_lineCommand m l) hrun, hframe.sameSettings, hdone.fcfg, hdone.mode, hout, hdone.idle,
    hdone.done, hheld, (hdone.inputs hs.inputs).trans hs.inputs.symm⟩

/-- Settles O25: DSR is the line command of the base mode, whose tables are DOT and ART. -/
theorem dsrSubmitsItsLine : Obligations.DsrSubmitsItsLine := by
  unfold Obligations.DsrSubmitsItsLine
  exact fun l s hs hl => lineCommand_completes l hs hl

/-! ### From every state -/

/-- The run of a line takes no snapshot. -/
theorem runSeq_line_snapshot {l : BitVec 8} {m : Mode} {n : Nat} {s t : State}
    (h : runSeq (.line l m) n s = .next t) : t.fcfg = s.fcfg ∧ t.mode = s.mode := by
  obtain hkept | ⟨⟨k, x, hj⟩, -⟩ := (runSeq_changes h).snapshot
  · exact hkept
  · cases hj

/-- Settles O32, by the frame of SEQ's run; only a frame command takes a snapshot. -/
theorem lineCommandFrame : Obligations.LineCommandFrame := by
  unfold Obligations.LineCommandFrame
  intro l i s t hi h
  obtain ⟨m, rfl⟩ := eq_lineCommand_of_mem hi
  rw [exec_lineCommand] at h
  have hframe := runSeq_frame h
  obtain ⟨hfcfg, hmode⟩ := runSeq_line_snapshot h
  exact ⟨hframe.sameSettings, hfcfg, hmode, hframe.out⟩

end Sys2Proof.Proofs
end

section
/-! O26 to O29: the four double-resolution line commands (43_double_res.md R182 to R190). -/

namespace Sys2Proof.Proofs

open Sys2Proof.Machine Sys2Proof.Laws

/-- Settles O26: DDR.140 is the line command of the mode DR140, whose table is PAL16. -/
theorem ddr140SubmitsItsLine : Obligations.Ddr140SubmitsItsLine := by
  unfold Obligations.Ddr140SubmitsItsLine
  exact fun l s hs hl => lineCommand_completes l hs hl

/-- Settles O27: DDR.560 is the line command of the mode DR560, whose table is MONO4. -/
theorem ddr560SubmitsItsLine : Obligations.Ddr560SubmitsItsLine := by
  unfold Obligations.Ddr560SubmitsItsLine
  exact fun l s hs hl => lineCommand_completes l hs hl

/-- Settles O28: DDR.160 is the line command of the mode DR160, whose table is PAL16. -/
theorem ddr160SubmitsItsLine : Obligations.Ddr160SubmitsItsLine := by
  unfold Obligations.Ddr160SubmitsItsLine
  exact fun l s hs hl => lineCommand_completes l hs hl

/-- Settles O29: DDR.MIX is the line command of the mode DRMIX, whose tables are PAL16 and MONOBW. -/
theorem ddrMixSubmitsItsLine : Obligations.DdrMixSubmitsItsLine := by
  unfold Obligations.DdrMixSubmitsItsLine
  exact fun l s hs hl => lineCommand_completes l hs hl

end Sys2Proof.Proofs
end

section
/-! O40: a line of the mixed sub-mode whose flags are all alike (43_double_res.md R189). -/

namespace Sys2Proof.Proofs

open Sys2Proof.Machine Sys2Proof.Laws

/-! ### The steps -/

/-- The flag of a dot is bit 7 of the byte it comes from, in either interleave (R181). -/
theorem drFlag_of_bytes {il : Interleave} {a m : Nat → Byte} {v : Bool}
    (h : ∀ c, c < 40 → (a c).getLsbD 7 = v ∧ (m c).getLsbD 7 = v) {x : Nat} (hx : x < 560) : drFlag il a m x = v := by
  obtain ⟨ha, hm⟩ := h (x / 14) (by omega)
  cases il <;> simp only [drFlag, ha, hm, ite_self]

/-- With every flag 0 each step with room for four dots is a colour step. -/
theorem mixColourAt_of_clear {f : Nat → Bool} (hf : ∀ x, x < 560 → f x = false) {x : Nat} (hx : x + 4 ≤ 560) :
    mixColourAt f x = true := by
  simp [mixColourAt, hx, hf x (by omega), hf (x + 1) (by omega), hf (x + 2) (by omega), hf (x + 3) (by omega)]

/-- Where a flag is 1 the step is monochrome. -/
theorem mixColourAt_of_set {f : Nat → Bool} {x : Nat} (hf : f x = true) : mixColourAt f x = false := by
  simp [mixColourAt, hf]

theorem mixTakes_pos (colour : Bool) : 0 < mixTakes colour := by cases colour <;> decide

/-- Where all the steps that `colour` leads to are of that kind, `k` of them from step `j` end the line. -/
theorem mixFrom_of_steps (tb : Tables) (s : Nat → Bool) {f : Nat → Bool} {colour : Bool}
    (hc : ∀ i, mixTakes colour * i < 560 → mixColourAt f (mixTakes colour * i) = colour) (k : Nat) :
    ∀ n j, mixTakes colour * (j + k) = 560 → k ≤ n → mixFrom tb s f n (mixTakes colour * j)
      = (List.range' j k).map fun i => mixWordAt tb s colour (mixTakes colour * i) := by
  induction k with
  | zero =>
    intro n j hj _
    rw [show mixTakes colour * j = 560 from hj, mixFrom_end]
    rfl
  | succ k ih =>
    intro n j hj hn
    obtain ⟨n, rfl⟩ := Nat.exists_eq_add_one_of_ne_zero (n := n) (by omega)
    have hlt : mixTakes colour * j < 560 := hj ▸ Nat.mul_lt_mul_of_pos_left (by omega) (mixTakes_pos colour)
    have hnext := ih n (j + 1) (by rwa [Nat.add_assoc, Nat.add_comm 1]) (by omega)
    rw [mixFrom_succ tb s f n _ hlt, hc j hlt, ← Nat.mul_succ, hnext]
    rfl

/-- A line all of whose steps are of one kind. -/
theorem contentMix_of_steps (tb : Tables) (s : Nat → Bool) {f : Nat → Bool} {colour : Bool} {k : Nat}
    (hk : mixTakes colour * k = 560) (hk280 : k ≤ 280)
    (hc : ∀ i, mixTakes colour * i < 560 → mixColourAt f (mixTakes colour * i) = colour) :
    contentMix tb s f = (List.range k).map fun i => mixWordAt tb s colour (mixTakes colour * i) := by
  rw [List.range_eq_range']
  exact mixFrom_of_steps tb s hc k 280 0 (by rwa [Nat.zero_add]) hk280

/-- With every flag 0 a line is 140 colour steps. -/
theorem contentMix_of_clear (tb : Tables) (s : Nat → Bool) {f : Nat → Bool} (hf : ∀ x, x < 560 → f x = false) :
    contentMix tb s f = (List.range 140).map fun i =>
      w2 (tb.pal16.at (nibbleAt s (4 * i))) 1 (tb.pal16.at (nibbleAt s (4 * i))) 1 :=
  contentMix_of_steps (colour := true) tb s rfl (by omega) fun i hi =>
    mixColourAt_of_clear hf (by simp only [mixTakes, if_true] at hi ⊢; omega)

/-- With every flag 1 a line is 280 monochrome steps. -/
theorem contentMix_of_set (tb : Tables) (s : Nat → Bool) {f : Nat → Bool} (hf : ∀ x, x < 560 → f x = true) :
    contentMix tb s f = (List.range 280).map fun i =>
      pair (tb.monobw.at (s (2 * i)).toNat) (tb.monobw.at (s (2 * i + 1)).toNat) :=
  contentMix_of_steps (colour := false) tb s rfl (by omega) fun _ hi => mixColourAt_of_set (hf _ hi)

/-! ### The colours shown -/

theorem flatMap_range_two_mul {α : Type} (g : Nat → List α) (n : Nat) :
    (List.range (2 * n)).flatMap g = (List.range n).flatMap fun k => g (2 * k) ++ g (2 * k + 1) := by
  induction n with
  | zero => rfl
  | succ n ih =>
    rw [Nat.mul_succ, List.range_succ, List.range_succ, List.range_succ]
    simp only [List.flatMap_append, List.flatMap_singleton, ih, List.append_assoc]

theorem slotColours_map {α : Type} (l : List α) (g : α → Word) :
    slotColours (l.map g) = l.flatMap fun x => wordColours (g x) := by
  rw [slotColours, List.flatMap_map]

/-- A colour step shows four slots of its colour. -/
theorem wordColours_colourStep (c : Colour) : wordColours (w2 c 1 c 1) = List.replicate 4 c := wordColours_w2 ..

/-- A word of DDR.140 shows two times four slots. -/
theorem wordColours_xpair (c d : Colour) : wordColours (xpair c d) = List.replicate 4 c ++ List.replicate 4 d :=
  wordColours_w2 ..

theorem wordColours_pair (c d : Colour) : wordColours (pair c d) = [c] ++ [d] := wordColours_w2 ..

/-- Two colour steps show what one word of DDR.140 shows. -/
theorem slotColours_colourSteps (g : Nat → Colour) (n : Nat) :
    slotColours ((List.range (2 * n)).map fun i => w2 (g i) 1 (g i) 1)
      = slotColours ((List.range n).map fun k => xpair (g (2 * k)) (g (2 * k + 1))) := by
  simp only [slotColours_map, wordColours_colourStep, wordColours_xpair, flatMap_range_two_mul]

/-- Monochrome steps show their dots one by one. -/
theorem slotColours_monoSteps (g : Nat → Colour) (n : Nat) :
    slotColours ((List.range n).map fun i => pair (g (2 * i)) (g (2 * i + 1))) = (List.range (2 * n)).map g := by
  simp only [slotColours_map, wordColours_pair, ← flatMap_range_two_mul (fun x => [g x])]
  exact (List.map_eq_flatMap ..).symm

/-- Settles O40: the flags make all the steps of one kind, and the colours are compared two steps, or two dots, at a
time. -/
theorem mixedModeEquivalences : Obligations.MixedModeEquivalences := by
  unfold Obligations.MixedModeEquivalences
  intro il tb a m
  refine ⟨fun h => ?_, fun h => ?_⟩
  · have hmix := contentMix_of_clear tb (drDot il a m) fun x hx => drFlag_of_bytes (il := il) h hx
    refine ⟨hmix, length_content140 .., ?_⟩
    rw [hmix]
    exact slotColours_colourSteps (fun i => tb.pal16.at (nibbleAt (drDot il a m) (4 * i))) 70
  · have hmix := contentMix_of_set tb (drDot il a m) fun x hx => drFlag_of_bytes (il := il) h hx
    refine ⟨hmix, ?_⟩
    rw [hmix]
    exact slotColours_monoSteps (fun x => tb.monobw.at (drDot il a m x).toNat) 280

end Sys2Proof.Proofs
end

section
/-! O30, O31, O33 and O54: the frame commands from their start, their tables loaded, and from every state; and what ends
the run of a line or frame command (44_frame_control.md R211 to R218, 70_reset_and_hazards.md R276). -/

namespace Sys2Proof.Proofs

open Sys2Proof.Machine Sys2Proof.Laws

/-! ### From its start -/

/-- What a completed frame command leaves: the requests of its lines and of the text rows `rows`, decoded by the snapshot,
and the completion (44_frame_control.md R217, R218). -/
def frameCompletes (i : Instr) (lines : Nat) (rows : List Nat) (s : State) : Prop :=
  ∃ t, exec i s = .next t ∧ State.SameSettings s t ∧ t.fcfg = s.issueCfg ∧ t.mode = deriveMode s.issueCfg ∧
    t.out = s.out ++ (.prepareFrame :: .skipLines s.params.vskip
      :: expectedLines s s.issueCfg (deriveMode s.issueCfg) lines ++ rows.map .renderTextLine) ∧
    t.seqState = .idle ∧ t.done = true ∧ t.held = none ∧ t.inputs = []

/-- A frame command that starts has all its lines to decode, from line 0. -/
theorem linesToCome_frame {s : State} (hp : s.point = .start) (n : Nat) (text : Bool) :
    Job.linesToCome (.frame (n + 1) text) s = List.range (n + 1) := by
  simp only [Job.linesToCome, hp, Job.linesAfter]
  rw [List.range_eq_range', List.range'_succ]
  rfl

/-- A frame command that starts, its snapshot taken, has the whole frame's requests to issue. -/
theorem requestsToCome_frame {s : State} (hp : s.point = .start) (n : Nat) (text : Bool) :
    Job.requestsToCome (.frame (n + 1) text) s.snapshot = .prepareFrame :: .skipLines s.params.vskip
      :: expectedLines s s.issueCfg (deriveMode s.issueCfg) (n + 1)
        ++ (Job.rows (.frame (n + 1) text)).map .renderTextLine := by
  have hp' : s.snapshot.point = .start := hp
  simp only [Job.requestsToCome, hp', Job.lineRequests, linesToCome_frame hp']
  rfl

/-- A frame command whose tables are loaded for the mode of its snapshot runs through. -/
theorem frameCommand_completes {i : Instr} {n : Nat} {text : Bool} {s : State}
    (hj : Job.ofInstr i = some (.frame (n + 1) text)) (hs : s.Poised)
    (hl : s.tables.loadedFor (deriveMode s.issueCfg) = true) (ht : s.textServed (.frame (n + 1) text)) :
    frameCompletes i (n + 1) (Job.rows (.frame (n + 1) text)) s := by
  have hreads : s.tables.firstUnwritten (Job.readsToCome (.frame (n + 1) text) s.snapshot) = none :=
    readsToCome_of_loaded (s := s.snapshot) hl
  obtain ⟨t, hrun, hdone, hframe, hheld⟩ := (completes_start hs).2 hreads ht
  have hout : t.out = s.out ++ Job.requestsToCome (.frame (n + 1) text) s.snapshot := hdone.out
  rw [requestsToCome_frame hs.start] at hout
  exact ⟨t, exec_of_runs hj hrun, hframe.sameSettings, hdone.fcfg, hdone.mode, hout, hdone.idle, hdone.done, hheld,
    hdone.inputs hs.inputs⟩

/-- A frame command that starts asks TXT only for its text rows. -/
theorem textServed_frame {s : State} (hp : s.point = .start) {n : Nat} {text : Bool}
    (h : text = true → s.txtReady = true) : s.textServed (.frame n text) := by
  rintro (hrows | hack)
  · cases text with
    | false => exact absurd rfl hrows
    | true => exact h rfl
  · cases hp.symm.trans hack

/-- Settles O30: FFULL is the frame command of 192 lines without text rows. -/
theorem ffullSubmitsTheFrame : Obligations.FfullSubmitsTheFrame := by
  unfold Obligations.FfullSubmitsTheFrame
  intro s hs hl
  have h : frameCompletes .ffull 192 [] s :=
    frameCommand_completes rfl hs hl (textServed_frame hs.start fun hx => absurd hx Bool.false_ne_true)
  simpa only [frameCompletes, List.map_nil, List.append_nil] using h

/-- Settles O31: FMIXED is the frame command of 160 lines with the text rows. -/
theorem fmixedSubmitsTheFrameAndTextRows : Obligations.FmixedSubmitsTheFrameAndTextRows := by
  unfold Obligations.FmixedSubmitsTheFrameAndTextRows
  exact fun s hs htxt hl => frameCommand_completes (i := .fmixed) rfl hs hl (textServed_frame hs.start fun _ => htxt)

/-! ### From every state -/

/-- Once its first step is made, a command takes no snapshot (44_frame_control.md R216). -/
theorem runSeq_snapshot_of_started {job : Job} {n : Nat} {s t : State} (hp : s.point ≠ .start)
    (h : runSeq job n s = .next t) : t.fcfg = s.fcfg ∧ t.mode = s.mode := by
  have hkeeps : t.point ≠ .start ∧ t.fcfg = s.fcfg ∧ t.mode = s.mode := by
    refine runSeq_keeps (P := fun u => u.point ≠ .start ∧ u.fcfg = s.fcfg ∧ u.mode = s.mode) ?_ ?_ ⟨hp, rfl, rfl⟩ h
    · rintro u v ⟨hu, hf, hm⟩ - hstep
      obtain ⟨hf', hm'⟩ := seqStep_snapshot hstep (.inl hu)
      exact ⟨seqStep_point_ne_start hstep, hf'.trans hf, hm'.trans hm⟩
    · intro u hu
      simpa using hu
  exact hkeeps.2

/-- A line or frame command is a run of SEQ whose bound covers the steps left. -/
theorem exec_eq_runSeq {i : Instr} {job : Job} (hj : Job.ofInstr i = some job) (s : State) :
    ∃ n, rank job s ≤ n ∧ exec i s = runSeq job n s := by
  cases i with
  | dsr l => cases hj; exact ⟨_, rank_line_le _ _ s, rfl⟩
  | ddr140 l => cases hj; exact ⟨_, rank_line_le _ _ s, rfl⟩
  | ddr560 l => cases hj; exact ⟨_, rank_line_le _ _ s, rfl⟩
  | ddr160 l => cases hj; exact ⟨_, rank_line_le _ _ s, rfl⟩
  | ddrMix l => cases hj; exact ⟨_, rank_line_le _ _ s, rfl⟩
  | ffull => cases hj; exact ⟨_, rank_frame_le _ s le_rfl, rfl⟩
  | fmixed => cases hj; exact ⟨_, rank_frame_le _ s (by decide), rfl⟩
  | _ => cases hj

/-- Settles O33, by the frame of SEQ's run; a command that has left its start takes no snapshot. -/
theorem frameCommandFrame : Obligations.FrameCommandFrame := by
  unfold Obligations.FrameCommandFrame
  intro i s t hi h
  obtain ⟨job, hj⟩ : ∃ job, Job.ofInstr i = some job := by
    simp only [List.mem_cons, List.not_mem_nil, or_false] at hi
    obtain rfl | rfl := hi <;> exact ⟨_, rfl⟩
  obtain ⟨n, -, hrun⟩ := exec_eq_runSeq hj s
  rw [hrun] at h
  have hframe := runSeq_frame h
  refine ⟨hframe.sameSettings, hframe.out, ?_⟩
  by_cases hp : s.point = .start
  · exact (runSeq_changes h).snapshot.imp_right fun hsnap => ⟨hp, hsnap.2⟩
  · exact .inl (runSeq_snapshot_of_started hp h)

/-! ### What ends a run -/

/-- A command that has not completed has a step left. -/
theorem rank_pos (job : Job) (s : State) : 0 < rank job s := by
  cases hp : s.point <;> simp only [rank, hp] <;> omega

/-- Where SEQ makes no step, it is IDLE or waits for an agent, or an input is due. -/
theorem ended_of_not_step {s : State} (h : ¬ (s.runnable && !s.inputDue) = true) :
    s.seqState = .idle ∨ s.waiting = true ∨ s.inputDue = true := by
  cases hb : s.busy with
  | false => exact .inl (idle_of_not_busy hb)
  | true =>
    cases hw : s.waiting with
    | false => exact .inr (.inr (by simpa [State.runnable, hb, hw] using h))
    | true => exact .inr (.inl rfl)

/-- A run whose bound covers the steps left is never ended by the bound: each step brings the steps left down. -/
theorem runSeq_ends {job : Job} {n : Nat} {s t : State} (hn : rank job s ≤ n) (h : runSeq job n s = .next t) :
    t.seqState = .idle ∨ t.waiting = true ∨ t.inputDue = true := by
  induction n generalizing s with
  | zero => exact absurd hn (Nat.not_le.mpr (rank_pos job s))
  | succ n ih =>
    unfold runSeq at h
    split at h
    case isFalse hstop =>
      cases h
      exact ended_of_not_step hstop
    case isTrue =>
      split at h
      case h_1 u hu =>
        obtain hlt | hidle := seqStep_rank hu
        · exact ih (by rw [rank_tick]; omega) h
        · have hu' : u.tick.seqState = .idle := (tick_seqState u).trans hidle
          rw [runSeq_idle hu'] at h
          cases h
          exact .inl hu'
      all_goals cases h

/-- Settles O54, by the bound on a command's steps. -/
theorem commandRunsUntilDoneWaitingOrDue : Obligations.CommandRunsUntilDoneWaitingOrDue := by
  unfold Obligations.CommandRunsUntilDoneWaitingOrDue
  intro i s t hlong h
  obtain ⟨job, hj⟩ := Option.isSome_iff_exists.mp hlong
  obtain ⟨n, hn, hrun⟩ := exec_eq_runSeq hj s
  exact runSeq_ends hn (hrun ▸ h)

end Sys2Proof.Proofs
end

section
/-! O7, O11, O16 to O21: the registers as the host writes and reads them, and the commands of one step
(44_frame_control.md R210 to R215, R225 to R230). -/

namespace Sys2Proof.Proofs

open Sys2Proof.Machine Sys2Proof.Laws

/-! ### Writes -/

/-- Settles O7: an accepted word is accepted by `State.accept`. -/
theorem wrCmdAcceptsLegalWord : Obligations.WrCmdAcceptsLegalWord := by
  unfold Obligations.WrCmdAcceptsLegalWord
  exact fun v i s hs hd => exec_wrCmd_ok hs hd

/-- A field of a word is its value from the field's first bit on, cut to the field's width. -/
theorem extractLsb_eq_ofNat {w : Nat} (v : BitVec w) (a n : Nat) :
    v.extractLsb' a n = BitVec.ofNat n (v.toNat / 2 ^ a) := by
  rw [BitVec.extractLsb', Nat.shiftRight_eq_div_pow]

theorem exec_wrTsel_idle (v : Word) {s : State} (hs : s.seqState = .idle) : exec (.wrTsel v) s
    = .next { s with tselTable := v.extractLsb' 16 3, tselIndex := v.extractLsb' 0 9 } := by
  simp only [exec, execWrTsel, busy_eq_false hs, Bool.false_eq_true, if_false]

theorem exec_wrTsel_busy (v : Word) {s : State} (hs : s.seqState = .busy) :
    exec (.wrTsel v) s = .next (s.raise .busy) :=
  if_pos ((busy_iff s).mpr hs)

/-- Settles O11, by the two answers of WR TSEL. -/
theorem wrTselStoresItsFields : Obligations.WrTselStoresItsFields := by
  unfold Obligations.WrTselStoresItsFields
  refine fun v s => ⟨fun hs => ?_, fun hs => exec_wrTsel_busy v hs⟩
  rw [exec_wrTsel_idle v hs, extractLsb_eq_ofNat v 16 3, extractLsb_eq_ofNat v 0 9, pow_zero, Nat.div_one]

/-- Settles O16, by the four values of v[1] and v[2]. -/
theorem wrStatusClearsDoneAndErr : Obligations.WrStatusClearsDoneAndErr := by
  unfold Obligations.WrStatusClearsDoneAndErr
  exact execWrStatus_eq

/-- Settles O17: CFG takes the low field of the word. -/
theorem wrCfgStoresItsSevenBits : Obligations.WrCfgStoresItsSevenBits := by
  unfold Obligations.WrCfgStoresItsSevenBits
  exact fun v s => rfl

/-- Settles O18: the three writes answer the state itself. -/
theorem ignoredWritesChangeNothing : Obligations.IgnoredWritesChangeNothing := by
  unfold Obligations.IgnoredWritesChangeNothing
  exact fun v off s => ⟨rfl, rfl, rfl⟩

/-! ### Reads -/

/-- The value of two fields side by side. -/
theorem toNat_append_eq_add {m n : Nat} (x : BitVec m) (y : BitVec n) :
    (x ++ y).toNat = 2 ^ n * x.toNat + y.toNat := by
  rw [BitVec.toNat_append, ← Nat.shiftLeft_add_eq_or_of_lt y.isLt, Nat.shiftLeft_eq, Nat.mul_comm]

/-- STATUS as the sum of its fields (10_state.md R24). -/
theorem statusWord_toNat (s : State) : s.statusWord.toNat
    = (if s.seqState = .busy then 1 else 0) + 2 * s.done.toNat + 4 * s.err.toNat
      + 16 * (if s.err = true then s.errcode.code.toNat else 0) + 256 * s.mode.code.toNat := by
  have hbusy : s.busy.toNat = if s.seqState = .busy then 1 else 0 := by
    cases hs : s.seqState <;> simp [State.busy, hs]
  have hcode : s.errcodeRead.toNat = if s.err = true then s.errcode.code.toNat else 0 := by
    unfold State.errcodeRead
    split <;> rfl
  rw [← hbusy, ← hcode]
  simp only [State.statusWord, toNat_append_eq_add, BitVec.toNat_ofBool, BitVec.ofNat_eq_ofNat, BitVec.toNat_ofNat]
  omega

/-- TSEL as the sum of its fields (10_state.md R30). -/
theorem tselWord_toNat (s : State) : s.tselWord.toNat = s.tselIndex.toNat + 2 ^ 16 * s.tselTable.toNat := by
  simp only [State.tselWord, toNat_append_eq_add, BitVec.ofNat_eq_ofNat, BitVec.toNat_ofNat]
  omega

/-- Settles O19: each read returns its register's word, whose value is the sum of its fields. -/
theorem readsReturnTheRegister : Obligations.ReadsReturnTheRegister := by
  unfold Obligations.ReadsReturnTheRegister
  exact fun s => ⟨rfl, ⟨s.statusWord, rfl, statusWord_toNat s⟩,
    ⟨s.cfgWord, rfl, BitVec.toNat_setWidth_of_le (by decide)⟩,
    ⟨s.fcfgWord, rfl, BitVec.toNat_setWidth_of_le (by decide)⟩,
    ⟨s.resultWord, rfl, BitVec.toNat_setWidth_of_le (by decide)⟩, ⟨s.tselWord, rfl, tselWord_toNat s⟩, fun off => rfl⟩

/-! ### Commands of one step -/

/-- Settles O20: NOP is the completion. -/
theorem nopOnlyCompletes : Obligations.NopOnlyCompletes := by
  unfold Obligations.NopOnlyCompletes
  exact fun s => rfl

/-- Settles O21: FSTART takes the snapshot of the CFG noted at acceptance, which no later write of CFG reaches. -/
theorem fstartTakesTheSnapshot : Obligations.FstartTakesTheSnapshot := by
  unfold Obligations.FstartTakesTheSnapshot
  refine ⟨fun s => rfl, fun v s hs => ?_⟩
  have haccept : exec (.wrCmd 0x10000000) s = .next (s.accept 0x10000000) :=
    exec_wrCmd_ok hs (i := .fstart) (by decide)
  exact ⟨_, _, haccept, rfl, rfl, rfl⟩

end Sys2Proof.Proofs
end

section
/-! O47, O49 and O50: the step runs the command in CMD, an instruction placed for fetching, and a line command the host
issues (44_frame_control.md R210, R211). -/

namespace Sys2Proof.Proofs

open Sys2Proof.Machine Sys2Proof.Laws

/-- Settles O47: with no input to deliver the step is SEQ's turn, which executes the decoded CMD. -/
theorem stepExecutesTheCommandInCmd : Obligations.StepExecutesTheCommandInCmd := by
  unfold Obligations.StepExecutesTheCommandInCmd
  intro i s hn hb hd
  simp only [step, hn, seqTurn, hb, hd]

theorem nextInput_of_no_inputs {s : State} (h : s.inputs = []) : s.nextInput = none := by
  rw [State.nextInput, h]

/-! ### Table words (assumption 16) -/

/-- The four bytes of a command word as the opcode table numbers it. -/
theorem tableBytes_command (v : Word) : tableBytes 32 v.toNat 4 = bytesOfWord v := by
  have hbyte : ∀ k, BitVec.ofNat 8 (v.toNat % 2 ^ 32 / 2 ^ k) = v.extractLsb' k 8 := fun k => by
    rw [Nat.mod_eq_of_lt v.isLt, extractLsb_eq_ofNat]
  simp only [tableBytes, hbyte]
  rfl

theorem ofTableWord_command (v : Word) : Fetch.ofTableWord 32 v.toNat = some (.command v) := by
  have hbytes : Fetch.ofTableWord 32 v.toNat = Fetch.ofBytes .c (tableBytes 32 v.toNat 4) := rfl
  rw [hbytes, tableBytes_command]
  exact ofBytes_toBytes (.command v) fun a h => by cases h

/-- A bus row's word is its offset, and stands for the write of 0 there. -/
theorem ofTableWord_write : ∀ off : BitVec 8, Fetch.ofTableWord 8 off.toNat = some (.access (hostWrite off 0)) := by
  decide

theorem decodeTableWord_of_decode {nbits w : Nat} {x : Fetch} {i : Instr} (hx : Fetch.ofTableWord nbits w = some x)
    (hd : decode x = .ok i) : decodeTableWord nbits w = some i := by
  simp only [decodeTableWord, hx, hd]

theorem decode_command {v : Word} {i : Instr} (h : decodeCommand v = .ok i) : decode (.command v) = .ok i := by
  simp only [decode, h]

theorem decodeAccess_hostWrite {off : BitVec 8} (v : Word) (ho : off.toNat % 4 = 0) :
    decodeAccess (hostWrite off v) = .ok (writeOf off v) :=
  decodeAccess_of_aligned rfl ho

/-- The step that delivers a due host write. -/
theorem step_of_due_write {off : BitVec 8} {v : Word} {r : List TimedInput} {s : State} (ho : off.toNat % 4 = 0)
    (hi : s.inputs = { after := 0, input := .host (hostWrite off v) } :: r) :
    step s = exec (writeOf off v) { s with inputs := r } := by
  rw [step_of_inputs hi (.inl ⟨rfl, .inr rfl⟩), deliver, decodeAccess_hostWrite v ho]

/-- Settles O49: a command word is placed in CMD, where SEQ's turn finds it, and a write is the first input, due. -/
theorem stepRunsThePlacedInstruction : Obligations.StepRunsThePlacedInstruction := by
  unfold Obligations.StepRunsThePlacedInstruction
  refine fun i s => ⟨fun v hd => ⟨decodeTableWord_of_decode (ofTableWord_command v) (decode_command hd), ?_⟩,
    fun off ho hi => ⟨decodeTableWord_of_decode (ofTableWord_write off) ?_, ?_⟩⟩
  · rw [State.withFetchWord, ofTableWord_command]
    exact stepExecutesTheCommandInCmd i _ (nextInput_of_no_inputs rfl) rfl hd
  · rw [hi]
    exact decode_writeAccess 0 ho
  · rw [State.withFetchWord, ofTableWord_write, hi]
    exact step_of_due_write ho rfl

/-! ### A line command the host issues -/

theorem eq_lineCommand_of_job {i : Instr} {l : BitVec 8} {m : Mode} (h : Job.ofInstr i = some (.line l m)) :
    i = lineCommand m l := by
  cases i with
  | dsr k => cases h; rfl
  | ddr140 k => cases h; rfl
  | ddr560 k => cases h; rfl
  | ddr160 k => cases h; rfl
  | ddrMix k => cases h; rfl
  | _ => cases h

/-- Acceptance poises a command, where nothing is to come and DRV answers with large buffers. -/
theorem poised_accept (v : Word) {s : State} (hi : s.inputs = []) (hdrv : s.drvReady = true)
    (hcap : minCapacity ≤ s.params.slCap) : (s.accept v).Poised :=
  ⟨rfl, rfl, hi, rfl, hdrv, hcap⟩

/-- With nothing to come, an accepted command is what the next step executes. -/
theorem step_accept {v : Word} {i : Instr} {s : State} (hd : decodeCommand v = .ok i) (hi : s.inputs = []) :
    step (s.accept v) = exec i (s.accept v) :=
  stepExecutesTheCommandInCmd i _ (nextInput_of_no_inputs hi) rfl hd

/-- Settles O50: the first step accepts the word, which poises its command, and in the second SEQ runs it through. -/
theorem issuedLineCommandCompletes : Obligations.IssuedLineCommandCompletes := by
  unfold Obligations.IssuedLineCommandCompletes
  intro i m l v s hd hj hs hdrv hcap hl hi
  have haccept : step s = .next (State.accept { s with inputs := [] } v) :=
    (step_of_due_write (by decide) hi).trans (exec_wrCmd_ok hs hd)
  obtain ⟨u, hrun, hsame, -, -, hout, hidle, hdone, -, -⟩ :=
    lineCommand_completes l (poised_accept (s := { s with inputs := [] }) v rfl hdrv hcap) hl
  rw [← eq_lineCommand_of_job hj] at hrun
  exact ⟨_, u, haccept, rfl, rfl, rfl, rfl, (step_accept hd rfl).trans hrun, hsame.cmd, hidle, hdone, hsame.err,
    hsame.errcode, hout⟩

end Sys2Proof.Proofs
end

section
/-! O60: with the tables loaded and large buffers no step stops, and the steps keep that (60_exceptions.md R242,
70_reset_and_hazards.md R264). -/

namespace Sys2Proof.Proofs

open Sys2Proof.Machine Sys2Proof.Laws

/-! ### Loaded tables -/

theorem loadedFor_of_loaded {tb : Tables} (h : tb.loaded = true) (m : Mode) : tb.loadedFor m = true := by
  simp only [Tables.loaded, Bool.and_eq_true] at h
  obtain ⟨⟨⟨hsr, hpal⟩, hmono⟩, hbw⟩ := h
  match m with
  | .base => exact (Bool.and_eq_true _ _).mpr hsr
  | .dr .s140 => exact hpal
  | .dr .s560 => exact hmono
  | .dr .s160 => exact hpal
  | .dr .mix => exact (Bool.and_eq_true _ _).mpr ⟨hpal, hbw⟩

theorem ram_loaded_set {w n : Nat} {r : Ram w} (k : Nat) (v : BitVec w) (h : Ram.loaded n r = true) :
    Ram.loaded n (r.set k v) = true := by
  simp only [Ram.loaded, List.all_eq_true, List.mem_range, ram_get_set] at h ⊢
  intro i hi
  split
  · rfl
  · exact h i hi

/-- An entry once written stays written. -/
theorem tables_loaded_set {tb : Tables} (t : TableId) (k : Nat) (v : Word) (h : tb.loaded = true) :
    (tb.set t k v).loaded = true := by
  simp only [Tables.loaded, Bool.and_eq_true] at h ⊢
  obtain ⟨⟨⟨⟨hdot, hart⟩, hpal⟩, hmono⟩, hbw⟩ := h
  cases t with
  | dot => exact ⟨⟨⟨⟨ram_loaded_set _ _ hdot, hart⟩, hpal⟩, hmono⟩, hbw⟩
  | art => exact ⟨⟨⟨⟨hdot, ram_loaded_set _ _ hart⟩, hpal⟩, hmono⟩, hbw⟩
  | pal16 => exact ⟨⟨⟨⟨hdot, hart⟩, ram_loaded_set _ _ hpal⟩, hmono⟩, hbw⟩
  | mono4 => exact ⟨⟨⟨⟨hdot, hart⟩, hpal⟩, ram_loaded_set _ _ hmono⟩, hbw⟩
  | monobw => exact ⟨⟨⟨⟨hdot, hart⟩, hpal⟩, hmono⟩, ram_loaded_set _ _ hbw⟩
  | lores16 => exact ⟨⟨⟨⟨hdot, hart⟩, hpal⟩, hmono⟩, hbw⟩

/-! ### The engines, from any registers: an index of a loaded table is never out of its range -/

/-- The index is a value of `k` bits, and the table holds all of them. -/
theorem fetch_bits_of_loaded {w k : Nat} {r : Ram w} (h : Ram.loaded (2 ^ k) r = true) (t : TableId) (v : BitVec k) :
    r.fetch t v.toNat = .ok (r.at v.toNat) :=
  fetch_of_loaded h t v.isLt

theorem nibblePair_of_loaded {tb : Tables} (h : Ram.loaded 16 tb.pal16 = true) (lo hi : BitVec 4) :
    ∃ w, nibblePair tb lo hi = .ok w := by
  simp only [nibblePair, pal16, fetch_bits_of_loaded (k := 4) h]
  exact ⟨_, rfl⟩

theorem step560_of_loaded {tb : Tables} (h : Ram.loaded 4 tb.mono4 = true) (d : Datapath) :
    ∃ w, step560 tb d = .ok w := by
  simp only [step560, fetch_bits_of_loaded (k := 2) h]
  exact ⟨_, rfl⟩

theorem stepMixColour_of_loaded {tb : Tables} (h : Ram.loaded 16 tb.pal16 = true) (d : Datapath) :
    ∃ w, stepMixColour tb d = .ok w := by
  simp only [stepMixColour, pal16, fetch_bits_of_loaded (k := 4) h]
  exact ⟨_, rfl⟩

theorem stepMixMono_of_loaded {tb : Tables} (h : Ram.loaded 2 tb.monobw = true) (d : Datapath) :
    ∃ w, stepMixMono tb d = .ok w := by
  simp only [stepMixMono, fetch_bits_of_loaded (k := 1) h]
  exact ⟨_, rfl⟩

/-- A double-resolution step, its tables loaded, emits a word. -/
theorem drWord_of_loaded {sub : Sub} {tb : Tables} (h : tb.loadedFor (.dr sub) = true) (d : Datapath) :
    ∃ w, drWord sub tb d = .ok w := by
  cases sub with
  | s140 => exact nibblePair_of_loaded h _ _
  | s560 => exact step560_of_loaded h d
  | s160 => exact nibblePair_of_loaded h _ _
  | mix =>
    obtain ⟨hpal, hbw⟩ := (Bool.and_eq_true _ _).mp h
    simp only [drWord]
    split
    · exact stepMixColour_of_loaded hpal d
    · exact stepMixMono_of_loaded hbw d

theorem drDrain_of_loaded {sub : Sub} {tb : Tables} (h : tb.loadedFor (.dr sub) = true) (last : Bool) (n : Nat)
    (d : Datapath) : ∃ r, drDrain sub last tb n d = .ok r := by
  induction n generalizing d with
  | zero => exact ⟨_, rfl⟩
  | succ n ih =>
    obtain ⟨w, hw⟩ := drWord_of_loaded h d
    rw [drDrain, hw]
    split
    · exact ⟨_, rfl⟩
    · rename_i k _
      obtain ⟨r, hr⟩ := ih (d.take k)
      simp only [hr]
      exact ⟨_, rfl⟩

theorem drColumn_of_loaded {sub : Sub} {tb : Tables} (h : tb.loadedFor (.dr sub) = true) (p : Params) (last : Bool)
    (a m : Byte) (d : Datapath) : ∃ r, drColumn p tb sub last a m d = .ok r := by
  cases sub with
  | s160 =>
    obtain ⟨w0, h0⟩ := nibblePair_of_loaded h (a.extractLsb' 0 4) (a.extractLsb' 4 4)
    obtain ⟨w1, h1⟩ := nibblePair_of_loaded h (m.extractLsb' 0 4) (m.extractLsb' 4 4)
    simp only [drColumn, column160, h0, h1]
    exact ⟨_, rfl⟩
  | s140 => exact drDrain_of_loaded h last _ _
  | s560 => exact drDrain_of_loaded h last _ _
  | mix => exact drDrain_of_loaded h last _ _

theorem srDrain_of_loaded {art : Ram 24} (h : Ram.loaded 512 art = true) (n : Nat) (acc : BitVec 32) (phase : Bool) :
    ∃ r, srDrain art n acc phase = .ok r := by
  induction n generalizing acc phase with
  | zero => exact ⟨_, rfl⟩
  | succ n ih =>
    obtain ⟨r, hr⟩ := ih (acc <<< 2) (!phase)
    simp only [srDrain, fetch_bits_of_loaded (k := 9) h, hr]
    exact ⟨_, rfl⟩

theorem srColumn_of_loaded {tb : Tables} (h : tb.loadedFor .base = true) (p : Params) (b : Byte) (d : Datapath) :
    ∃ r, srColumn p tb b d = .ok r := by
  obtain ⟨hdot, hart⟩ := (Bool.and_eq_true _ _).mp h
  obtain ⟨r, hr⟩ := srDrain_of_loaded hart 7 (srLoad p.srLookback d.acc b (tb.dot.at b.toNat)) d.phase
  simp only [srColumn, fetch_bits_of_loaded (k := 8) hdot, hr]
  exact ⟨_, rfl⟩

/-! ### SEQ's steps and its run -/

theorem column_of_loaded {s : State} {m : Mode} (h : s.tables.loadedFor m = true) (l : BitVec 8) :
    ∃ r, s.column l m = .ok r := by
  cases m with
  | base => exact srColumn_of_loaded h _ _ _
  | dr sub => exact drColumn_of_loaded h _ _ _ _ _

theorem engineStart_of_loaded {s : State} {m : Mode} (h : s.tables.loadedFor m = true) (l : BitVec 8) :
    ∃ d, s.engineStart l m = .ok d := by
  cases m with
  | base =>
    obtain ⟨hdot, -⟩ := (Bool.and_eq_true _ _).mp h
    simp only [State.engineStart, srStart, fetch_bits_of_loaded (k := 8) hdot]
    exact ⟨_, rfl⟩
  | dr sub => exact ⟨_, rfl⟩

theorem seqSubmit_of_loaded {s : State} {m : Mode} (h : s.tables.loadedFor m = true) (l : BitVec 8) :
    ∃ t, seqSubmit l m s = .next t := by
  by_cases hr : s.raced = []
  · exact ⟨_, if_pos hr⟩
  · obtain ⟨d, hd⟩ := seqRedecode_content (l := l) h
    exact ⟨_, by rw [seqSubmit, if_neg hr, hd, andThen]⟩

/-- At every point of a command's rule SEQ can make its step. -/
theorem seqStep_of_booted {s : State} (h : s.booted) (job : Job) : ∃ t, seqStep job s = .next t := by
  obtain ⟨hl, hcap⟩ := h
  have hmode := loadedFor_of_loaded hl (job.lineMode s)
  cases hp : s.point <;> simp only [seqStep, hp]
  case lineAck => exact ⟨_, if_neg (Nat.not_lt.mpr hcap)⟩
  case pad =>
    obtain ⟨d, hd⟩ := engineStart_of_loaded hmode (job.lineIndex s)
    simp only [seqPad, hd]
    exact ⟨_, rfl⟩
  case content =>
    obtain ⟨r, hr⟩ := column_of_loaded hmode (job.lineIndex s)
    simp only [seqColumn, hr]
    exact ⟨_, rfl⟩
  case submit => exact seqSubmit_of_loaded hmode (job.lineIndex s)
  all_goals exact ⟨_, rfl⟩

theorem booted_of_frame {s t : State} (hf : SeqFrame s t) (h : s.booted) : t.booted :=
  ⟨hf.tables ▸ h.1, hf.params ▸ h.2⟩

theorem runSeq_of_booted {s : State} (h : s.booted) (job : Job) (n : Nat) : ∃ t, runSeq job n s = .next t := by
  induction n generalizing s with
  | zero => exact ⟨_, rfl⟩
  | succ n ih =>
    obtain ⟨u, hu⟩ := seqStep_of_booted h job
    rw [runSeq, hu]
    split
    · exact ih (booted_of_frame ((seqStep_frame hu).trans' (tick_frame u)) h)
    · exact ⟨_, rfl⟩

/-! ### Instructions -/

/-- Every instruction answers a next state: a bus operation always, and a command because its run does. -/
theorem exec_of_booted {s : State} (h : s.booted) (i : Instr) : ∃ t, exec i s = .next t := by
  cases i with
  | dsr l => exact runSeq_of_booted h _ _
  | ddr140 l => exact runSeq_of_booted h _ _
  | ddr560 l => exact runSeq_of_booted h _ _
  | ddr160 l => exact runSeq_of_booted h _ _
  | ddrMix l => exact runSeq_of_booted h _ _
  | ffull => exact runSeq_of_booted h _ _
  | fmixed => exact runSeq_of_booted h _ _
  | wrCmd v =>
    cases hs : s.seqState with
    | busy => exact ⟨_, exec_wrCmd_busy v hs⟩
    | idle =>
      cases hd : decodeCommand v with
      | ok i => exact ⟨_, exec_wrCmd_ok hs hd⟩
      | error e => exact ⟨_, exec_wrCmd_error hs hd⟩
  | wrTsel v =>
    cases hs : s.seqState with
    | busy => exact ⟨_, exec_wrTsel_busy v hs⟩
    | idle => exact ⟨_, exec_wrTsel_idle v hs⟩
  | wrTdata v =>
    cases hs : s.seqState with
    | busy => exact ⟨_, exec_wrTdata_busy v hs⟩
    | idle =>
      cases hsel : s.selected with
      | none => exact ⟨_, exec_wrTdata_none v hs hsel⟩
      | some e => exact ⟨_, exec_wrTdata_some v hs hsel⟩
  | rdTdata =>
    cases hs : s.seqState with
    | busy => exact ⟨_, exec_rdTdata_zero (.inl hs)⟩
    | idle =>
      cases hsel : s.selected with
      | none => exact ⟨_, exec_rdTdata_zero (.inr hsel)⟩
      | some e =>
        cases hw : s.tables.get e.1 e.2 with
        | none => exact ⟨_, exec_rdTdata_unwritten hs hsel hw⟩
        | some w => exact ⟨_, exec_rdTdata_written hs hsel hw⟩
  | _ => exact ⟨_, rfl⟩

/-- No instruction unloads a table or changes the buffers' capacity. -/
theorem Effect.booted {i : Instr} {s t : State} (he : Effect s i t) (h : s.booted) : t.booted := by
  cases he with
  | tdata v hs hsel => exact ⟨tables_loaded_set _ _ v h.1, h.2⟩
  | ran hj hr => exact booted_of_frame (runSeq_frame hr) h
  | _ => exact h

/-! ### The inputs still to come -/

/-- The inputs to come, without their times. -/
def pending (s : State) : List Input := s.inputs.map (·.input)

theorem seqLineDone_inputs (job : Job) (s : State) : (seqLineDone job s).inputs = s.inputs := by
  cases job with
  | line l m => rfl
  | frame n x =>
    simp only [seqLineDone]
    split
    · rfl
    · split <;> rfl

theorem seqStep_inputs {job : Job} {s t : State} (h : seqStep job s = .next t) : t.inputs = s.inputs := by
  unfold seqStep at h
  cases hp : s.point <;> simp only [hp] at h
  case start => cases h; cases job <;> rfl
  case lineAck => obtain ⟨-, rfl⟩ := seqTakeBuffer_cases h; rfl
  case pad => obtain ⟨d, -, rfl⟩ := seqPad_cases h; rfl
  case content => obtain ⟨ws, d, -, rfl⟩ := seqColumn_cases h; rfl
  case submit => obtain ⟨-, rfl⟩ | ⟨ws, d, n, rfl⟩ := seqSubmit_cases h <;> rfl
  case submitAck => cases h; exact seqLineDone_inputs job s
  case textAck => cases h; unfold seqTextDone; split <;> rfl
  all_goals cases h; rfl

/-- Time passes for an input; it stays the same input. -/
theorem pending_tick (s : State) : pending s.tick = pending s := by
  unfold State.tick
  split
  · rfl
  · rename_i x r hi
    simp [pending, hi]

theorem runSeq_pending {job : Job} {n : Nat} {s t : State} (h : runSeq job n s = .next t) : pending t = pending s :=
  runSeq_rel (R := fun a b => pending b = pending a) (fun _ => rfl) (fun h k => k.trans h)
    (fun _ hst => by simp only [pending, seqStep_inputs hst]) pending_tick h

theorem Effect.pending_eq {i : Instr} {s t : State} (he : Effect s i t) : pending t = pending s := by
  cases he with
  | ran hj hr => exact runSeq_pending hr
  | _ => rfl

/-- Delivering an input takes the first off the list. -/
theorem nextInput_cases {x : Input} {s t : State} (h : s.nextInput = some (x, t)) :
    ∃ y r, s.inputs = y :: r ∧ y.input = x ∧ t = { s with inputs := r } := by
  unfold State.nextInput at h
  split at h
  · cases h
  · rename_i y r hi
    split at h <;> cases h
    exact ⟨y, r, hi, rfl, rfl⟩

/-! ### The step -/

/-- What a machine that never stops keeps: the tables loaded, large buffers, and no stop among the inputs to come. -/
structure Secure (s : State) : Prop where
  booted : s.booted
  tame : ∀ x ∈ pending s, x.tame = true

theorem Effect.secure {i : Instr} {s t : State} (he : Effect s i t) (h : Secure s) : Secure t :=
  ⟨he.booted h.booted, he.pending_eq ▸ h.tame⟩

theorem exec_secure {s : State} (h : Secure s) (i : Instr) : ∃ t, exec i s = .next t ∧ Secure t := by
  obtain ⟨t, ht⟩ := exec_of_booted h.booted i
  exact ⟨t, ht, (exec_effect ht).secure h⟩

/-- A tame input is delivered: an access in the defined interface is executed, and there is no reset. -/
theorem deliver_secure {x : Input} {s : State} (hx : x.tame = true) (h : Secure s) :
    ∃ t, deliver x s = .next t ∧ Secure t := by
  cases x with
  | host a =>
    simp only [Input.tame, Bool.and_eq_true, beq_iff_eq] at hx
    obtain ⟨hbytes, hoff⟩ := hx
    simp only [deliver, decodeAccess_of_aligned hbytes ((extractLsb_two_eq_zero_iff _).mp hoff)]
    exact exec_secure h _
  | gmw pl pg off v => exact ⟨_, rfl, h.booted, h.tame⟩
  | drv r => exact ⟨_, rfl, h.booted, h.tame⟩
  | txt r => exact ⟨_, rfl, h.booted, h.tame⟩
  | reset => cases hx

/-- SEQ's turn runs the command the invariant says stands in CMD. -/
theorem seqTurn_secure {s : State} (hinv : s.Inv) (h : Secure s) : ∃ t, seqTurn s = .next t ∧ Secure t := by
  cases hs : s.seqState with
  | idle => exact ⟨s, by simp only [seqTurn, hs], h⟩
  | busy =>
    obtain ⟨i, hd, -⟩ := hinv.busyCommand hs
    simp only [seqTurn, hs, hd]
    exact exec_secure h i

theorem step_secure {s : State} (hinv : s.Inv) (h : Secure s) : ∃ t, step s = .next t ∧ Secure t := by
  cases hn : s.nextInput with
  | none =>
    simp only [step, hn]
    exact seqTurn_secure hinv h
  | some p =>
    obtain ⟨x, u⟩ := p
    obtain ⟨y, r, hi, rfl, rfl⟩ := nextInput_cases hn
    have htame : ∀ z ∈ pending s, z.tame = true := h.tame
    rw [pending, hi, List.map_cons, List.forall_mem_cons] at htame
    rw [step_of_nextInput hn]
    exact deliver_secure htame.1 ⟨h.booted, htame.2⟩

theorem coreRun_succ {M : Host.Core} {n : Nat} {s t : M.State} (h : M.step s = .next t) :
    M.run (n + 1) s = M.run n t := by
  rw [Host.Core.run, h]

/-- The step answers a next state from which the same can be said again, so that no run stops. -/
theorem run_secure (n : Nat) {s : State} (hinv : s.Inv) (h : Secure s) :
    ∃ t, Host.Core.run Sys2Proof.core n s = .next t := by
  induction n generalizing s with
  | zero => exact ⟨_, rfl⟩
  | succ n ih =>
    obtain ⟨u, hu, hsec⟩ := step_secure hinv h
    obtain ⟨t, ht⟩ := ih (stepKeepsTheInvariant s u hinv hu) hsec
    exact ⟨t, (coreRun_succ (M := Sys2Proof.core) hu).trans ht⟩

/-- Settles O60: a tame input is delivered and SEQ's turn never stops; the step keeps the invariant by O59. -/
theorem bootedMachineNeverStops : Obligations.BootedMachineNeverStops := by
  unfold Obligations.BootedMachineNeverStops
  intro s hinv hboot htame
  have hsec : Secure s := ⟨hboot, by simpa only [pending, List.forall_mem_map] using htame⟩
  obtain ⟨t, ht, hb, htm⟩ := step_secure hinv hsec
  exact ⟨⟨t, ht, stepKeepsTheInvariant s t hinv ht, hb, by simpa only [pending, List.forall_mem_map] using htm⟩,
    fun n => run_secure n hinv hsec⟩

end Sys2Proof.Proofs
end

section
/-! O44: a silent agent holds a command where it waits, and once served the command completes (60_exceptions.md R252). -/

namespace Sys2Proof.Proofs

open Sys2Proof.Machine Sys2Proof.Laws

/-- A command that waits once its first step is made stands after that step. -/
theorem exec_of_first_step {i : Instr} {job : Job} {s : State} (hj : Job.ofInstr i = some job) (hb : s.seqState = .busy)
    (hp : s.point = .start) (hi : s.inputs = []) (hw : (seqBegin job s).waiting = true) :
    exec i s = .next (seqBegin job s) := by
  obtain ⟨n, hn, hrun⟩ := exec_eq_runSeq hj s
  obtain ⟨n, rfl⟩ := Nat.exists_eq_add_one.mpr (Nat.lt_of_lt_of_le (rank_pos job s) hn)
  have hinputs : (seqBegin job s).inputs = [] := by cases job <;> exact hi
  rw [hrun, runSeq_succ hb (by simp only [State.waiting, hp]) hi (seqStep_start hp) hinputs, runSeq_waiting hw]

/-- A command that waits, with nothing to come, stays where it is. -/
theorem step_of_waiting {i : Instr} {s : State} (hb : s.seqState = .busy) (hi : s.inputs = [])
    (hd : decodeCommand s.cmd = .ok i) (hlong : isLongCommand i) (hw : s.waiting = true) : step s = .next s := by
  obtain ⟨job, hj⟩ := Option.isSome_iff_exists.mp hlong
  obtain ⟨n, -, hrun⟩ := exec_eq_runSeq hj s
  rw [stepExecutesTheCommandInCmd i s (nextInput_of_no_inputs hi) hb hd, hrun, runSeq_waiting hw]

/-- Settles O44: the first step's request is not answered, a waiting SEQ makes no step, and a command that has waited
issues what it has still to issue. -/
theorem silentAgentHoldsTheCommand : Obligations.SilentAgentHoldsTheCommand := by
  unfold Obligations.SilentAgentHoldsTheCommand
  refine fun i s hb hi => ⟨fun hp hdrv => ⟨fun l m hj => ?_, fun n b hj => ?_⟩, step_of_waiting hb hi,
    fun job hj hs htxt hreads => ?_⟩
  · exact exec_of_first_step hj hb hp hi (by simp [seqBegin, State.waiting, hdrv])
  · exact exec_of_first_step hj hb hp hi (by simp [seqBegin, State.waiting, hdrv])
  · obtain ⟨t, hrun, hdone, -⟩ := (completes_resumed hs).ends hreads htxt
    exact ⟨t, exec_of_runs hj hrun, hdone.frame.sameSettings, hdone.fcfg, hdone.mode, hdone.out, hdone.idle, hdone.done,
      hdone.held, hdone.inputs hi⟩

end Sys2Proof.Proofs
end

section
/-! O46: IDLE, the machine waits for a CMD write that is accepted (60_exceptions.md R255). -/

namespace Sys2Proof.Proofs

open Sys2Proof.Machine Sys2Proof.Laws

theorem seqTurn_idle {s : State} (hs : s.seqState = .idle) : seqTurn s = .next s := by
  rw [seqTurn, hs]

/-- From IDLE, the one effect that leaves SEQ BUSY is the acceptance of a command word. -/
theorem Effect.accepted_of_busy {i : Instr} {s t : State} (he : Effect s i t) (hs : s.seqState = .idle)
    (ht : t.seqState = .busy) : i = .wrCmd t.cmd ∧ ∃ j, decodeCommand t.cmd = .ok j := by
  cases he with
  | accepted hs hd => exact ⟨rfl, _, hd⟩
  | nop => cases ht
  | fstart => cases ht
  | laddr l => cases ht
  | ran hj hr =>
    cases (runSeq_idle hs).symm.trans hr
    cases hs.symm.trans ht
  | _ => cases hs.symm.trans ht

/-- From IDLE, the one input that leaves SEQ BUSY is a host write of CMD that is accepted. -/
theorem deliver_busy {x : Input} {s t : State} (h : deliver x s = .next t) (hs : s.seqState = .idle)
    (ht : t.seqState = .busy) :
    ∃ a, x = .host a ∧ decodeAccess a = .ok (.wrCmd t.cmd) ∧ ∃ i, decodeCommand t.cmd = .ok i := by
  cases x with
  | host a =>
    simp only [deliver] at h
    split at h
    · rename_i i hi
      obtain ⟨rfl, hd⟩ := (exec_effect h).accepted_of_busy hs ht
      exact ⟨a, rfl, hi, hd⟩
    · cases h
  | gmw pl pg off v => cases h; cases hs.symm.trans ht
  | drv r => cases h; cases hs.symm.trans ht
  | txt r => cases h; cases hs.symm.trans ht
  | reset => cases h; cases ht

/-- Settles O46: IDLE, SEQ's turn does nothing, and only an accepted command word makes SEQ BUSY. -/
theorem idleUntilACommandIsWritten : Obligations.IdleUntilACommandIsWritten := by
  unfold Obligations.IdleUntilACommandIsWritten
  refine fun s hs => ⟨fun hi => ?_, fun t hst ht => ?_⟩
  · rw [step, nextInput_of_no_inputs hi]
    exact seqTurn_idle hs
  · unfold step at hst
    split at hst
    · rename_i x u hn
      obtain ⟨y, r, -, -, rfl⟩ := nextInput_cases hn
      obtain ⟨a, rfl, ha, hd⟩ := deliver_busy hst hs ht
      exact ⟨a, _, hn, ha, hd⟩
    · cases (seqTurn_idle hs).symm.trans hst
      cases hs.symm.trans ht

end Sys2Proof.Proofs
end

section
/-! O53: SEQ does not look at what a host access may change while a command runs (60_exceptions.md R244,
70_reset_and_hazards.md R272). -/

namespace Sys2Proof.Proofs

open Sys2Proof.Machine Sys2Proof.Laws

/-- What the host may change while a command runs: CFG, ERR, ERRCODE and the word the last read returned. -/
structure HostView where
  cfg : BitVec 7
  err : Bool
  errcode : ErrCode
  rdata : Word

/-- The state with these four as given. -/
def HostView.put (h : HostView) (s : State) : State :=
  { s with cfg := h.cfg, err := h.err, errcode := h.errcode, rdata := h.rdata }

/-- A meaning that neither looks at these four nor changes them. -/
def Blind (g : State → Host.Outcome State Fault Refusal) : Prop :=
  ∀ (h : HostView) (s : State), g (h.put s) = mapNext h.put (g s)

theorem Blind.andThen {g k : State → Host.Outcome State Fault Refusal} (hg : Blind g) (hk : Blind k) :
    Blind fun s => Machine.andThen (g s) k := by
  intro h s
  simp only [hg h s]
  cases g s with
  | next t => exact hk h t
  | fault f => rfl
  | refused r => rfl

/-! ### SEQ's steps -/

theorem seqPad_blind (l : BitVec 8) (m : Mode) : Blind (seqPad l m) := by
  intro h s
  have hstart : (h.put s).engineStart l m = s.engineStart l m := rfl
  rw [seqPad, seqPad, hstart]
  cases s.engineStart l m <;> rfl

theorem seqColumn_blind (l : BitVec 8) (m : Mode) : Blind (seqColumn l m) := by
  intro h s
  have hcolumn : (h.put s).column l m = s.column l m := rfl
  rw [seqColumn, seqColumn, hcolumn]
  cases s.column l m <;> rfl

theorem seqColumns_blind (l : BitVec 8) (m : Mode) (k : Nat) : Blind (seqColumns l m k) := by
  induction k with
  | zero => exact fun h s => rfl
  | succ k ih => exact (seqColumn_blind l m).andThen ih

theorem seqRedecode_blind (l : BitVec 8) (m : Mode) : Blind (seqRedecode l m) := by
  have hpad : Blind fun s => seqPad l m s.rewind := fun h s => seqPad_blind l m h s.rewind
  exact hpad.andThen ((seqColumns_blind l m ncols).andThen fun h s => rfl)

theorem seqSubmit_blind (l : BitVec 8) (m : Mode) : Blind (seqSubmit l m) := by
  intro h s
  have hraced : (h.put s).raced = s.raced := rfl
  by_cases hr : s.raced = []
  · rw [seqSubmit, seqSubmit, if_pos (hraced.trans hr), if_pos hr]
    rfl
  · rw [seqSubmit, seqSubmit, if_neg (hraced ▸ hr), if_neg hr]
    exact (seqRedecode_blind l m).andThen (fun h s => rfl) h s

theorem seqTakeBuffer_blind : Blind seqTakeBuffer := by
  intro h s
  have hparams : (h.put s).params = s.params := rfl
  simp only [seqTakeBuffer, hparams]
  split <;> rfl

theorem seqLineDone_put (job : Job) (h : HostView) (s : State) :
    seqLineDone job (h.put s) = h.put (seqLineDone job s) := by
  have hlctr : (h.put s).lctr = s.lctr := rfl
  cases job with
  | line l m => rfl
  | frame n x =>
    simp only [seqLineDone, hlctr]
    split
    · rfl
    · split <;> rfl

theorem seqTextDone_put (h : HostView) (s : State) : seqTextDone (h.put s) = h.put (seqTextDone s) := by
  have htrow : (h.put s).trow = s.trow := rfl
  simp only [seqTextDone, htrow]
  split <;> rfl

theorem seqStep_blind (job : Job) : Blind (seqStep job) := by
  intro h s
  have hpoint : (h.put s).point = s.point := rfl
  have hindex : job.lineIndex (h.put s) = job.lineIndex s := lineIndex_congr job rfl
  have hmode : job.lineMode (h.put s) = job.lineMode s := lineMode_congr job rfl
  rw [seqStep, seqStep, hpoint]
  cases s.point with
  | start => cases job <;> rfl
  | lineAck => exact seqTakeBuffer_blind h s
  | pad => rw [hindex, hmode]; exact seqPad_blind _ _ h s
  | content => rw [hindex, hmode]; exact seqColumn_blind _ _ h s
  | submit => rw [hindex, hmode]; exact seqSubmit_blind _ _ h s
  | submitAck => exact congrArg Host.Outcome.next (seqLineDone_put job h s)
  | textAck => exact congrArg Host.Outcome.next (seqTextDone_put h s)
  | _ => rfl

/-! ### SEQ's run -/

theorem tick_put (h : HostView) (s : State) : (h.put s).tick = h.put s.tick := by
  have hinputs : (h.put s).inputs = s.inputs := rfl
  simp only [State.tick, hinputs]
  split <;> rfl

theorem runSeq_blind (job : Job) (n : Nat) : Blind (runSeq job n) := by
  induction n with
  | zero => exact fun h s => rfl
  | succ n ih =>
    intro h s
    have hrunnable : (h.put s).runnable = s.runnable := rfl
    have hdue : (h.put s).inputDue = s.inputDue := rfl
    rw [runSeq, runSeq, hrunnable, hdue, seqStep_blind job h s]
    split
    · cases seqStep job s with
      | next t =>
        simp only [mapNext, tick_put]
        exact ih h t.tick
      | fault f => rfl
      | refused r => rfl
    · rfl

/-- Settles O53: no step of SEQ looks at the four, and so no run does. -/
theorem hostAccessesDoNotDisturbACommand : Obligations.HostAccessesDoNotDisturbACommand := by
  unfold Obligations.HostAccessesDoNotDisturbACommand
  exact fun job n c e k w s => runSeq_blind job n ⟨c, e, k, w⟩ s

end Sys2Proof.Proofs
end

section
/-! O8 and O9: the rejection and its codes (60_exceptions.md R240, R241). -/

namespace Sys2Proof.Proofs

open Sys2Proof.Machine Sys2Proof.Laws

/-- Settles O8: each of these writes answers `State.raise` with its code. -/
theorem rejectionIsPreciseAndKeepsFirstCode : Obligations.RejectionIsPreciseAndKeepsFirstCode := by
  unfold Obligations.RejectionIsPreciseAndKeepsFirstCode
  intro v s
  exact ⟨fun hb => ⟨exec_wrCmd_busy v hb, exec_wrTsel_busy v hb, exec_wrTdata_busy v hb⟩, exec_wrCmd_error,
    exec_wrCmd_error, exec_wrCmd_error, exec_wrTdata_none v⟩

/-- Settles O9: the codes are written out in `ErrCode.code`. -/
theorem errorCodesAsRead : Obligations.ErrorCodesAsRead := by
  unfold Obligations.ErrorCodesAsRead
  exact ⟨rfl, rfl, rfl, rfl, rfl, rfl⟩

end Sys2Proof.Proofs
end

section
/-! O10, O51, O52 and O58: the table ports while BUSY (70_reset_and_hazards.md R271), and the reset (R260, R262,
R263). -/

namespace Sys2Proof.Proofs

open Sys2Proof.Machine Sys2Proof.Laws

/-- Settles O10: each of the three is answered by its BUSY branch. -/
theorem tableAccessWhileBusy : Obligations.TableAccessWhileBusy := by
  unfold Obligations.TableAccessWhileBusy
  exact fun v s hb => ⟨exec_wrTsel_busy v hb, exec_wrTdata_busy v hb, exec_rdTdata_zero (.inl hb)⟩

/-! ### Reset -/

/-- No entry of the empty tables is written (10_state.md R41). -/
theorem get_empty (t : TableId) (i : Nat) : Tables.empty.get t i = none := by
  cases t <;> rfl

/-- Settles O51: the registers' words are 0 where their fields are, and the tables are empty. -/
theorem resetValues : Obligations.ResetValues := by
  unfold Obligations.ResetValues
  exact ⟨rfl, rfl, rfl, rfl, rfl, rfl, get_empty, rfl, rfl, rfl⟩

/-- An IDLE machine's DRV is no part of what a reset changes (70_reset_and_hazards.md R263). -/
theorem afterReset_drvReady_idle {s : State} (hs : s.seqState = .idle) : s.afterReset.drvReady = s.drvReady := by
  simp only [State.afterReset, busy_eq_false hs, Bool.false_eq_true, if_false]

/-- Settles O52: a due reset is delivered, BUSY or not, and the block's registers go to the reset state's, by O51. -/
theorem resetInputResets : Obligations.ResetInputResets := by
  unfold Obligations.ResetInputResets
  intro r s hi
  obtain ⟨hcmd, hstatus, hcfg, hfcfg, hresult, htsel, htables, -, hheld, hout⟩ := resetValues
  exact ⟨State.afterReset { s with inputs := r }, step_due hi rfl, hcmd, hstatus, hcfg, hfcfg, hresult, htsel, htables,
    hheld, hout, fun a => rfl, rfl, afterReset_drvReady_idle (s := { s with inputs := r }), rfl, rfl⟩

/-- Settles O58: the tables, OUT and the page views are empty, SEQ is IDLE, and MODE is that of FCFG = 0. -/
theorem resetMeetsTheInvariant : Obligations.ResetMeetsTheInvariant where
  mem := rfl
  tables := rfl
  mode := (by decide : Mode.base = deriveMode 0)
  errcode := ⟨fun _ => rfl, fun _ => rfl⟩
  result := Nat.zero_le _
  busyNotDone := nofun
  busyCommand := nofun
  held := ⟨nofun, nofun⟩
  widx := nofun
  final := nofun
  raced := nofun
  lctr := nlines_pos
  col := nofun
  trow := nofun
  out := nofun

end Sys2Proof.Proofs
end

section
/-! O55: SEQ does not look at the inputs to come (70_reset_and_hazards.md R282, assumption 1). -/

namespace Sys2Proof.Proofs

open Sys2Proof.Machine Sys2Proof.Laws

/-- The state with these inputs to come. -/
def withInputs (l : List TimedInput) (s : State) : State := { s with inputs := l }

/-- A meaning that neither looks at the inputs to come nor changes them. -/
def InputBlind (g : State → Host.Outcome State Fault Refusal) : Prop :=
  ∀ (l : List TimedInput) (s : State), g (withInputs l s) = mapNext (withInputs l) (g s)

theorem InputBlind.andThen {g k : State → Host.Outcome State Fault Refusal} (hg : InputBlind g) (hk : InputBlind k) :
    InputBlind fun s => Machine.andThen (g s) k := by
  intro l s
  simp only [hg l s]
  cases g s with
  | next t => exact hk l t
  | fault f => rfl
  | refused r => rfl

/-! ### SEQ's steps -/

theorem seqPad_inputBlind (j : BitVec 8) (m : Mode) : InputBlind (seqPad j m) := by
  intro l s
  rw [seqPad, seqPad, show (withInputs l s).engineStart j m = s.engineStart j m from rfl]
  cases s.engineStart j m <;> rfl

theorem seqColumn_inputBlind (j : BitVec 8) (m : Mode) : InputBlind (seqColumn j m) := by
  intro l s
  rw [seqColumn, seqColumn, show (withInputs l s).column j m = s.column j m from rfl]
  cases s.column j m <;> rfl

theorem seqColumns_inputBlind (j : BitVec 8) (m : Mode) (k : Nat) : InputBlind (seqColumns j m k) := by
  induction k with
  | zero => exact fun l s => rfl
  | succ k ih => exact (seqColumn_inputBlind j m).andThen ih

theorem seqRedecode_inputBlind (j : BitVec 8) (m : Mode) : InputBlind (seqRedecode j m) := by
  have hpad : InputBlind fun s => seqPad j m s.rewind := fun l s => seqPad_inputBlind j m l s.rewind
  exact hpad.andThen ((seqColumns_inputBlind j m ncols).andThen fun l s => rfl)

theorem seqSubmit_inputBlind (j : BitVec 8) (m : Mode) : InputBlind (seqSubmit j m) := by
  intro l s
  rw [seqSubmit, seqSubmit, show (withInputs l s).raced = s.raced from rfl]
  split
  · rfl
  · exact (seqRedecode_inputBlind j m).andThen (fun l s => rfl) l s

theorem seqTakeBuffer_inputBlind : InputBlind seqTakeBuffer := by
  intro l s
  rw [seqTakeBuffer, seqTakeBuffer, show (withInputs l s).params = s.params from rfl]
  split <;> rfl

theorem seqLineDone_withInputs (job : Job) (l : List TimedInput) (s : State) :
    seqLineDone job (withInputs l s) = withInputs l (seqLineDone job s) := by
  cases job with
  | line j m => rfl
  | frame n x =>
    simp only [seqLineDone, show (withInputs l s).lctr = s.lctr from rfl]
    split_ifs <;> rfl

theorem seqTextDone_withInputs (l : List TimedInput) (s : State) :
    seqTextDone (withInputs l s) = withInputs l (seqTextDone s) := by
  simp only [seqTextDone, show (withInputs l s).trow = s.trow from rfl]
  split <;> rfl

theorem seqStep_inputBlind (job : Job) : InputBlind (seqStep job) := by
  intro l s
  rw [seqStep, seqStep, show (withInputs l s).point = s.point from rfl,
    lineIndex_congr job (show (withInputs l s).lctr = s.lctr from rfl),
    lineMode_congr job (show (withInputs l s).mode = s.mode from rfl)]
  cases s.point with
  | start => cases job <;> rfl
  | lineAck => exact seqTakeBuffer_inputBlind l s
  | pad => exact seqPad_inputBlind _ _ l s
  | content => exact seqColumn_inputBlind _ _ l s
  | submit => exact seqSubmit_inputBlind _ _ l s
  | submitAck => exact congrArg Host.Outcome.next (seqLineDone_withInputs job l s)
  | textAck => exact congrArg Host.Outcome.next (seqTextDone_withInputs l s)
  | _ => rfl

/-! ### SEQ's run -/

theorem not_due_of_later {k : Nat} (hk : 0 < k) (x : Input) (r : List TimedInput) (s : State) :
    (withInputs ({ after := k, input := x } :: r) s).inputDue = false := by
  simp [State.inputDue, withInputs, Nat.ne_of_gt hk]

/-- Settles O55: no step of SEQ looks at the input, which is due before none of the `n` steps, and each brings it nearer
by one. -/
theorem laterInputDoesNotDisturbARun : Obligations.LaterInputDoesNotDisturbARun := by
  unfold Obligations.LaterInputDoesNotDisturbARun
  intro job n k x r s hi hk
  change ∃ j ≤ n, runSeq job n (withInputs ({ after := k, input := x } :: r) s)
    = mapNext (withInputs ({ after := k - j, input := x } :: r)) (runSeq job n s)
  induction n generalizing k s with
  | zero => exact ⟨0, le_rfl, rfl⟩
  | succ n ih =>
    have hdue : s.inputDue = false := by simp [State.inputDue, hi]
    have hrunnable : (withInputs ({ after := k, input := x } :: r) s).runnable = s.runnable := rfl
    rw [runSeq, runSeq, hrunnable, hdue, not_due_of_later (by omega), seqStep_inputBlind job]
    split
    · cases hst : seqStep job s with
      | next t =>
        have ht : t.inputs = [] := (seqStep_inputs hst).trans hi
        obtain ⟨j, hj, hrun⟩ := ih (k - 1) t ht (by omega)
        refine ⟨j + 1, by omega, ?_⟩
        change runSeq job n (withInputs ({ after := k - 1, input := x } :: r) t) = mapNext _ (runSeq job n t.tick)
        rw [tick_of_no_inputs t ht, hrun, Nat.sub_sub, Nat.add_comm 1 j]
      | fault f => exact ⟨0, Nat.zero_le _, rfl⟩
      | refused q => exact ⟨0, Nat.zero_le _, rfl⟩
    · exact ⟨0, Nat.zero_le _, rfl⟩

end Sys2Proof.Proofs
end

section
/-! O45: WAIT ends, or is reported stuck (30_encoding.md R98, 70_reset_and_hazards.md R273). -/

namespace Sys2Proof.Proofs

open Sys2Proof.Machine Sys2Proof.Laws

/-! ### A poll, and the host's next access -/

/-- STATUS.BUSY is bit 0 (10_state.md R24). -/
theorem statusWord_busy (s : State) : s.statusWord.getLsbD 0 = s.busy := by
  rw [State.statusWord, BitVec.getLsbD_append, if_pos Nat.one_pos, BitVec.getLsbD_ofBool]
  exact Bool.true_and _

theorem deliver_poll (s : State) : deliver (.host (hostRead 0x04)) s = .next (s.returns s.statusWord) := rfl

theorem not_start_of_waiting {s : State} (h : s.waiting = true) : s.point ≠ .start := by
  intro hp
  simp [State.waiting, hp] at h

theorem framePending_eq_false {s : State} (h : s.seqState = .idle ∨ s.point ≠ .start) : s.framePending = false := by
  obtain hs | hp := h
  · simp [State.framePending, busy_eq_false hs]
  · simp [State.framePending, hp]

/-- A frame command whose snapshot is still to come can make its first step. -/
theorem runnable_of_framePending {s : State} (h : s.framePending = true) : s.seqState = .busy ∧ s.runnable = true := by
  simp only [State.framePending, Bool.and_eq_true, beq_iff_eq, busy_iff] at h
  obtain ⟨⟨hb, hp⟩, -⟩ := h
  exact ⟨hb, (runnable_iff s).mpr ⟨hb, by simp [State.waiting, hp]⟩⟩

/-- The state in which an access is the first input, due now. -/
def withAccess (a : BusAccess) (s : State) : State :=
  { s with inputs := { after := 0, input := .host a } :: s.inputs }

theorem hostAccess_eq (a : BusAccess) (s : State) : hostAccess a s
    = if (withAccess a s).inputDue then step (withAccess a s) else andThen (step (withAccess a s)) step := rfl

theorem inputDue_withAccess (a : BusAccess) (s : State) :
    (withAccess a s).inputDue = !((Input.host a).readsSnapshot && s.framePending) := rfl

/-- Where no snapshot is to come, the host's access is made at once. -/
theorem hostAccess_of_not_pending (a : BusAccess) {s : State} (h : s.framePending = false) :
    hostAccess a s = deliver (.host a) s := by
  have hdue : (withAccess a s).inputDue = true := by rw [inputDue_withAccess, h, Bool.and_false]; rfl
  rw [hostAccess_eq, if_pos hdue]
  exact step_of_inputs (s := withAccess a s) rfl (.inl ⟨rfl, .inl h⟩)

theorem poll_of_not_pending {s : State} (h : s.framePending = false) :
    hostAccess (hostRead 0x04) s = .next (s.returns s.statusWord) :=
  (hostAccess_of_not_pending _ h).trans (deliver_poll s)

/-! ### What a WAIT does after a poll -/

theorem wait_of_idle {n : Nat} {s t : State} (h : hostAccess (hostRead 0x04) s = .next t)
    (hb : t.rdata.getLsbD 0 = false) : wait (n + 1) s = .ended t := by
  rw [wait, h]
  simp only [hb, if_true]

theorem wait_of_stuck {n : Nat} {s t : State} (h : hostAccess (hostRead 0x04) s = .next t)
    (hb : t.rdata.getLsbD 0 = true) (hst : t.stuck = true) : wait (n + 1) s = .stuck t := by
  rw [wait, h]
  simp only [hb, hst, Bool.true_eq_false, if_false, if_true]

theorem wait_of_step {n : Nat} {s t u : State} (h : hostAccess (hostRead 0x04) s = .next t)
    (hb : t.rdata.getLsbD 0 = true) (hst : t.stuck = false) (hu : step t = .next u) : wait (n + 1) s = wait n u := by
  rw [wait, h]
  simp only [hb, hst, hu, Bool.true_eq_false, Bool.false_eq_true, if_false]

/-! ### The stuck machine -/

theorem stuck_iff (s : State) : s.stuck = true ↔ s.seqState = .busy ∧ s.waiting = true ∧ s.inputs = [] := by
  simp [State.stuck, and_assoc]

/-- A stuck machine's step answers the same state: the command it waits with is a line or frame command. -/
theorem step_of_stuck {s : State} (h : s.Inv) (hst : s.stuck = true) : step s = .next s := by
  obtain ⟨hb, hw, hi⟩ := (stuck_iff s).mp hst
  obtain ⟨i, hd, hfit⟩ := h.busyCommand hb
  refine step_of_waiting hb hi hd ?_ hw
  cases hj : Job.ofInstr i with
  | none => exact absurd (by simpa only [hj] using hfit) (not_start_of_waiting hw)
  | some job => exact Option.isSome_iff_exists.mpr ⟨job, hj⟩

/-- No bus operation ends the wait or issues a request. -/
theorem Effect.keeps_stuck {i : Instr} {s t : State} (he : Effect s i t) (hbus : (encode i).format = .bus)
    (hst : s.stuck = true) : t.stuck = true ∧ t.out = s.out := by
  obtain ⟨hb, -, -⟩ := (stuck_iff s).mp hst
  cases he with
  | accepted hs hd => cases hb.symm.trans hs
  | tsel v hs => cases hb.symm.trans hs
  | tdata v hs hsel => cases hb.symm.trans hs
  | nop => cases hbus
  | fstart => cases hbus
  | laddr l => cases hbus
  | ran hj hr => cases (format_of_job hj).symm.trans hbus
  | _ => exact ⟨hst, rfl⟩

/-- No host access ends the wait or issues a request. -/
theorem hostAccess_of_stuck {a : BusAccess} {s t : State} (hst : s.stuck = true) (h : hostAccess a s = .next t) :
    t.stuck = true ∧ t.out = s.out := by
  obtain ⟨-, hw, -⟩ := (stuck_iff s).mp hst
  rw [hostAccess_of_not_pending a (framePending_eq_false (.inr (not_start_of_waiting hw)))] at h
  simp only [deliver] at h
  split at h
  · exact (exec_effect h).keeps_stuck (decodeAccess_format ‹_›) hst
  · cases h

/-! ### SEQ's turn leaves nothing to do -/

theorem nextInput_cons {s : State} {y : TimedInput} {r : List TimedInput} (hi : s.inputs = y :: r) : s.nextInput
    = if s.inputDue || !s.runnable then some (y.input, { s with inputs := r }) else none := by
  rw [State.nextInput, hi]

/-- SEQ has no step to make: it is IDLE or waits for an agent, or an input is due. -/
def Settled (s : State) : Prop := s.seqState = .idle ∨ s.waiting = true ∨ s.inputDue = true

/-- A settled machine delivers its next input. -/
theorem Settled.nextInput {s : State} (h : Settled s) {y : TimedInput} {r : List TimedInput} (hi : s.inputs = y :: r) :
    s.nextInput = some (y.input, { s with inputs := r }) := by
  have hc : (s.inputDue || !s.runnable) = true := by
    obtain hs | hw | hd := h
    · simp [State.runnable, busy_eq_false hs]
    · simp [State.runnable, hw]
    · simp [hd]
  rw [nextInput_cons hi, if_pos hc]

/-- A settled BUSY machine with nothing to deliver is stuck. -/
theorem Settled.stuck {s : State} (h : Settled s) (hb : s.seqState = .busy) (hn : s.nextInput = none) :
    s.stuck = true := by
  cases hi : s.inputs with
  | cons y r => cases (h.nextInput hi).symm.trans hn
  | nil =>
    have hdue : s.inputDue = false := by simp [State.inputDue, hi]
    obtain hs | hw | hd := h
    · cases hb.symm.trans hs
    · exact (stuck_iff s).mpr ⟨hb, hw, hi⟩
    · cases hdue.symm.trans hd

theorem not_due_of_nextInput {s : State} (h : s.nextInput = none) : s.inputDue = false := by
  cases hi : s.inputs with
  | nil => simp [State.inputDue, hi]
  | cons y r =>
    rw [nextInput_cons hi] at h
    split at h
    · cases h
    · rename_i hc
      exact (Bool.or_eq_false_iff.mp (eq_false_of_ne_true hc)).1

/-- A run that is not stopped by an input leaves the command's start. -/
theorem runSeq_point_ne_start {job : Job} {n : Nat} {s t : State} (hn : 0 < n) (hb : s.seqState = .busy)
    (hd : s.inputDue = false) (h : runSeq job n s = .next t) : t.point ≠ .start := by
  have hkeeps : ∀ {m : Nat} {u : State}, u.point ≠ .start → runSeq job m u = .next t → t.point ≠ .start :=
    runSeq_keeps (P := fun u => u.point ≠ .start) (fun _ _ hst => seqStep_point_ne_start hst)
      fun hu => by simpa using hu
  by_cases hp : s.point = .start
  · obtain ⟨n, rfl⟩ := Nat.exists_eq_add_one.mpr hn
    have hr : s.runnable = true := (runnable_iff s).mpr ⟨hb, by simp [State.waiting, hp]⟩
    rw [runSeq, hr, hd, seqStep_start hp] at h
    exact hkeeps (by simpa using seqStep_point_ne_start (seqStep_start (job := job) hp)) h
  · exact hkeeps hp h

/-- A command of one step leaves SEQ IDLE. -/
theorem idle_of_one_step {i : Instr} {s t : State} (hd : decodeCommand s.cmd = .ok i) (hj : Job.ofInstr i = none)
    (h : exec i s = .next t) : t.seqState = .idle := by
  have hcommand := (acceptedWordIsItsEncoding _ _ hd).2
  cases i with
  | nop => cases h; rfl
  | fstart => cases h; rfl
  | laddr l => cases h; rfl
  | dsr l => cases hj
  | ddr140 l => cases hj
  | ddr560 l => cases hj
  | ddr160 l => cases hj
  | ddrMix l => cases hj
  | ffull => cases hj
  | fmixed => cases hj
  | _ => cases hcommand

/-- SEQ's turn settles the machine, with no snapshot to come. -/
theorem seqTurn_settles {s t : State} (hinv : s.Inv) (hb : s.seqState = .busy) (hn : s.nextInput = none)
    (h : seqTurn s = .next t) : Settled t ∧ t.framePending = false := by
  obtain ⟨i, hd, -⟩ := hinv.busyCommand hb
  simp only [seqTurn, hb, hd] at h
  cases hj : Job.ofInstr i with
  | none =>
    have hidle := idle_of_one_step hd hj h
    exact ⟨.inl hidle, framePending_eq_false (.inl hidle)⟩
  | some job =>
    obtain ⟨n, hrank, hrun⟩ := exec_eq_runSeq hj s
    rw [hrun] at h
    have hstarted :=
      runSeq_point_ne_start (Nat.lt_of_lt_of_le (rank_pos job s) hrank) hb (not_due_of_nextInput hn) h
    exact ⟨runSeq_ends hrank h, framePending_eq_false (.inr hstarted)⟩

/-! ### The machine a WAIT polls -/

/-- What every step of a WAIT keeps: the invariant, and that no step stops. -/
structure Live (s : State) : Prop where
  inv : s.Inv
  secure : Secure s

theorem Live.next {s : State} (h : Live s) : ∃ t, step s = .next t ∧ Live t := by
  obtain ⟨t, ht, hsec⟩ := step_secure h.inv h.secure
  exact ⟨t, ht, stepKeepsTheInvariant s t h.inv ht, hsec⟩

theorem Live.returns {s : State} (h : Live s) (w : Word) : Live (s.returns w) :=
  ⟨{ h.inv with }, h.secure.booted, h.secure.tame⟩

/-- The inputs to come are no part of the invariant, and the host's access is one in the defined interface. -/
theorem Live.withAccess {a : BusAccess} {s : State} (h : Live s) (ha : (Input.host a).tame = true) :
    Live (withAccess a s) :=
  ⟨{ h.inv with }, h.secure.booted, List.forall_mem_cons.mpr ⟨ha, h.secure.tame⟩⟩

theorem Live.withoutFirst {s : State} (h : Live s) {y : TimedInput} {r : List TimedInput} (hi : s.inputs = y :: r) :
    Live { s with inputs := r } := by
  have htame := h.secure.tame
  rw [pending, hi, List.map_cons, List.forall_mem_cons] at htame
  exact ⟨{ h.inv with }, h.secure.booted, htame.2⟩

theorem deliver_pending {x : Input} {s t : State} (h : deliver x s = .next t) : pending t = pending s := by
  cases x with
  | host a =>
    simp only [deliver] at h
    split at h
    · exact (exec_effect h).pending_eq
    · cases h
  | _ => cases h; rfl

/-- Delivering an input leaves one fewer to come. -/
theorem step_pending_lt {p : Input × State} {s t : State} (hn : s.nextInput = some p) (h : step s = .next t) :
    (pending t).length < (pending s).length := by
  obtain ⟨x, u⟩ := p
  rw [step_of_nextInput hn] at h
  obtain ⟨y, r, hi, -, rfl⟩ := nextInput_cases hn
  rw [deliver_pending h]
  simp [pending, hi]

theorem seqTurn_pending {s t : State} (h : seqTurn s = .next t) : pending t = pending s := by
  unfold seqTurn at h
  split at h
  · cases h; rfl
  · split at h
    · exact (exec_effect h).pending_eq
    · cases h

/-- A step that delivers nothing settles a BUSY machine, with no snapshot to come and the same inputs to come. -/
theorem step_settles {s t : State} (hinv : s.Inv) (hb : s.seqState = .busy) (hn : s.nextInput = none)
    (h : step s = .next t) : Settled t ∧ t.framePending = false ∧ pending t = pending s := by
  rw [step, hn] at h
  obtain ⟨hset, hpend⟩ := seqTurn_settles hinv hb hn h
  exact ⟨hset, hpend, seqTurn_pending h⟩

/-- A poll waits for a frame command's snapshot (70_reset_and_hazards.md R279), so that SEQ makes its step first. -/
theorem poll_of_pending {s : State} (h : s.framePending = true) : (withAccess (hostRead 0x04) s).inputDue = false ∧
    (withAccess (hostRead 0x04) s).nextInput = none := by
  have hdue : (withAccess (hostRead 0x04) s).inputDue = false := by rw [inputDue_withAccess, h]; rfl
  have hrunnable : (withAccess (hostRead 0x04) s).runnable = true := (runnable_of_framePending h).2
  exact ⟨hdue, by rw [nextInput_cons rfl, hdue, hrunnable]; rfl⟩

/-- A poll answers STATUS of a live machine with the same inputs to come: at once, or after the step that takes a frame
command's snapshot. -/
theorem poll_answers {s : State} (h : Live s) :
    ∃ t, hostAccess (hostRead 0x04) s = .next (t.returns t.statusWord) ∧ Live t ∧ pending t = pending s := by
  cases hp : s.framePending with
  | false => exact ⟨s, poll_of_not_pending hp, h, rfl⟩
  | true =>
    obtain ⟨hdue, hn⟩ := poll_of_pending hp
    have hlive : Live (withAccess (hostRead 0x04) s) := h.withAccess rfl
    obtain ⟨u, hu, hulive⟩ := hlive.next
    obtain ⟨hset, -, hpend⟩ := step_settles hlive.inv (runnable_of_framePending hp).1 hn hu
    obtain ⟨y, r, hi, hy, hr⟩ := List.map_eq_cons_iff.mp hpend
    refine ⟨{ u with inputs := r }, ?_, hulive.withoutFirst hi, hr⟩
    rw [hostAccess_eq, if_neg (ne_true_of_eq_false hdue), hu, andThen, step_of_nextInput (hset.nextInput hi), hy,
      deliver_poll]

/-! ### The WAIT -/

/-- Some number of polls ends a WAIT, IDLE with BUSY read as 0, or reports it stuck. -/
def Reports (s : State) : Prop :=
  ∃ n t, (wait n s = .ended t ∧ t.seqState = .idle ∧ t.rdata.getLsbD 0 = false) ∨
    (wait n s = .stuck t ∧ t.stuck = true)

/-- A poll that answers BUSY and is not stuck leaves the WAIT to the step after it. -/
theorem reports_of_poll {s t : State} (hpoll : hostAccess (hostRead 0x04) s = .next (t.returns t.statusWord))
    (hlive : Live t)
    (hnext : ∀ v u, v = t.returns t.statusWord → v.seqState = .busy → v.stuck = false → step v = .next u →
      Live u → Reports u) : Reports s := by
  have hbit : (t.returns t.statusWord).rdata.getLsbD 0 = t.busy := statusWord_busy t
  cases hb : t.busy with
  | false => exact ⟨1, _, .inl ⟨wait_of_idle hpoll (hbit.trans hb), idle_of_not_busy hb, hbit.trans hb⟩⟩
  | true =>
    cases hst : t.stuck with
    | true => exact ⟨1, _, .inr ⟨wait_of_stuck hpoll (hbit.trans hb) hst, hst⟩⟩
    | false =>
      obtain ⟨u, hu, hulive⟩ := (hlive.returns t.statusWord).next
      obtain ⟨n, w, hw⟩ := hnext _ u rfl ((busy_iff t).mp hb) hst hu hulive
      refine ⟨n + 1, w, ?_⟩
      rwa [wait_of_step hpoll (hbit.trans hb) hst hu]

/-- A settled machine's poll is answered at once; unless the WAIT is over, an input is delivered after it. -/
theorem reports_of_settled {s : State} (h : Live s) (hset : Settled s) (hp : s.framePending = false)
    (ih : ∀ u, Live u → (pending u).length < (pending s).length → Reports u) : Reports s := by
  refine reports_of_poll (poll_of_not_pending hp) h fun v u hv hb hst hu hulive => ?_
  have hset' : Settled v := hv ▸ hset
  have hpend : pending v = pending s := by rw [hv]; rfl
  cases hn : v.nextInput with
  | none => cases (hset'.stuck hb hn).symm.trans hst
  | some p => exact ih u hulive (hpend ▸ step_pending_lt hn hu)

/-- Of the steps after two polls in a row one delivers an input, unless the WAIT is over: the inputs to come bound the
polls. -/
theorem reports_of_live {s : State} (h : Live s) : Reports s := by
  induction hk : (pending s).length using Nat.strong_induction_on generalizing s with
  | _ k ih =>
    have hfewer : ∀ u, Live u → (pending u).length < k → Reports u := fun u hu hlt => ih _ hlt hu rfl
    obtain ⟨t, hpoll, htlive, hpend⟩ := poll_answers h
    refine reports_of_poll hpoll htlive fun v u hv hb _ hu hulive => ?_
    have hvpend : (pending v).length = k := by rw [hv, ← hk, ← hpend]; rfl
    cases hn : v.nextInput with
    | some p => exact hfewer u hulive (hvpend ▸ step_pending_lt hn hu)
    | none =>
      obtain ⟨hset, hp, hupend⟩ := step_settles (hv ▸ (htlive.returns _).inv) hb hn hu
      exact reports_of_settled hulive hset hp (by rwa [hupend, hvpend])

/-- Settles O45: a poll of an IDLE or stuck machine reads its STATUS at once, a stuck one stays as it is, and from every
other the inputs to come are used up. -/
theorem waitEndsOrReportsStuck : Obligations.WaitEndsOrReportsStuck := by
  unfold Obligations.WaitEndsOrReportsStuck
  refine ⟨fun n s hs => ?_, fun n s hinv hst => ⟨?_, ?_⟩, fun s hinv hboot htame => ?_⟩
  · exact wait_of_idle (poll_of_not_pending (framePending_eq_false (.inl hs)))
      ((statusWord_busy s).trans (busy_eq_false hs))
  · obtain ⟨hb, hw, -⟩ := (stuck_iff s).mp hst
    exact wait_of_stuck (poll_of_not_pending (framePending_eq_false (.inr (not_start_of_waiting hw))))
      ((statusWord_busy s).trans ((busy_iff s).mpr hb)) hst
  · rintro t (ht | ⟨a, ht⟩)
    · cases (step_of_stuck hinv hst).symm.trans ht
      exact ⟨hst, rfl⟩
    · exact hostAccess_of_stuck hst ht
  · exact reports_of_live ⟨hinv, hboot, by simpa only [pending, List.forall_mem_map] using htame⟩

end Sys2Proof.Proofs
end
